-- ==== Sys2Proof/Word.lean ====
section
/-! DEFINITION. The bit vectors of the machine: bytes, register words, addresses and lengths, cipher blocks. -/

namespace Sys2Proof

/-- A byte, bit 7 most significant (R11). -/
abbrev Byte := BitVec 8

/-- A host register, and a command word (R20, R80). -/
abbrev Word := BitVec 32

/-- An address or length register: `X_HI` then `X_LO` (R8, R22). -/
abbrev Dword := BitVec 64

/-- A block of 16 bytes. Byte `X[0]` stands in bits 127..120, byte `X[15]` in bits 7..0 (R11). -/
abbrev Block := BitVec 128

end Sys2Proof
end

