-- ==== Sys2Proof/Config.lean ====
section
/-! DEFINITION. What an implementation fixes: the parameters CIPHER, ADMIT and REG_BASE, and the draws that R73 leaves open. -/

namespace Sys2Proof.Config

/-- The external block cipher (R9): its block size, whether it accepted its key, and its encryption
function. Nothing is assumed of `encrypt` but that it is a function. -/
structure Cipher where
  blockBytes : Nat
  keyOk : Bool
  encrypt : Block → Block
deriving Inhabited

/-- The direction of a data-memory byte access (R10). -/
inductive Dir where
  | read
  | write
deriving DecidableEq, Repr, Inhabited

/-- Everything the platform fixes for a run. DESIGN CHOICE (log 4): one record, so that a meaning can be
run on a platform of a test's own. -/
structure Platform where
  /-- `CIPHER` (R9, P1). -/
  cipher : Cipher
  /-- `ADMIT` (R10, P2). Addresses of 2^64 and above are refused whatever this says: `admitted`. -/
  admits : Nat → Dir → Bool
  /-- The `k`-th draw of a run: which of its candidates a racing byte access sees (R73, log 7). -/
  raceDraw : Nat → Nat
  /-- `REG_BASE / 256` (R20, P3): the window's base is 256-byte aligned. -/
  regPage : Nat
deriving Inhabited

/-- The platform of the run: no body, so no proof knows more of it than its type (R9, R10, R20, R73; log 4).
The free values of the model are read from it and from nowhere else. -/
opaque platform : Platform

end Sys2Proof.Config
end

