-- ==== Sys2Proof/Syntax.lean ====
section
/-! DEFINITION. The commands of the host and the micro-ops of the engine: one constructor per row of the opcode table. -/

namespace Sys2Proof

/-- What a 32-bit command word spells (R81, R84). -/
inductive Command where
  /-- `NewCCM`: the nonce and tag lengths come from CFG. -/
  | config
  /-- `Seal`, with the nonce length the host declares. -/
  | seal (nlen : BitVec 4)
  /-- `Open`, with the nonce length the host declares. -/
  | openCmd (nlen : BitVec 4)
  /-- A word that spells no command; it is accepted and reports BadCommand (R84, R176). -/
  | bad (w : Word)
deriving DecidableEq, Repr

/-- The rows of the opcode table. The first four are command words, issued by a write to CMD (R24, R173);
the others are phase codes, performed by the engine and not issuable by the host (R86). -/
inductive Instr where
  | config
  | seal (nlen : BitVec 4)
  | openCmd (nlen : BitVec 4)
  | bad (w : Word)
  | check
  | macB0
  | macAd
  | ctrS0
  | textCtr
  | textMac
  | tag
  | scrub
  | finish
deriving DecidableEq, Repr

/-- The two code spaces (30_encoding.md): a command word, or a phase code. -/
inductive Code where
  | cmd (w : Word)
  | phase (c : BitVec 4)
deriving DecidableEq, Repr

end Sys2Proof
end

