-- ==== Sys2Proof/Machine/State.lean ====
section
/-! DEFINITION. The state of the machine as plain data, the reasons a step can stop, and the state after reset. -/

namespace Sys2Proof.Machine

/-- The data memory as a list of cells, in the canonical form of `Memory.wf` (R60). -/
abbrev Memory := List Host.Cell

/-- The state machine's register `phase` (R40), one name per code of R86. The codes 0xA to 0xF are never held
and have no name here. -/
inductive Phase where
  | idle
  | check
  | macB0
  | macAd
  | ctrS0
  | textCtr
  | textMac
  | tag
  | scrub
  | finish
deriving DecidableEq, Repr

/-- The outcomes of a command (R85). The codes 0x0A to 0xFF are never reported and have no name here. -/
inductive ErrCode where
  | ok
  | invalidNonceLength
  | invalidTagLength
  | invalidCipher
  | messageTooLong
  | ciphertextTooShort
  | authenticationFailed
  | notConfigured
  | badCommand
  | busError
deriving DecidableEq, Repr

/-- The registers of the host's window that hold a value the host writes (R22). Reserved bits hold nothing (R21). -/
structure HostRegs where
  /-- CTRL bit 0 (R23). -/
  ie : Bool
  /-- CFG bits 3..0 (R32). -/
  cfgNonceLen : BitVec 4
  /-- CFG bits 12..8 (R32). -/
  cfgTagLen : BitVec 5
  /-- NONCE0 to NONCE3 (R34). -/
  nonce0 : Word
  nonce1 : Word
  nonce2 : Word
  nonce3 : Word
  /-- AD_ADDR and AD_LEN (R35). -/
  adAddr : Dword
  adLen : Dword
  /-- IN_ADDR and IN_LEN (R36). -/
  inAddr : Dword
  inLen : Dword
  /-- OUT_ADDR (R37). -/
  outAddr : Dword
deriving DecidableEq, Repr

/-- The configuration (R43), mirrored in ACTIVE and STATUS.CONFIGURED. -/
structure Active where
  /-- `cfgValid`. -/
  valid : Bool
  /-- `activeN`. -/
  n : BitVec 4
  /-- `activeT`. -/
  t : BitVec 5
deriving DecidableEq, Repr

/-- The datapath registers (R41). The block counts and byte counts are naturals, "at least" 61 or 65 bits wide
(log 15). -/
structure Datapath where
  /-- The CBC-MAC chain value. -/
  y : Block
  /-- The current counter block. -/
  a : Block
  /-- The tag mask. -/
  s0 : Block
  /-- The plaintext block waiting to be absorbed. -/
  p : Block
  /-- The next associated-data block, from 0. -/
  j : Nat
  /-- The number of associated-data blocks. -/
  nAD : Nat
  /-- The current text block, from 1. -/
  i : Nat
  /-- The number of text blocks. -/
  nTxt : Nat
  /-- The payload length of the command in flight. -/
  m : Dword
  /-- The output bytes written so far. -/
  written : Nat
  /-- The output bytes zeroed so far. -/
  scrubPos : Nat
  /-- The accumulator of the tag comparison. -/
  diff : Byte
  /-- The outcome FINISH will report. -/
  pendErr : ErrCode
deriving DecidableEq, Repr

/-- The parameters of a command, copied at its acceptance (R42). -/
structure Latches where
  cmdWord : Word
  cfg : Word
  nonce : Block
  adAddr : Dword
  adLen : Dword
  inAddr : Dword
  inLen : Dword
  outAddr : Dword
deriving DecidableEq, Repr

/-- One access of the host (R16, R20, R61). `size` is the access's width in bytes; a register access is
legal with size 4 at a 4-aligned offset (R21). -/
inductive HostAccess where
  | regRead (off : BitVec 8) (size : Nat)
  | regWrite (off : BitVec 8) (size : Nat) (v : Word)
  | memRead (addr : Nat)
  | memWrite (addr : Nat) (v : Byte)
deriving DecidableEq, Repr

/-- Whose step is next (R16, R240; log 1). -/
inductive Turn where
  | engine
  | host (access : HostAccess)
  | reset
deriving DecidableEq, Repr

/-- The bus's answer to the host's last access (R21, log 13). -/
inductive HostResp where
  | none
  | written
  | word (v : Word)
  | byte (v : Byte)
  | error
deriving DecidableEq, Repr

/-- The registers of the window (R22). -/
inductive Reg where
  | ctrl
  | cmd
  | status
  | cfg
  | active
  | nonce0
  | nonce1
  | nonce2
  | nonce3
  | adAddrLo
  | adAddrHi
  | adLenLo
  | adLenHi
  | inAddrLo
  | inAddrHi
  | inLenLo
  | inLenHi
  | outAddrLo
  | outAddrHi
  | outLenLo
  | outLenHi
deriving DecidableEq, Repr

/-- The machine. The last four fields are the model's own (INVENTORY.md); all others are the spec's. -/
structure State where
  /-- What the host wrote into its registers. -/
  regs : HostRegs
  /-- STATUS.BUSY (R26). -/
  busy : Bool
  /-- STATUS.DONE (R27). -/
  done : Bool
  /-- STATUS.OVR (R28). -/
  ovr : Bool
  /-- STATUS.ERR (R31). -/
  err : ErrCode
  /-- OUT_LEN (R38). -/
  outLen : Dword
  /-- `phase` (R40). -/
  phase : Phase
  /-- The configuration (R43). -/
  active : Active
  /-- The datapath (R41). -/
  dp : Datapath
  /-- The latched parameters (R42). -/
  latch : Latches
  /-- The data memory (R60). -/
  mem : Memory
  /-- The bytes overwritten while BUSY = 1, newest first: what a racing access may still see (R73, log 7). -/
  past : List Host.Cell
  /-- How many draws the run has made (R73, log 7). -/
  draws : Nat
  /-- The turns still to come (R16, log 1). -/
  turns : List Turn
  /-- The answer to the host's last access (R21, log 13). -/
  resp : HostResp
deriving DecidableEq, Repr

/-- Why the machine stops. -/
inductive Fault where
  /-- Raised by TAG when the command in flight is neither SEAL nor OPEN. R177 takes no run there and no rule
  says what TAG would do. Safe: the model stops where the spec is silent (log 10). -/
  | tagWithoutTextCommand
deriving DecidableEq, Repr

/-- Why the model gives no next state. -/
inductive Refusal where
  /-- An instruction with no meaning yet. No arm of `exec` answers it. Safe. -/
  | notModelled (mnemonic : String)
  /-- Raised by CHECK when the output region overlaps an input region other than exactly in place: R69 says
  that the model refuses such a command. Safe (log 8). -/
  | overlappingBuffers
deriving DecidableEq, Repr

/-- The datapath with every register zero (R47, R181). -/
def zeroDatapath : Datapath :=
  { y := 0, a := 0, s0 := 0, p := 0, j := 0, nAD := 0, i := 0, nTxt := 0, m := 0, written := 0,
    scrubPos := 0, diff := 0, pendErr := .ok }

/-- The latches with every register zero (R47, R181). -/
def zeroLatches : Latches :=
  { cmdWord := 0, cfg := 0, nonce := 0, adAddr := 0, adLen := 0, inAddr := 0, inLen := 0, outAddr := 0 }

/-- No configuration (R43, R123). -/
def noConfig : Active := { valid := false, n := 0, t := 0 }

/-- The host's registers after reset (R47). -/
def zeroRegs : HostRegs :=
  { ie := false, cfgNonceLen := 0, cfgTagLen := 0, nonce0 := 0, nonce1 := 0, nonce2 := 0, nonce3 := 0,
    adAddr := 0, adLen := 0, inAddr := 0, inLen := 0, outAddr := 0 }

/-- The machine after reset (R47, R240). The data memory lists nothing (log 5), and no turn is scheduled
(log 1, log 2). -/
def State.reset : State :=
  { regs := zeroRegs, busy := false, done := false, ovr := false, err := .ok, outLen := 0, phase := .idle,
    active := noConfig, dp := zeroDatapath, latch := zeroLatches, mem := [], past := [], draws := 0,
    turns := [], resp := .none }

end Sys2Proof.Machine
end

