-- ==== Sys2Proof/Machine/Formats.lean ====
section
/-! DEFINITION. Blocks as bytes, and the CCM formats the engine builds: B0, counter blocks, the associated-data prefix, padding. -/

namespace Sys2Proof.Machine

/-- The block size in bytes (R8). -/
def blockSize : Nat := 16

/-- `ceil16(n)` (R12). -/
def ceil16 (n : Nat) : Nat := (n + 15) / 16

/-- Byte `X[k]` of a block: `X[0]` is the most significant (R11). -/
def byteOf (x : Block) (k : Nat) : Byte := x.extractLsb' (8 * (15 - k)) 8

/-- The 16 bytes of a block in order (R11). -/
def blockBytes (x : Block) : List Byte := (List.range 16).map (byteOf x)

/-- A byte sequence as a big-endian integer (R12, R150). -/
def bytesNat (l : List Byte) : Nat := l.foldl (fun n b => 256 * n + b.toNat) 0

/-- The block whose first bytes are `l`, the rest zero: `zpad16` of at most 16 bytes (R12). -/
def blockOfBytes (l : List Byte) : Block :=
  BitVec.ofNat 128 (bytesNat ((l ++ List.replicate 16 0).take 16))

/-- Bytewise exclusive-or (R12). -/
def xorBytes (x y : List Byte) : List Byte := List.zipWith (· ^^^ ·) x y

/-- `be_L(v)`: the `L`-byte big-endian encoding (R12). -/
def bigEndian (L v : Nat) : List Byte :=
  (List.range L).map (fun k => BitVec.ofNat 8 (v / 256 ^ (L - 1 - k)))

/-- The 16-byte blocks of `zpad16(bytes)` in order (R93, R94). -/
def blocksOf (bytes : List Byte) : List Block :=
  (List.range (ceil16 bytes.length)).map (fun b => blockOfBytes ((bytes.drop (16 * b)).take 16))

/-- The flag byte of B0: bit 7 zero, Adata, `(t-2)/2`, `L-1` (R88). The bit positions are the spec's general
knowledge (log 16). -/
def flagsB0 (hasAD : Bool) (t L : Nat) : Byte :=
  BitVec.ofNat 8 (64 * hasAD.toNat + 8 * ((t - 2) / 2) + (L - 1))

/-- The block B0 (R89); `L = 15 - len(nonce)`. -/
def fmtB0 (hasAD : Bool) (t : Nat) (nonce : List Byte) (m : Nat) : Block :=
  blockOfBytes (flagsB0 hasAD t (15 - nonce.length) :: nonce ++ bigEndian (15 - nonce.length) m)

/-- The flag byte of a counter block (R90). -/
def flagsA (L : Nat) : Byte := BitVec.ofNat 8 (L - 1)

/-- The counter block `A_i` (R91). -/
def ctrBlock (nonce : List Byte) (i : Nat) : Block :=
  blockOfBytes (flagsA (15 - nonce.length) :: nonce ++ bigEndian (15 - nonce.length) i)

/-- `inc`: the last `L` bytes plus 1, modulo 2^(8L); the flag byte and the nonce stay (R150). -/
def inc (L : Nat) (a : Block) : Block :=
  BitVec.ofNat 128
    (a.toNat / 2 ^ (8 * L) * 2 ^ (8 * L) + (a.toNat % 2 ^ (8 * L) + 1) % 2 ^ (8 * L))

/-- The associated-data length prefix (R92), by the class of `a` alone (R133); none for `a = 0` (R93). The byte
order of the length is the spec's general knowledge (log 16). -/
def adPrefix (a : Nat) : List Byte :=
  if a = 0 then []
  else if a < 2 ^ 16 - 2 ^ 8 then bigEndian 2 a
  else if a < 2 ^ 32 then 0xFF :: 0xFE :: bigEndian 4 a
  else 0xFF :: 0xFF :: bigEndian 8 a

/-- The number of associated-data blocks (R93): 0 for `a = 0`. -/
def adBlockCount (a : Nat) : Nat :=
  if a = 0 then 0 else ceil16 ((adPrefix a).length + a)

/-- The OR-accumulator of the tag comparison, over every byte pair (R172, R179). -/
def tagDiff (x y : List Byte) : Byte := (xorBytes x y).foldl (· ||| ·) 0

/-- `ctEq` (R172). -/
def ctEq (x y : List Byte) : Bool := tagDiff x y == 0

end Sys2Proof.Machine
end

