-- ==== Sys2Proof/Machine/Flags.lean ====
section
/-! DEFINITION. The codes of outcomes and phases, the words of STATUS, CFG and ACTIVE, and the interrupt output. -/

namespace Sys2Proof.Machine

/-- STATUS.ERR codes (R85). -/
def errCode : ErrCode → Byte
  | .ok => 0x00
  | .invalidNonceLength => 0x01
  | .invalidTagLength => 0x02
  | .invalidCipher => 0x03
  | .messageTooLong => 0x04
  | .ciphertextTooShort => 0x05
  | .authenticationFailed => 0x06
  | .notConfigured => 0x07
  | .badCommand => 0x08
  | .busError => 0x09

/-- STATUS.PHASE codes (R86). -/
def phaseCode : Phase → BitVec 4
  | .idle => 0x0
  | .check => 0x1
  | .macB0 => 0x2
  | .macAd => 0x3
  | .ctrS0 => 0x4
  | .textCtr => 0x5
  | .textMac => 0x6
  | .tag => 0x7
  | .scrub => 0x8
  | .finish => 0x9

/-- The micro-op of a phase (R40, R86); IDLE has none. -/
def microOp : Phase → Option Instr
  | .idle => none
  | .check => some .check
  | .macB0 => some .macB0
  | .macAd => some .macAd
  | .ctrS0 => some .ctrS0
  | .textCtr => some .textCtr
  | .textMac => some .textMac
  | .tag => some .tag
  | .scrub => some .scrub
  | .finish => some .finish

/-- The phase whose code this is (R86). -/
def phaseOfCode (c : BitVec 4) : Option Phase :=
  [Phase.idle, .check, .macB0, .macAd, .ctrS0, .textCtr, .textMac, .tag, .scrub, .finish].find?
    (fun p => phaseCode p == c)

/-- One bit of a register word. -/
def bitAt (b : Bool) (k : Nat) : Word := (BitVec.ofBool b).setWidth 32 <<< k

/-- The STATUS word (R25, R87). -/
def statusWord (s : State) : Word :=
  ((errCode s.err).setWidth 32 <<< 8) ||| ((phaseCode s.phase).setWidth 32 <<< 4)
    ||| bitAt s.active.valid 3 ||| bitAt s.ovr 2 ||| bitAt s.done 1 ||| bitAt s.busy 0

/-- The CTRL word (R23). -/
def ctrlWord (r : HostRegs) : Word := bitAt r.ie 0

/-- The CFG word (R32); reserved bits read 0 (R21). -/
def cfgWord (r : HostRegs) : Word :=
  (r.cfgTagLen.setWidth 32 <<< 8) ||| r.cfgNonceLen.setWidth 32

/-- The ACTIVE word (R33): N, T and `L = 15 - N`, all 0 while nothing is configured. -/
def activeWord (c : Active) : Word :=
  if c.valid then
    (BitVec.ofNat 32 (15 - c.n.toNat) <<< 16) ||| (c.t.setWidth 32 <<< 8) ||| c.n.setWidth 32
  else 0

/-- The nonce bytes `nb[0..15]` as a block: byte 0 is NONCE0 bits 31..24 (R34). -/
def nonceBlock (r : HostRegs) : Block := r.nonce0 ++ r.nonce1 ++ r.nonce2 ++ r.nonce3

/-- The interrupt output (R46, R216). -/
def irq (s : State) : Bool := s.regs.ie && s.done

end Sys2Proof.Machine
end

