-- ==== Sys2Proof/WellFormed.lean ====
section
/-! DEFINITION. Which terms of `Instr` stand for something the spec encodes. -/

namespace Sys2Proof

/-- The words that spell CONFIG, SEAL or OPEN (R84): `0x00000001`, and `2` or `3` with any NLEN and every
other bit 0. -/
def spellsCommand (w : Word) : Bool :=
  w == 0x00000001 || (w &&& 0xFFFFF0FF) == 0x00000002 || (w &&& 0xFFFFF0FF) == 0x00000003

/-- A BAD term carries a word that spells no command; NLEN is a plain 4-bit number and every value of it is
an encoding (R80, R84); the micro-ops have no operand. -/
def Instr.wellFormed : Instr → Bool
  | .config => true
  | .seal _ => true
  | .openCmd _ => true
  | .bad w => !spellsCommand w
  | .check => true
  | .macB0 => true
  | .macAd => true
  | .ctrS0 => true
  | .textCtr => true
  | .textMac => true
  | .tag => true
  | .scrub => true
  | .finish => true

end Sys2Proof
end

