-- ==== Sys2Proof/Decode.lean ====
section
/-! DEFINITION. The decoder of command words and phase codes, and the encoder. -/

namespace Sys2Proof

/-- Why a code is no instruction. -/
inductive DecodeError where
  /-- Phase code 0x0 is IDLE: no micro-op (R86). -/
  | idlePhase
  /-- Phase codes 0xA to 0xF are reserved and never held (R86). -/
  | reservedPhase (c : BitVec 4)
deriving DecidableEq, Repr

/-- Field OP, bits 3..0 (R80). -/
def fieldOp (w : Word) : BitVec 4 := w.extractLsb' 0 4

/-- Field RES0, bits 7..4 (R80). -/
def fieldRes0 (w : Word) : BitVec 4 := w.extractLsb' 4 4

/-- Field NLEN, bits 11..8 (R80, R82). -/
def fieldNlen (w : Word) : BitVec 4 := w.extractLsb' 8 4

/-- Field RES1, bits 31..12 (R80). -/
def fieldRes1 (w : Word) : BitVec 20 := w.extractLsb' 12 20

/-- The command decoder, total on every 32-bit word (R84). -/
def decodeCommand (w : Word) : Command :=
  if fieldRes1 w ≠ 0 ∨ fieldRes0 w ≠ 0 then .bad w
  else if fieldOp w = 0x1 then (if fieldNlen w = 0 then .config else .bad w)
  else if fieldOp w = 0x2 then .seal (fieldNlen w)
  else if fieldOp w = 0x3 then .openCmd (fieldNlen w)
  else .bad w

/-- A command as a row of the opcode table. -/
def commandInstr : Command → Instr
  | .config => .config
  | .seal n => .seal n
  | .openCmd n => .openCmd n
  | .bad w => .bad w

/-- The row a command word stands for. -/
def decodeWord (w : Word) : Instr := commandInstr (decodeCommand w)

/-- The micro-op a phase code stands for (R86). -/
def decodePhase (c : BitVec 4) : Except DecodeError Instr :=
  if c = 0x1 then .ok .check
  else if c = 0x2 then .ok .macB0
  else if c = 0x3 then .ok .macAd
  else if c = 0x4 then .ok .ctrS0
  else if c = 0x5 then .ok .textCtr
  else if c = 0x6 then .ok .textMac
  else if c = 0x7 then .ok .tag
  else if c = 0x8 then .ok .scrub
  else if c = 0x9 then .ok .finish
  else if c = 0x0 then .error .idlePhase
  else .error (.reservedPhase c)

/-- The decoder: total on both code spaces. -/
def decode : Code → Except DecodeError Instr
  | .cmd w => .ok (decodeWord w)
  | .phase c => decodePhase c

/-- A SEAL or OPEN word: OP, and NLEN in bits 11..8 (R84). -/
def textWord (op : Word) (nlen : BitVec 4) : Word := op ||| (nlen.setWidth 32 <<< 8)

/-- The code of an instruction (R84 for the command words, R86 for the phase codes). -/
def encode : Instr → Code
  | .config => .cmd 0x00000001
  | .seal n => .cmd (textWord 0x00000002 n)
  | .openCmd n => .cmd (textWord 0x00000003 n)
  | .bad w => .cmd w
  | .check => .phase 0x1
  | .macB0 => .phase 0x2
  | .macAd => .phase 0x3
  | .ctrS0 => .phase 0x4
  | .textCtr => .phase 0x5
  | .textMac => .phase 0x6
  | .tag => .phase 0x7
  | .scrub => .phase 0x8
  | .finish => .phase 0x9

/-- A table row's bits as a code. DESIGN CHOICE (log 3): a row of at most one byte is a phase code (the table
gives these rows 4 bits), every other row is a command word. -/
def tableCode (nbits w : Nat) : Option Code :=
  if 0 < nbits ∧ nbits ≤ 8 then (if w < 16 then some (.phase (BitVec.ofNat 4 w)) else none)
  else (if w < 2 ^ 32 then some (.cmd (BitVec.ofNat 32 w)) else none)

/-- The instruction that the decoder reads from a table row's bits. -/
def decodeTableWord (nbits w : Nat) : Option Instr :=
  match tableCode nbits w with
  | none => none
  | some c => (decode c).toOption

end Sys2Proof
end

