-- ==== Sys2Proof/Machine/Operands.lean ====
section
/-! DEFINITION. What a micro-op reads: the command in flight, its lengths, nonce and addresses, and the regions of R62. -/

namespace Sys2Proof.Machine

/-- The command in flight: `decode(cmdWord)`. -/
def commandOf (s : State) : Command := decodeCommand s.latch.cmdWord

/-- `N = activeN`. -/
def nonceLen (s : State) : Nat := s.active.n.toNat

/-- `L = 15 - N` (R8). -/
def lenField (s : State) : Nat := 15 - nonceLen s

/-- `t = activeT`. -/
def tagLen (s : State) : Nat := s.active.t.toNat

/-- The nonce of the command: the first N latched nonce bytes (R34). -/
def nonceOf (s : State) : List Byte := (blockBytes s.latch.nonce).take (nonceLen s)

/-- `a = lAdLen`. -/
def adLen (s : State) : Nat := s.latch.adLen.toNat

/-- `lInLen`. -/
def inLen (s : State) : Nat := s.latch.inLen.toNat

/-- `M`. -/
def payloadLen (s : State) : Nat := s.dp.m.toNat

/-- `lAdAddr`, `lInAddr` and `lOutAddr` as naturals: addresses do not wrap (R68). -/
def adAddr (s : State) : Nat := s.latch.adAddr.toNat

/-- `lInAddr`. -/
def inAddr (s : State) : Nat := s.latch.inAddr.toNat

/-- `lOutAddr`. -/
def outAddr (s : State) : Nat := s.latch.outAddr.toNat

/-- CONFIG's operand `n = lCfg[3:0]` (R120). -/
def cfgNonceLen (s : State) : BitVec 4 := s.latch.cfg.extractLsb' 0 4

/-- CONFIG's operand `tt = lCfg[12:8]` (R120). -/
def cfgTagLen (s : State) : BitVec 5 := s.latch.cfg.extractLsb' 8 5

/-- Where a byte of a block comes from: a constant, or one address of the data memory (R132). -/
inductive ByteSource where
  | const (b : Byte)
  | mem (addr : Nat)
deriving DecidableEq, Repr

/-- The sources of `MemRead(addr, n)` (R13). -/
def memSources (addr n : Nat) : List ByteSource := (List.range n).map (fun k => .mem (addr + k))

/-- `adByte(k)`: prefix, then associated data, then zero padding that memory is never read for (R132). -/
def adSource (s : State) (k : Nat) : ByteSource :=
  if k < (adPrefix (adLen s)).length then .const ((adPrefix (adLen s)).getD k 0)
  else if k < (adPrefix (adLen s)).length + adLen s then
    .mem (adAddr s + (k - (adPrefix (adLen s)).length))
  else .const 0

/-- The sources of associated-data block `j` (R136). -/
def adBlockSources (s : State) : List ByteSource :=
  (List.range 16).map (fun m => adSource s (16 * s.dp.j + m))

/-- The first byte of the current text block, `base = 16 * (i - 1)` (R154). -/
def textBase (s : State) : Nat := 16 * (s.dp.i - 1)

/-- The real bytes of the current text block, `n = min(16, M - base)` (R154). -/
def textCount (s : State) : Nat := min 16 (payloadLen s - textBase s)

/-- The bytes a SCRUB step zeroes, `n = min(16, written - scrubPos)` (R180). -/
def scrubCount (s : State) : Nat := min 16 (s.dp.written - s.dp.scrubPos)

/-- The expected tag: `maskTag(U) = Y[0:t] xor S0[0:t]` (R138, R152). -/
def maskedTag (s : State) : List Byte :=
  xorBytes ((blockBytes s.dp.y).take (tagLen s)) ((blockBytes s.dp.s0).take (tagLen s))

/-- The size of the output region (R62). -/
def outSize (s : State) : Nat :=
  match commandOf s with
  | .seal _ => payloadLen s + tagLen s
  | .openCmd _ => payloadLen s
  | .config => 0
  | .bad _ => 0

/-- The size of the tag-in region: only OPEN has one (R62). -/
def tagInSize (s : State) : Nat :=
  match commandOf s with
  | .openCmd _ => tagLen s
  | .seal _ => 0
  | .config => 0
  | .bad _ => 0

/-- Two regions share an address. -/
def regionsMeet (a n b m : Nat) : Bool := decide (max a b < min (a + n) (b + m))

/-- An address of the output region (R62). -/
def inOutRegion (s : State) (a : Nat) : Bool :=
  decide (outAddr s ≤ a ∧ a < outAddr s + outSize s)

/-- The overlaps that R69 does not define: with the AD region, with the text-in region other than exactly
(`lOutAddr = lInAddr`), with the tag-in region. -/
def overlapUndefined (s : State) : Bool :=
  regionsMeet (outAddr s) (outSize s) (adAddr s) (adLen s)
    || (outAddr s != inAddr s && regionsMeet (outAddr s) (outSize s) (inAddr s) (payloadLen s))
    || regionsMeet (outAddr s) (outSize s) (inAddr s + payloadLen s) (tagInSize s)

end Sys2Proof.Machine
end

