-- ==== Sys2Proof/Machine/Ops.lean ====
section
/-! DEFINITION. The shared operations: memory, ENC, command acceptance, BusError and completion. -/

namespace Sys2Proof.Machine

open Sys2Proof.Config (Platform Dir)

/-! ### Memory -/

/-- What an unlisted address reads as. DESIGN CHOICE (log 5): R47 leaves the data memory "whatever they were". -/
def unlistedByte : Byte := 0

/-- The byte at an address (R66). -/
def readByte : Memory → Nat → Byte
  | [], _ => unlistedByte
  | (k, v) :: m, a => if k = a then v else readByte m a

/-- Store a byte, keeping the canonical form. -/
def writeByte : Memory → Nat → Byte → Memory
  | [], a, b => if b = unlistedByte then [] else [(a, b)]
  | (k, v) :: m, a, b =>
    if k < a then (k, v) :: writeByte m a b
    else if k = a then (if b = unlistedByte then m else (a, b) :: m)
    else (if b = unlistedByte then (k, v) :: m else (a, b) :: (k, v) :: m)

/-- The canonical form: addresses strictly rising, and no entry equal to what an unlisted address reads as. -/
abbrev Memory.wf (m : Memory) : Prop :=
  m.Pairwise (fun c d => c.1 < d.1) ∧ ∀ c ∈ m, c.2 ≠ unlistedByte

/-- The bytes of a region in order. -/
def readRegion (m : Memory) (a n : Nat) : List Byte := (List.range n).map (fun k => readByte m (a + k))

/-- Store one byte; while BUSY = 1 the byte it replaces stays visible to a racing access (R73, log 7). -/
def storeByte (s : State) (a : Nat) (b : Byte) : State :=
  { s with
    mem := writeByte s.mem a b
    past := if s.busy then (a, readByte s.mem a) :: s.past else s.past }

/-- Store bytes at rising addresses (R13). -/
def storeBytes (s : State) (a : Nat) : List Byte → State
  | [] => s
  | b :: bs => storeBytes (storeByte s a b) (a + 1) bs

/-- Whether an access of the engine happens (R10): never at or above 2^64, otherwise as `ADMIT` says. -/
def admitted (cfg : Platform) (a : Nat) (d : Dir) : Bool := decide (a < 2 ^ 64) && cfg.admits a d

/-- How many accesses from `a` on happen before the first refused one, of at most `n`. -/
def admittedCount (cfg : Platform) (d : Dir) (a : Nat) : Nat → Nat
  | 0 => 0
  | n + 1 => if admitted cfg a d then admittedCount cfg d (a + 1) n + 1 else 0

/-- The older bytes of an address that a racing access may still see (R73). -/
def olderBytes (past : List Host.Cell) (a : Nat) : List Byte :=
  (past.filter (fun c => c.1 == a)).map (·.2)

/-- The byte an access sees, and the draw counter after it: the current byte where nothing raced, else a draw
among the current byte and the older ones (R73: any of them, byte by byte; log 7). -/
def drawByte (cfg : Platform) (cur : Byte) (older : List Byte) (d : Nat) : Byte × Nat :=
  match older with
  | [] => (cur, d)
  | o :: os => ((cur :: o :: os).getD (cfg.raceDraw d % (os.length + 2)) cur, d + 1)

/-- Whether a source's access happens. -/
def sourceAdmitted (cfg : Platform) : ByteSource → Bool
  | .const _ => true
  | .mem a => admitted cfg a .read

/-- The byte of a source where no access raced: the constant, or the byte at the address. -/
def sourceByte (m : Memory) : ByteSource → Byte
  | .const b => b
  | .mem a => readByte m a

/-- The bytes of a list of sources, read in order from draw counter `d` on. -/
def drawSources (cfg : Platform) (s : State) (d : Nat) : List ByteSource → List Byte × Nat
  | [] => ([], d)
  | .const b :: xs => (b :: (drawSources cfg s d xs).1, (drawSources cfg s d xs).2)
  | .mem a :: xs =>
    let b := drawByte cfg (readByte s.mem a) (olderBytes s.past a) d
    (b.1 :: (drawSources cfg s b.2 xs).1, (drawSources cfg s b.2 xs).2)

/-- Read a list of sources: the bytes and the draw counter after them, or `none` when an access is refused
(R13, R213). -/
def readSources (cfg : Platform) (s : State) (xs : List ByteSource) : Option (List Byte × Nat) :=
  if xs.all (sourceAdmitted cfg) then some (drawSources cfg s s.draws xs) else none

/-- `MemRead(addr, n)` (R13). -/
def memRead (cfg : Platform) (s : State) (addr n : Nat) : Option (List Byte × Nat) :=
  readSources cfg s (memSources addr n)

/-! ### The block cipher -/

/-- `ENC` (R110). -/
def enc (cfg : Platform) (x : Block) : Block := cfg.cipher.encrypt x

/-- `cipherOk` (R112). -/
def cipherOk (cfg : Platform) : Bool := cfg.cipher.blockBytes == 16 && cfg.cipher.keyOk

/-! ### Command acceptance -/

/-- A write of word `w` to CMD (R173, R24): dropped with OVR set while BUSY = 1, else accepted with every
parameter latched. -/
def acceptCommand (w : Word) (s : State) : State :=
  if s.busy then { s with ovr := true }
  else
    { s with
      latch :=
        { cmdWord := w, cfg := cfgWord s.regs, nonce := nonceBlock s.regs, adAddr := s.regs.adAddr,
          adLen := s.regs.adLen, inAddr := s.regs.inAddr, inLen := s.regs.inLen,
          outAddr := s.regs.outAddr }
      busy := true
      done := false
      err := .ok
      phase := .check }

/-! ### Exceptions: entry, delivery, return -/

/-- A failed validation: the outcome is pending and the command goes to its completion (R174, R175, R176). -/
def failCheck (e : ErrCode) (s : State) : State :=
  { s with dp := { s.dp with pendErr := e }, phase := .finish }

/-- Where a command with an outcome to report goes: it scrubs what it wrote, if anything (R179, R213). -/
def afterFailure (s : State) : Phase := if 0 < s.dp.written then .scrub else .finish

/-- BusError's entry (R213). -/
def raiseBusError (s : State) : State :=
  { s with dp := { s.dp with pendErr := .busError, scrubPos := 0 }, phase := afterFailure s }

/-- `outLen` of FINISH (R181): SEAL `(M + t) mod 2^64`, OPEN `M`, CONFIG 0. A BAD word never ends with OK
(R176); 0 stands there (log 11). -/
def outLenOf (s : State) : Dword :=
  match commandOf s with
  | .seal _ => BitVec.ofNat 64 (payloadLen s + tagLen s)
  | .openCmd _ => s.dp.m
  | .config => 0
  | .bad _ => 0

/-- The delivery of an outcome (R181, R214): the whole completion of a command. -/
def deliverOutcome (s : State) : State :=
  { s with
    err := s.dp.pendErr
    outLen := if s.dp.pendErr = .ok then outLenOf s else 0
    dp := zeroDatapath
    latch := zeroLatches
    busy := false
    done := true
    phase := .idle
    past := [] }

/-- The host's return from a completion (R217, R25): write 1 to clear DONE (bit 1) and OVR (bit 2). -/
def acknowledge (v : Word) (s : State) : State :=
  { s with done := s.done && !v.getLsbD 1, ovr := s.ovr && !v.getLsbD 2 }

/-- The platform's reset (R240, R241): every piece of engine state as R47 says; the data memory stays, no SCRUB
runs. The schedule, the draw counter and the host's last answer are not the engine's and stay (log 17). -/
def platformReset (s : State) : State :=
  { State.reset with mem := s.mem, turns := s.turns, draws := s.draws, resp := s.resp }

end Sys2Proof.Machine
end

