-- ==== Sys2Proof/Machine/CbcMac.lean ====
section
/-! DEFINITION. The micro-ops of the CBC_MAC_core: MAC_B0, MAC_AD, TEXT_MAC. -/

namespace Sys2Proof.Machine

open Sys2Proof.Config (Platform)

/-- The block B0 of the command in flight (R131). -/
def blockB0 (s : State) : Block :=
  fmtB0 (decide (0 < adLen s)) (tagLen s) (nonceOf s) (payloadLen s)

/-- MAC_B0 on a platform (R131). -/
def macB0On (cfg : Platform) (s : State) : State :=
  if 0 < adLen s then
    { s with
      dp := { s.dp with y := enc cfg (blockB0 s), nAD := adBlockCount (adLen s), j := 0 }
      phase := .macAd }
  else
    { s with dp := { s.dp with y := enc cfg (blockB0 s), nAD := 0 }, phase := .ctrS0 }

/-- MAC_B0. -/
def execMacB0 (s : State) : Host.Outcome State Fault Refusal := .next (macB0On Config.platform s)

/-- MAC_AD on a platform (R136): one block of the associated-data stream. -/
def macAdOn (cfg : Platform) (s : State) : State :=
  match readSources cfg s (adBlockSources s) with
  | none => raiseBusError s
  | some (x, d) =>
    { s with
      dp := { s.dp with y := enc cfg (s.dp.y ^^^ blockOfBytes x), j := s.dp.j + 1 }
      phase := if s.dp.j + 1 = s.dp.nAD then .ctrS0 else .macAd
      draws := d }

/-- MAC_AD. -/
def execMacAd (s : State) : Host.Outcome State Fault Refusal := .next (macAdOn Config.platform s)

/-- TEXT_MAC on a platform (R137): the waiting plaintext block. -/
def textMacOn (cfg : Platform) (s : State) : State :=
  if s.dp.i = s.dp.nTxt then
    { s with dp := { s.dp with y := enc cfg (s.dp.y ^^^ s.dp.p), p := 0 }, phase := .tag }
  else
    { s with
      dp := { s.dp with y := enc cfg (s.dp.y ^^^ s.dp.p), p := 0, i := s.dp.i + 1 }
      phase := .textCtr }

/-- TEXT_MAC. -/
def execTextMac (s : State) : Host.Outcome State Fault Refusal := .next (textMacOn Config.platform s)

end Sys2Proof.Machine
end

