-- ==== Sys2Proof/Machine/Commands.lean ====
section
/-! DEFINITION. The command rows: the host's write of their word to CMD. -/

namespace Sys2Proof.Machine

/-- The command word of a CONFIG, SEAL or OPEN, or the BAD word itself. -/
def commandWord (i : Instr) : Word :=
  match encode i with
  | .cmd w => w
  | .phase _ => 0

/-- CONFIG (R120, R173): its CHECK step validates and configures (`checkConfig`). -/
def execConfig (s : State) : Host.Outcome State Fault Refusal :=
  .next (acceptCommand (commandWord .config) s)

/-- SEAL (R170, R173): the micro-ops of R177 carry it out. -/
def execSeal (nlen : BitVec 4) (s : State) : Host.Outcome State Fault Refusal :=
  .next (acceptCommand (commandWord (.seal nlen)) s)

/-- OPEN (R171, R173): the micro-ops of R177 carry it out. -/
def execOpen (nlen : BitVec 4) (s : State) : Host.Outcome State Fault Refusal :=
  .next (acceptCommand (commandWord (.openCmd nlen)) s)

/-- BAD (R84, R173): accepted like any command; its CHECK step reports BadCommand (R176). -/
def execBad (w : Word) (s : State) : Host.Outcome State Fault Refusal :=
  .next (acceptCommand (commandWord (.bad w)) s)

end Sys2Proof.Machine
end

