-- ==== Sys2Proof/Machine/Control.lean ====
section
/-! DEFINITION. The micro-ops of the CCM_engine control: CHECK, TAG, SCRUB, FINISH. -/

namespace Sys2Proof.Machine

open Sys2Proof.Config (Platform Dir)

/-- The legal tag lengths (R8, R121). -/
def legalTagLens : List Nat := [4, 6, 8, 10, 12, 14, 16]

/-- CONFIG's validation, first failure first (R121, R215). -/
def configOutcome (cfg : Platform) (s : State) : ErrCode :=
  if ¬(7 ≤ (cfgNonceLen s).toNat ∧ (cfgNonceLen s).toNat ≤ 13) then .invalidNonceLength
  else if (cfgTagLen s).toNat ∉ legalTagLens then .invalidTagLength
  else if cipherOk cfg = false then .invalidCipher
  else .ok

/-- CHECK of CONFIG (R120): the configuration is set (R122) or discarded (R123). -/
def checkConfig (cfg : Platform) (s : State) : State :=
  { s with
    active :=
      if configOutcome cfg s = .ok then { valid := true, n := cfgNonceLen s, t := cfgTagLen s }
      else noConfig
    dp := { s.dp with pendErr := configOutcome cfg s }
    phase := .finish }

/-- The per-call validation of SEAL and OPEN, first failure first: an outcome, or the payload length (R174, R215). -/
def validateText (isOpen : Bool) (nlen : BitVec 4) (s : State) : Except ErrCode Nat :=
  if s.active.valid = false then .error .notConfigured
  else if nlen ≠ s.active.n then .error .invalidNonceLength
  else if isOpen = true ∧ inLen s < tagLen s then .error .ciphertextTooShort
  else if 2 ^ (8 * lenField s) ≤ (if isOpen then inLen s - tagLen s else inLen s) then
    .error .messageTooLong
  else .ok (if isOpen then inLen s - tagLen s else inLen s)

/-- The state after a validation that passed with payload length `mc` (R174). -/
def beginText (mc : Nat) (s : State) : State :=
  { s with
    dp := { s.dp with m := BitVec.ofNat 64 mc, nTxt := ceil16 mc, written := 0 }
    phase := .macB0 }

/-- CHECK of SEAL and OPEN (R174). A command that passes with an overlap of R69 is refused here, before any
memory access (log 8). -/
def checkText (isOpen : Bool) (nlen : BitVec 4) (s : State) : Host.Outcome State Fault Refusal :=
  match validateText isOpen nlen s with
  | .error e => .next (failCheck e s)
  | .ok mc =>
    if overlapUndefined (beginText mc s) then .refused .overlappingBuffers
    else .next (beginText mc s)

/-- CHECK on a platform (R120, R174, R176). -/
def checkOn (cfg : Platform) (s : State) : Host.Outcome State Fault Refusal :=
  match commandOf s with
  | .config => .next (checkConfig cfg s)
  | .seal nlen => checkText false nlen s
  | .openCmd nlen => checkText true nlen s
  | .bad _ => .next (failCheck .badCommand s)

/-- CHECK. -/
def execCheck (s : State) : Host.Outcome State Fault Refusal := checkOn Config.platform s

/-- TAG of SEAL (R178): the masked tag right after the ciphertext. A refused write of tag byte `k` leaves the
bytes before it written and counted. -/
def tagSeal (cfg : Platform) (s : State) : State :=
  let k := admittedCount cfg .write (outAddr s + payloadLen s) (tagLen s)
  let s' := storeBytes s (outAddr s + payloadLen s) ((maskedTag s).take k)
  if k = tagLen s then
    { s' with
      dp := { s.dp with written := payloadLen s + tagLen s, pendErr := .ok }
      phase := .finish }
  else raiseBusError { s' with dp := { s.dp with written := payloadLen s + k } }

/-- TAG of OPEN (R179): the comparison of all `t` bytes. The expected tag is stored nowhere. -/
def tagOpen (cfg : Platform) (s : State) : State :=
  match memRead cfg s (inAddr s + payloadLen s) (tagLen s) with
  | none => raiseBusError s
  | some (received, d) =>
    let diff := tagDiff (maskedTag s) received
    if diff = 0 then
      { s with dp := { s.dp with diff := diff, pendErr := .ok }, phase := .finish, draws := d }
    else
      { s with
        dp := { s.dp with diff := diff, pendErr := .authenticationFailed, scrubPos := 0 }
        phase := afterFailure s
        draws := d }

/-- TAG on a platform (R178, R179). -/
def tagOn (cfg : Platform) (s : State) : Host.Outcome State Fault Refusal :=
  match commandOf s with
  | .seal _ => .next (tagSeal cfg s)
  | .openCmd _ => .next (tagOpen cfg s)
  | .config => .fault .tagWithoutTextCommand
  | .bad _ => .fault .tagWithoutTextCommand

/-- TAG. -/
def execTag (s : State) : Host.Outcome State Fault Refusal := tagOn Config.platform s

/-- SCRUB (R180): "its writes are always admitted", so no access of it is refused (log 9). -/
def scrubStep (s : State) : State :=
  let s' := storeBytes s (outAddr s + s.dp.scrubPos) (List.replicate (scrubCount s) 0)
  { s' with
    dp := { s.dp with scrubPos := s.dp.scrubPos + scrubCount s }
    phase := if s.dp.scrubPos + scrubCount s = s.dp.written then .finish else .scrub }

/-- SCRUB. -/
def execScrub (s : State) : Host.Outcome State Fault Refusal := .next (scrubStep s)

/-- FINISH (R181): the delivery of the outcome (R214). -/
def execFinish (s : State) : Host.Outcome State Fault Refusal := .next (deliverOutcome s)

end Sys2Proof.Machine
end

