-- ==== Sys2Proof/Machine/Ctr.lean ====
section
/-! DEFINITION. The micro-ops of the CTR_mode_counter_manager: CTR_S0, TEXT_CTR. -/

namespace Sys2Proof.Machine

open Sys2Proof.Config (Platform)

/-- CTR_S0 on a platform (R153): the tag mask and the first counter block. -/
def ctrS0On (cfg : Platform) (s : State) : State :=
  if 0 < s.dp.nTxt then
    { s with
      dp :=
        { s.dp with
          s0 := enc cfg (ctrBlock (nonceOf s) 0)
          a := inc (lenField s) (ctrBlock (nonceOf s) 0)
          i := 1 }
      phase := .textCtr }
  else
    { s with
      dp :=
        { s.dp with
          s0 := enc cfg (ctrBlock (nonceOf s) 0)
          a := inc (lenField s) (ctrBlock (nonceOf s) 0) }
      phase := .tag }

/-- CTR_S0. -/
def execCtrS0 (s : State) : Host.Outcome State Fault Refusal := .next (ctrS0On Config.platform s)

/-- The bytes TEXT_CTR writes for the input bytes `data`: `R = D xor S[0:n]` (R154). -/
def textOutput (cfg : Platform) (s : State) (data : List Byte) : List Byte :=
  xorBytes data ((blockBytes (enc cfg s.dp.a)).take (textCount s))

/-- The plaintext block TEXT_CTR keeps for TEXT_MAC: the input bytes for SEAL, else the recovered ones (R154). -/
def textPlain (cfg : Platform) (s : State) (data : List Byte) : Block :=
  match commandOf s with
  | .seal _ => blockOfBytes data
  | .openCmd _ => blockOfBytes (textOutput cfg s data)
  | .config => blockOfBytes (textOutput cfg s data)
  | .bad _ => blockOfBytes (textOutput cfg s data)

/-- TEXT_CTR on a platform (R154): every read comes before the first write. A refused read changes nothing but
R213's fields; a refused write of byte `k` leaves the `k` bytes before it written and counted. -/
def textCtrOn (cfg : Platform) (s : State) : State :=
  match memRead cfg s (inAddr s + textBase s) (textCount s) with
  | none => raiseBusError s
  | some (data, d) =>
    let k := admittedCount cfg .write (outAddr s + textBase s) (textCount s)
    let s' := { storeBytes s (outAddr s + textBase s) ((textOutput cfg s data).take k) with draws := d }
    if k = textCount s then
      { s' with
        dp :=
          { s.dp with
            written := textBase s + textCount s
            p := textPlain cfg s data
            a := inc (lenField s) s.dp.a }
        phase := .textMac }
    else raiseBusError { s' with dp := { s.dp with written := textBase s + k } }

/-- TEXT_CTR. -/
def execTextCtr (s : State) : Host.Outcome State Fault Refusal := .next (textCtrOn Config.platform s)

end Sys2Proof.Machine
end

