-- ==== Sys2Proof/Machine/Dispatch.lean ====
section
/-! DEFINITION. One arm per row of the opcode table. -/

namespace Sys2Proof.Machine

/-- The meaning of each instruction. -/
def exec (i : Instr) (s : State) : Host.Outcome State Fault Refusal :=
  match i with
  | .config => Sys2Proof.Machine.execConfig s
  | .seal nlen => Sys2Proof.Machine.execSeal nlen s
  | .openCmd nlen => Sys2Proof.Machine.execOpen nlen s
  | .bad w => Sys2Proof.Machine.execBad w s
  | .check => Sys2Proof.Machine.execCheck s
  | .macB0 => Sys2Proof.Machine.execMacB0 s
  | .macAd => Sys2Proof.Machine.execMacAd s
  | .ctrS0 => Sys2Proof.Machine.execCtrS0 s
  | .textCtr => Sys2Proof.Machine.execTextCtr s
  | .textMac => Sys2Proof.Machine.execTextMac s
  | .tag => Sys2Proof.Machine.execTag s
  | .scrub => Sys2Proof.Machine.execScrub s
  | .finish => Sys2Proof.Machine.execFinish s

end Sys2Proof.Machine
end

