-- ==== Sys2Proof/Machine/HostPort.lean ====
section
/-! DEFINITION. The host's side: the register window, the host's own data-memory accesses, the bus's answers. -/

namespace Sys2Proof.Machine

open Sys2Proof.Config (Platform)

/-- The registers of the window in the order of R22. -/
def allRegs : List Reg :=
  [.ctrl, .cmd, .status, .cfg, .active, .nonce0, .nonce1, .nonce2, .nonce3, .adAddrLo, .adAddrHi, .adLenLo,
    .adLenHi, .inAddrLo, .inAddrHi, .inLenLo, .inLenHi, .outAddrLo, .outAddrHi, .outLenLo, .outLenHi]

/-- The offset of a register in the window (R22). -/
def regOffset : Reg → BitVec 8
  | .ctrl => 0x00
  | .cmd => 0x04
  | .status => 0x08
  | .cfg => 0x0C
  | .active => 0x10
  | .nonce0 => 0x20
  | .nonce1 => 0x24
  | .nonce2 => 0x28
  | .nonce3 => 0x2C
  | .adAddrLo => 0x30
  | .adAddrHi => 0x34
  | .adLenLo => 0x38
  | .adLenHi => 0x3C
  | .inAddrLo => 0x40
  | .inAddrHi => 0x44
  | .inLenLo => 0x48
  | .inLenHi => 0x4C
  | .outAddrLo => 0x50
  | .outAddrHi => 0x54
  | .outLenLo => 0x58
  | .outLenHi => 0x5C

/-- The register at an offset; the reserved offsets hold none (R22, R39). -/
def regAt (off : BitVec 8) : Option Reg := allRegs.find? (fun r => regOffset r == off)

/-- The host's bus address of an offset: the window's base is `REG_BASE`, 256-byte aligned (R20, P3; log 4). -/
def regBusAddr (cfg : Platform) (off : BitVec 8) : Nat := 256 * cfg.regPage + off.toNat

/-- The low half of a 64-bit register (R22). -/
def lowHalf (x : Dword) : Word := x.extractLsb' 0 32

/-- The high half of a 64-bit register (R22). -/
def highHalf (x : Dword) : Word := x.extractLsb' 32 32

/-- A 64-bit register with its low half replaced. -/
def withLow (x : Dword) (v : Word) : Dword := highHalf x ++ v

/-- A 64-bit register with its high half replaced. -/
def withHigh (x : Dword) (v : Word) : Dword := v ++ lowHalf x

/-- The word a register reads as (R22 to R38); CMD reads 0 (R24). -/
def readReg (s : State) : Reg → Word
  | .ctrl => ctrlWord s.regs
  | .cmd => 0
  | .status => statusWord s
  | .cfg => cfgWord s.regs
  | .active => activeWord s.active
  | .nonce0 => s.regs.nonce0
  | .nonce1 => s.regs.nonce1
  | .nonce2 => s.regs.nonce2
  | .nonce3 => s.regs.nonce3
  | .adAddrLo => lowHalf s.regs.adAddr
  | .adAddrHi => highHalf s.regs.adAddr
  | .adLenLo => lowHalf s.regs.adLen
  | .adLenHi => highHalf s.regs.adLen
  | .inAddrLo => lowHalf s.regs.inAddr
  | .inAddrHi => highHalf s.regs.inAddr
  | .inLenLo => lowHalf s.regs.inLen
  | .inLenHi => highHalf s.regs.inLen
  | .outAddrLo => lowHalf s.regs.outAddr
  | .outAddrHi => highHalf s.regs.outAddr
  | .outLenLo => lowHalf s.outLen
  | .outLenHi => highHalf s.outLen

/-- A write of a register other than CMD (R21 to R38): read-only registers, read-only fields and reserved bits
take nothing; STATUS bits 1 and 2 are write-1-to-clear (R25). A write to CMD is a command and is not done here:
`hostTurn`. -/
def writeReg (s : State) (v : Word) : Reg → State
  | .ctrl => { s with regs := { s.regs with ie := v.getLsbD 0 } }
  | .cmd => s
  | .status => acknowledge v s
  | .cfg =>
    { s with
      regs := { s.regs with cfgNonceLen := v.extractLsb' 0 4, cfgTagLen := v.extractLsb' 8 5 } }
  | .active => s
  | .nonce0 => { s with regs := { s.regs with nonce0 := v } }
  | .nonce1 => { s with regs := { s.regs with nonce1 := v } }
  | .nonce2 => { s with regs := { s.regs with nonce2 := v } }
  | .nonce3 => { s with regs := { s.regs with nonce3 := v } }
  | .adAddrLo => { s with regs := { s.regs with adAddr := withLow s.regs.adAddr v } }
  | .adAddrHi => { s with regs := { s.regs with adAddr := withHigh s.regs.adAddr v } }
  | .adLenLo => { s with regs := { s.regs with adLen := withLow s.regs.adLen v } }
  | .adLenHi => { s with regs := { s.regs with adLen := withHigh s.regs.adLen v } }
  | .inAddrLo => { s with regs := { s.regs with inAddr := withLow s.regs.inAddr v } }
  | .inAddrHi => { s with regs := { s.regs with inAddr := withHigh s.regs.inAddr v } }
  | .inLenLo => { s with regs := { s.regs with inLen := withLow s.regs.inLen v } }
  | .inLenHi => { s with regs := { s.regs with inLen := withHigh s.regs.inLen v } }
  | .outAddrLo => { s with regs := { s.regs with outAddr := withLow s.regs.outAddr v } }
  | .outAddrHi => { s with regs := { s.regs with outAddr := withHigh s.regs.outAddr v } }
  | .outLenLo => s
  | .outLenHi => s

/-- Whether a register access is a 32-bit access at a 4-aligned offset (R20, R21). -/
def legalAccess (off : BitVec 8) (size : Nat) : Bool := size == 4 && off.extractLsb' 0 2 == 0

/-- A host read of a register (R21): an error answer for an illegal access, 0 for an unlisted offset. -/
def hostRegRead (off : BitVec 8) (size : Nat) (s : State) : State :=
  if legalAccess off size then
    { s with resp := .word (match regAt off with | some r => readReg s r | none => 0) }
  else { s with resp := .error }

/-- A host write of a register other than CMD (R21): an error answer for an illegal access, no effect at an
unlisted offset. -/
def hostRegWrite (off : BitVec 8) (size : Nat) (v : Word) (s : State) : State :=
  if legalAccess off size then
    match regAt off with
    | some r => { writeReg s v r with resp := .written }
    | none => { s with resp := .written }
  else { s with resp := .error }

/-- The bytes a host read may see beside the current one: only in the output region while BUSY = 1 (R73, log 7). -/
def hostOlderBytes (s : State) (a : Nat) : List Byte :=
  if s.busy && inOutRegion s a then olderBytes s.past a else []

/-- A host read of a data-memory byte (R61, R66, R73). ADMIT does not govern the host; an address of 2^64 or above
does not exist and answers an error (log 6). -/
def hostMemRead (cfg : Platform) (a : Nat) (s : State) : State :=
  if a < 2 ^ 64 then
    let b := drawByte cfg (readByte s.mem a) (hostOlderBytes s a) s.draws
    { s with resp := .byte b.1, draws := b.2 }
  else { s with resp := .error }

/-- A host write of a data-memory byte (R61, R73; log 6). -/
def hostMemWrite (a : Nat) (v : Byte) (s : State) : State :=
  if a < 2 ^ 64 then { storeByte s a v with resp := .written } else { s with resp := .error }

end Sys2Proof.Machine
end

