-- ==== Sys2Proof/Machine/Fetch.lean ====
section
/-! DEFINITION. What the next turn amounts to: an instruction to run, or a host step or reset that is done at once. -/

namespace Sys2Proof.Machine

open Sys2Proof.Config (Platform)

/-- The next turn: run `i` in the state `s`, or be in the state `s`. -/
inductive Fetched where
  | run (i : Instr) (s : State)
  | settled (s : State)
deriving DecidableEq, Repr

/-- The engine's turn: the micro-op that `phase` names while BUSY = 1, no step otherwise (R16, R40). -/
def engineTurn (s : State) : Fetched :=
  if s.busy then
    match microOp s.phase with
    | some i => .run i s
    | none => .settled s
  else .settled s

/-- A host access (R16, R21). A legal write to CMD issues the command its word spells (R24, R84); the bus answers
it like any write. -/
def hostTurn (cfg : Platform) (access : HostAccess) (s : State) : Fetched :=
  match access with
  | .regRead off size => .settled (hostRegRead off size s)
  | .regWrite off size v =>
    if legalAccess off size = true ∧ regAt off = some .cmd then
      .run (decodeWord v) { s with resp := .written }
    else .settled (hostRegWrite off size v s)
  | .memRead a => .settled (hostMemRead cfg a s)
  | .memWrite a v => .settled (hostMemWrite a v s)

/-- The turn at the head of the schedule; with none scheduled the engine has the turn (R16, R246; log 1). -/
def fetchOn (cfg : Platform) (s : State) : Fetched :=
  match s.turns with
  | [] => engineTurn s
  | .engine :: ts => engineTurn { s with turns := ts }
  | .host access :: ts => hostTurn cfg access { s with turns := ts }
  | .reset :: ts => .settled (platformReset { s with turns := ts })

/-- The next turn of the run. -/
def fetch (s : State) : Fetched := fetchOn Config.platform s

/-- A state whose next turn is the host's write of word `w` to CMD. -/
def placeCommand (w : Word) (s : State) : State :=
  { s with turns := .host (.regWrite (regOffset .cmd) 4 w) :: s.turns }

/-- A state whose next turn is the engine's, in phase `p`. A TAG reached with neither a SEAL nor an OPEN in flight
has no rule (R178, R179), so a SEAL word is put in flight with it (log 2). -/
def placeMicroOp (p : Phase) (s : State) : State :=
  { s with
    turns := .engine :: s.turns
    busy := true
    phase := p
    latch :=
      { s.latch with
        cmdWord :=
          if p = .tag then
            match commandOf s with
            | .seal _ => s.latch.cmdWord
            | .openCmd _ => s.latch.cmdWord
            | .config => textWord 0x00000002 0
            | .bad _ => textWord 0x00000002 0
          else s.latch.cmdWord } }

/-- A code placed where the next step runs it. -/
def placeCode (c : Code) (s : State) : State :=
  match c with
  | .cmd w => placeCommand w s
  | .phase c =>
    match phaseOfCode c with
    | some p => placeMicroOp p s
    | none => s

end Sys2Proof.Machine
end

