-- ==== Sys2Proof/Machine/Step.lean ====
section
/-! DEFINITION. The step of the machine: the next turn of the schedule. -/

namespace Sys2Proof.Machine

/-- One step: one turn of one agent (R16, R40). -/
def step (s : State) : Host.Outcome State Fault Refusal :=
  match fetch s with
  | .run i s' => exec i s'
  | .settled s' => .next s'

/-- `s` with a table row's bits placed where the next step runs them (log 2, log 3). -/
def State.withFetchWord (s : State) (nbits w : Nat) : State :=
  match tableCode nbits w with
  | some c => placeCode c s
  | none => s

end Sys2Proof.Machine
end

