-- ==== Sys2Proof/Machine/Functional.lean ====
section
/-! DEFINITION. What a command computes, as functions of byte sequences: macU, ctrXor, SEAL and OPEN (R130, R151, R152, R170, R171). -/

namespace Sys2Proof.Machine

open Sys2Proof.Config (Platform)

/-- The CBC-MAC chain over blocks from the chain value `y` (R130). -/
def macChain (cfg : Platform) (y : Block) (blocks : List Block) : Block :=
  blocks.foldl (fun y x => enc cfg (y ^^^ x)) y

/-- The associated-data blocks (R93): none for empty associated data. -/
def adStreamBlocks (ad : List Byte) : List Block :=
  if ad.length = 0 then [] else blocksOf (adPrefix ad.length ++ ad)

/-- `Y0 = ENC(B0)` (R130). -/
def macStart (cfg : Platform) (t : Nat) (nonce ad plain : List Byte) : Block :=
  enc cfg (fmtB0 (decide (0 < ad.length)) t nonce plain.length)

/-- The final chain value of a message: B0, then the associated data, then the plaintext (R130). -/
def macY (cfg : Platform) (t : Nat) (nonce ad plain : List Byte) : Block :=
  macChain cfg (macStart cfg t nonce ad plain) (adStreamBlocks ad ++ blocksOf plain)

/-- The raw authentication value (R130). -/
def macU (cfg : Platform) (t : Nat) (nonce ad plain : List Byte) : List Byte :=
  (blockBytes (macY cfg t nonce ad plain)).take t

/-- Block `b`, from 0, of the CTR pass (R151). -/
def ctrXorBlock (cfg : Platform) (nonce data : List Byte) (b : Nat) : List Byte :=
  xorBytes ((data.drop (16 * b)).take 16) (blockBytes (enc cfg (ctrBlock nonce (b + 1))))

/-- `ctrXor` (R151). -/
def ctrXor (cfg : Platform) (nonce data : List Byte) : List Byte :=
  (List.range (ceil16 data.length)).flatMap (ctrXorBlock cfg nonce data)

/-- `S0` (R152). -/
def tagMask (cfg : Platform) (nonce : List Byte) : Block := enc cfg (ctrBlock nonce 0)

/-- The tag of a message: `U xor S0[0:t]` (R152, R170). -/
def messageTag (cfg : Platform) (t : Nat) (nonce ad plain : List Byte) : List Byte :=
  xorBytes (macU cfg t nonce ad plain) ((blockBytes (tagMask cfg nonce)).take t)

/-- What SEAL writes: `C || T` (R95, R170). -/
def sealOutput (cfg : Platform) (t : Nat) (nonce ad plain : List Byte) : List Byte :=
  ctrXor cfg nonce plain ++ messageTag cfg t nonce ad plain

/-- What OPEN of ciphertext `ct` and tag `received` answers: the plaintext, or AuthenticationFailed (R171). -/
def openOutput (cfg : Platform) (t : Nat) (nonce ad ct received : List Byte) : Except ErrCode (List Byte) :=
  if ctEq (messageTag cfg t nonce ad (ctrXor cfg nonce ct)) received then .ok (ctrXor cfg nonce ct)
  else .error .authenticationFailed

end Sys2Proof.Machine
end

