-- ==== Sys2Proof/Machine/HostProgram.lean ====
section
/-! DEFINITION. The host-side notation of the spec (R98, R99): each line as the turns it puts into the schedule. -/

namespace Sys2Proof.Machine

/-- `wr REG, imm32` (R98). -/
def lineWr (r : Reg) (v : Word) : List Turn := [.host (.regWrite (regOffset r) 4 v)]

/-- `rd REG` (R98). -/
def lineRd (r : Reg) : List Turn := [.host (.regRead (regOffset r) 4)]

/-- `mem ADDR, "hex"` (R98): one byte a turn, at rising addresses. -/
def lineMem (a : Nat) : List Byte → List Turn
  | [] => []
  | b :: bs => .host (.memWrite a b) :: lineMem (a + 1) bs

/-- `wr64 X, v` (R99): the LO register, then the HI register. -/
def lineWr64 (lo hi : Reg) (v : Dword) : List Turn := lineWr lo (lowHalf v) ++ lineWr hi (highHalf v)

/-- `nonce "hex"` (R99): zero-filled to 16 bytes, packed by R34. -/
def lineNonce (bytes : List Byte) : List Turn :=
  lineWr .nonce0 ((blockOfBytes bytes).extractLsb' 96 32)
    ++ lineWr .nonce1 ((blockOfBytes bytes).extractLsb' 64 32)
    ++ lineWr .nonce2 ((blockOfBytes bytes).extractLsb' 32 32)
    ++ lineWr .nonce3 ((blockOfBytes bytes).extractLsb' 0 32)

/-- `cfg n, t` (R99). -/
def lineCfg (n t : Nat) : List Turn := lineWr .cfg (BitVec.ofNat 32 t <<< 8 ||| BitVec.ofNat 32 n)

/-- `cmd CONFIG`, `cmd SEAL n`, `cmd OPEN n` (R99). -/
def lineCmd (i : Instr) : List Turn := lineWr .cmd (commandWord i)

/-- `wait` (R99), unrolled: `k` polls, each after a turn of the engine (log 19). -/
def lineWait : Nat → List Turn
  | 0 => []
  | k + 1 => .engine :: lineRd .status ++ lineWait k

/-- `clrdone` (R99). -/
def lineClrdone : List Turn := lineWr .status 0x00000002

end Sys2Proof.Machine
end

