-- ==== Sys2Proof/Safety.lean ====
section
/-! DEFINITION. What claims call a good state: the invariants of the spec's prose, and what a command in flight has done so far. -/

namespace Sys2Proof.Safety

open Sys2Proof.Machine
open Sys2Proof.Config (Platform)

/-- R48: while BUSY = 0 nothing of a command is left; while BUSY = 1 a micro-op is due. -/
def IdleIsClean (s : State) : Prop :=
  (s.busy = false →
      s.phase = .idle ∧ s.dp = zeroDatapath ∧ s.latch = zeroLatches ∧ s.past = [])
    ∧ (s.busy = true → s.phase ≠ .idle)

/-- R43: a configuration is legal, or there is none and its registers are 0. -/
def ConfigIsLegal (c : Active) : Prop :=
  if c.valid = true then 7 ≤ c.n.toNat ∧ c.n.toNat ≤ 13 ∧ c.t.toNat ∈ legalTagLens
  else c = noConfig

/-- DONE and BUSY are never both 1: acceptance clears DONE, FINISH clears BUSY (R26, R27). -/
def DoneIsIdle (s : State) : Prop := ¬(s.done = true ∧ s.busy = true)

/-- The invariant of the registers and of the memory's form. -/
def RegisterInv (s : State) : Prop :=
  IdleIsClean s ∧ ConfigIsLegal s.active ∧ DoneIsIdle s ∧ Memory.wf s.mem

/-- A SEAL or an OPEN that passed CHECK is in flight (R174): its nonce length is the configured one, its
payload length fits the length field, its buffers do not overlap (R69). -/
def TextAccepted (s : State) : Prop :=
  s.active.valid = true
    ∧ (commandOf s = .seal s.active.n ∧ payloadLen s = inLen s
        ∨ commandOf s = .openCmd s.active.n ∧ payloadLen s + tagLen s = inLen s)
    ∧ payloadLen s < 2 ^ (8 * lenField s)
    ∧ s.dp.nTxt = ceil16 (payloadLen s)
    ∧ overlapUndefined s = false

/-- The counter manager's registers when counter value `c` is next (R153, R154, R155, R157). -/
def CounterAt (cfg : Platform) (s : State) (c : Nat) : Prop :=
  s.dp.a = ctrBlock (nonceOf s) c ∧ s.dp.s0 = enc cfg (ctrBlock (nonceOf s) 0)

/-- Where a command in flight stands, phase by phase (R177). -/
def FlightInv (cfg : Platform) (s : State) : Prop :=
  match s.phase with
  | .idle => True
  | .check => s.dp = zeroDatapath
  | .macB0 => TextAccepted s ∧ s.dp.written = 0 ∧ s.dp.pendErr = .ok
  | .macAd =>
    TextAccepted s ∧ s.dp.written = 0 ∧ s.dp.pendErr = .ok ∧ s.dp.nAD = adBlockCount (adLen s)
      ∧ s.dp.j < s.dp.nAD
  | .ctrS0 => TextAccepted s ∧ s.dp.written = 0 ∧ s.dp.pendErr = .ok
  | .textCtr =>
    TextAccepted s ∧ s.dp.pendErr = .ok ∧ 1 ≤ s.dp.i ∧ s.dp.i ≤ s.dp.nTxt ∧ CounterAt cfg s s.dp.i
      ∧ s.dp.written = 16 * (s.dp.i - 1)
  | .textMac =>
    TextAccepted s ∧ s.dp.pendErr = .ok ∧ 1 ≤ s.dp.i ∧ s.dp.i ≤ s.dp.nTxt
      ∧ CounterAt cfg s (s.dp.i + 1) ∧ s.dp.written = min (16 * s.dp.i) (payloadLen s)
  | .tag =>
    TextAccepted s ∧ s.dp.pendErr = .ok ∧ CounterAt cfg s (s.dp.nTxt + 1)
      ∧ s.dp.written = payloadLen s
  | .scrub =>
    TextAccepted s ∧ (s.dp.pendErr = .authenticationFailed ∨ s.dp.pendErr = .busError)
      ∧ s.dp.scrubPos < s.dp.written ∧ s.dp.written ≤ outSize s
  | .finish =>
    (s.dp.pendErr = .authenticationFailed ∨ s.dp.pendErr = .busError →
        TextAccepted s ∧ s.dp.scrubPos = s.dp.written ∧ s.dp.written ≤ outSize s)
      ∧ (s.dp.pendErr = .ok →
          commandOf s = .config ∨ TextAccepted s ∧ s.dp.written = outSize s)

/-- How many engine steps the command in flight still takes, at most (R177, R187). -/
def stepsLeft (s : State) : Nat :=
  match s.phase with
  | .idle => 0
  | .check => 6 + adBlockCount (adLen s) + 3 * (ceil16 (inLen s) + 2)
  | .macB0 => 5 + adBlockCount (adLen s) + 3 * (s.dp.nTxt + 1)
  | .macAd => 4 + (s.dp.nAD - s.dp.j) + 3 * (s.dp.nTxt + 1)
  | .ctrS0 => 4 + 3 * (s.dp.nTxt + 1)
  | .textCtr => 3 + ceil16 (outSize s) + 2 * (s.dp.nTxt + 1 - s.dp.i)
  | .textMac => 2 + ceil16 (outSize s) + 2 * (s.dp.nTxt + 1 - s.dp.i)
  | .tag => 2 + ceil16 (outSize s)
  | .scrub => 1 + ceil16 (s.dp.written - s.dp.scrubPos)
  | .finish => 1

/-! ### What a command in flight has computed, from the memory `m0` it started with -/

/-- The associated data of the command. -/
def adOf (m0 : Memory) (s : State) : List Byte := readRegion m0 (adAddr s) (adLen s)

/-- The bytes of the text-in region (R62). -/
def textIn (m0 : Memory) (s : State) : List Byte := readRegion m0 (inAddr s) (payloadLen s)

/-- The received tag of an OPEN (R96). -/
def tagIn (m0 : Memory) (s : State) : List Byte :=
  readRegion m0 (inAddr s + payloadLen s) (tagLen s)

/-- The output of the CTR pass: ciphertext (SEAL) or recovered plaintext (OPEN) (R151, R156). -/
def textOut (cfg : Platform) (m0 : Memory) (s : State) : List Byte :=
  ctrXor cfg (nonceOf s) (textIn m0 s)

/-- The plaintext the MAC runs over (R130). -/
def plainOf (cfg : Platform) (m0 : Memory) (s : State) : List Byte :=
  match commandOf s with
  | .seal _ => textIn m0 s
  | .openCmd _ => textOut cfg m0 s
  | .config => textOut cfg m0 s
  | .bad _ => textOut cfg m0 s

/-- The chain value after `j` associated-data blocks and `i` text blocks (R139). -/
def chainAfter (cfg : Platform) (m0 : Memory) (s : State) (j i : Nat) : Block :=
  macChain cfg (macStart cfg (tagLen s) (nonceOf s) (adOf m0 s) (plainOf cfg m0 s))
    ((adStreamBlocks (adOf m0 s)).take j ++ (blocksOf (plainOf cfg m0 s)).take i)

/-- The whole output of a SEAL or of an OPEN whose tag matched (R170, R171). -/
def wholeOutput (cfg : Platform) (m0 : Memory) (s : State) : List Byte :=
  match commandOf s with
  | .seal _ => sealOutput cfg (tagLen s) (nonceOf s) (adOf m0 s) (textIn m0 s)
  | .openCmd _ => textOut cfg m0 s
  | .config => []
  | .bad _ => []

/-- The memory is `m0` but for the first `n` bytes at `a`, which are those of `out`. -/
def MemHolds (m m0 : Memory) (a n : Nat) (out : List Byte) : Prop :=
  ∀ x, readByte m x = if a ≤ x ∧ x < a + n then out.getD (x - a) 0 else readByte m0 x

/-- Outside the first `n` bytes at `a` the memory is `m0`. -/
def MemKeeps (m m0 : Memory) (a n : Nat) : Prop :=
  ∀ x, ¬(a ≤ x ∧ x < a + n) → readByte m x = readByte m0 x

/-- The bytes `a .. a + n - 1` read 0. -/
def MemZero (m : Memory) (a n : Nat) : Prop := ∀ x, a ≤ x → x < a + n → readByte m x = 0

/-- Only bytes the command itself has written have older values (no host access raced). -/
def PastIsOutput (s : State) : Prop :=
  ∀ c ∈ s.past, outAddr s ≤ c.1 ∧ c.1 < outAddr s + s.dp.written

/-- What a command has computed so far, phase by phase, when it started from the memory `m0` and no host access
raced it (R130, R139, R151, R156, R170, R171, R180, R182). -/
def ProgressInv (cfg : Platform) (m0 : Memory) (s : State) : Prop :=
  match s.phase with
  | .idle => True
  | .check => MemHolds s.mem m0 (outAddr s) 0 [] ∧ s.past = []
  | .macB0 => MemHolds s.mem m0 (outAddr s) 0 [] ∧ s.past = []
  | .macAd =>
    MemHolds s.mem m0 (outAddr s) 0 [] ∧ s.past = [] ∧ s.dp.y = chainAfter cfg m0 s s.dp.j 0
  | .ctrS0 =>
    MemHolds s.mem m0 (outAddr s) 0 [] ∧ s.past = []
      ∧ s.dp.y = chainAfter cfg m0 s (adBlockCount (adLen s)) 0
  | .textCtr =>
    MemHolds s.mem m0 (outAddr s) s.dp.written (textOut cfg m0 s) ∧ PastIsOutput s
      ∧ s.dp.y = chainAfter cfg m0 s (adBlockCount (adLen s)) (s.dp.i - 1)
  | .textMac =>
    MemHolds s.mem m0 (outAddr s) s.dp.written (textOut cfg m0 s) ∧ PastIsOutput s
      ∧ s.dp.y = chainAfter cfg m0 s (adBlockCount (adLen s)) (s.dp.i - 1)
      ∧ s.dp.p = (blocksOf (plainOf cfg m0 s)).getD (s.dp.i - 1) 0
  | .tag =>
    MemHolds s.mem m0 (outAddr s) s.dp.written (textOut cfg m0 s) ∧ PastIsOutput s
      ∧ s.dp.y = macY cfg (tagLen s) (nonceOf s) (adOf m0 s) (plainOf cfg m0 s)
  | .scrub =>
    MemKeeps s.mem m0 (outAddr s) s.dp.written ∧ MemZero s.mem (outAddr s) s.dp.scrubPos
      ∧ (s.dp.pendErr = .authenticationFailed →
          openOutput cfg (tagLen s) (nonceOf s) (adOf m0 s) (textIn m0 s) (tagIn m0 s)
            = .error .authenticationFailed)
  | .finish =>
    (s.dp.pendErr ≠ .ok →
        MemKeeps s.mem m0 (outAddr s) s.dp.written ∧ MemZero s.mem (outAddr s) s.dp.written
          ∧ (s.dp.pendErr = .authenticationFailed →
              openOutput cfg (tagLen s) (nonceOf s) (adOf m0 s) (textIn m0 s) (tagIn m0 s)
                = .error .authenticationFailed))
      ∧ (s.dp.pendErr = .ok →
          MemHolds s.mem m0 (outAddr s) s.dp.written (wholeOutput cfg m0 s)
            ∧ ∀ n, commandOf s = .openCmd n →
                openOutput cfg (tagLen s) (nonceOf s) (adOf m0 s) (textIn m0 s) (tagIn m0 s)
                  = .ok (textOut cfg m0 s))

/-- The next turn is the engine's: it is scheduled, or nothing is (log 1). -/
def EngineIsNext (s : State) : Prop := s.turns = [] ∨ ∃ ts, s.turns = .engine :: ts

/-- The state with its next turn taken off the schedule. -/
def dropTurn (s : State) : State := { s with turns := s.turns.tail }

/-- The host's write of word `w` to CMD, a 32-bit access at offset 0x04 (R22, R24). -/
def cmdWrite (w : Word) : Turn := .host (.regWrite 0x04 4 w)

/-- The next turn is a host write to CMD. -/
def CommandIsNext (s : State) : Prop := ∃ w ts, s.turns = cmdWrite w :: ts

/-- The next turn is the platform's reset. -/
def ResetIsNext (s : State) : Prop := ∃ ts, s.turns = .reset :: ts

/-- The bits of a register that a host write sets (R22, R23, R32): none of a read-only register, of CMD, or of
STATUS, whose bits 1 and 2 are cleared and not set (R25). -/
def writableBits : Reg → Word
  | .ctrl => 0x00000001
  | .cmd => 0
  | .status => 0
  | .cfg => 0x00001F0F
  | .active => 0
  | .nonce0 => 0xFFFFFFFF
  | .nonce1 => 0xFFFFFFFF
  | .nonce2 => 0xFFFFFFFF
  | .nonce3 => 0xFFFFFFFF
  | .adAddrLo => 0xFFFFFFFF
  | .adAddrHi => 0xFFFFFFFF
  | .adLenLo => 0xFFFFFFFF
  | .adLenHi => 0xFFFFFFFF
  | .inAddrLo => 0xFFFFFFFF
  | .inAddrHi => 0xFFFFFFFF
  | .inLenLo => 0xFFFFFFFF
  | .inLenHi => 0xFFFFFFFF
  | .outAddrLo => 0xFFFFFFFF
  | .outAddrHi => 0xFFFFFFFF
  | .outLenLo => 0
  | .outLenHi => 0

/-- The bits that the register map defines (R23 to R38); the others are reserved (R21). CMD reads 0 (R24). -/
def definedBits : Reg → Word
  | .ctrl => 0x00000001
  | .cmd => 0
  | .status => 0x0000FFFF
  | .cfg => 0x00001F0F
  | .active => 0x000F1F0F
  | .nonce0 => 0xFFFFFFFF
  | .nonce1 => 0xFFFFFFFF
  | .nonce2 => 0xFFFFFFFF
  | .nonce3 => 0xFFFFFFFF
  | .adAddrLo => 0xFFFFFFFF
  | .adAddrHi => 0xFFFFFFFF
  | .adLenLo => 0xFFFFFFFF
  | .adLenHi => 0xFFFFFFFF
  | .inAddrLo => 0xFFFFFFFF
  | .inAddrHi => 0xFFFFFFFF
  | .inLenLo => 0xFFFFFFFF
  | .inLenHi => 0xFFFFFFFF
  | .outAddrLo => 0xFFFFFFFF
  | .outAddrHi => 0xFFFFFFFF
  | .outLenLo => 0xFFFFFFFF
  | .outLenHi => 0xFFFFFFFF

/-- Two states that differ at most in data: the bytes of nonce, associated data, text and tag, and what is
computed from them (R248). -/
def SameShape (s t : State) : Prop :=
  s.phase = t.phase ∧ s.busy = t.busy ∧ s.active = t.active ∧ s.latch.cmdWord = t.latch.cmdWord
    ∧ s.latch.cfg = t.latch.cfg ∧ s.latch.adAddr = t.latch.adAddr ∧ s.latch.adLen = t.latch.adLen
    ∧ s.latch.inAddr = t.latch.inAddr ∧ s.latch.inLen = t.latch.inLen
    ∧ s.latch.outAddr = t.latch.outAddr ∧ s.dp.j = t.dp.j ∧ s.dp.nAD = t.dp.nAD ∧ s.dp.i = t.dp.i
    ∧ s.dp.nTxt = t.dp.nTxt ∧ s.dp.m = t.dp.m ∧ s.dp.written = t.dp.written
    ∧ s.dp.scrubPos = t.dp.scrubPos ∧ s.dp.pendErr = t.dp.pendErr

/-- ADMIT lets every byte access of a region happen (R10). -/
def RegionAdmitted (cfg : Platform) (d : Config.Dir) (a n : Nat) : Prop :=
  ∀ k < n, admitted cfg (a + k) d = true

/-- No byte of a region has an older value that a racing access could still see. -/
def Quiet (s : State) (a n : Nat) : Prop := ∀ c ∈ s.past, ¬(a ≤ c.1 ∧ c.1 < a + n)

/-- R73: a byte that an access racing with a command in flight may see at an address: the one there now, or one that
was overwritten there while the command ran (log 7). -/
def MayRead (s : State) (a : Nat) (b : Byte) : Prop := b = readByte s.mem a ∨ (a, b) ∈ s.past

end Sys2Proof.Safety
end

