-- ==== Sys2Proof/Certificates/Slice0/Obligations.lean ====
section
/-! DEFINITION. The statements for the provers: what the decoder, the micro-ops and the machine do. -/

open Sys2Proof Sys2Proof.Machine Sys2Proof.Safety
open Sys2Proof.Config (platform)

/-! ### Encodings -/

/-- R84, R86: a code decodes to an instruction exactly when it is the code of that well-formed instruction. -/
def Obligations.DecoderInvertsEncoder : Prop :=
  ∀ (c : Code) (i : Instr), decode c = .ok i ↔ i.wellFormed = true ∧ encode i = c

/-- R81, R84, R86: words of the table, written out from the encodings, decode to their rows. That a row of at most
8 bits is a phase code and every other row a command word is the model's choice (log 3). -/
def Obligations.SampleWordsDecode : Prop :=
  decodeTableWord 32 0x00000001 = some .config
    ∧ decodeTableWord 32 0x00000702 = some (.seal 7)
    ∧ decodeTableWord 32 0x00000D03 = some (.openCmd 13)
    ∧ decodeTableWord 32 0x00000101 = some (.bad 0x00000101)
    ∧ decodeTableWord 32 0x00001001 = some (.bad 0x00001001)
    ∧ decodeTableWord 8 0x3 = some .macAd
    ∧ decodeTableWord 8 0x5 = some .textCtr
    ∧ decodeTableWord 8 0x7 = some .tag
    ∧ decodeTableWord 8 0x0 = none
    ∧ decodeTableWord 8 0xA = none

/-- R84: the words that spell a command are exactly these; every other word is BAD. -/
def Obligations.CommandWordsAreExactlyThese : Prop :=
  ∀ w : Word,
    (decodeCommand w = .config ↔ w = 0x00000001)
      ∧ (∀ n : BitVec 4, decodeCommand w = .seal n ↔ w = (0x00000002 : Word) ||| (n.setWidth 32 <<< 8))
      ∧ (∀ n : BitVec 4, decodeCommand w = .openCmd n ↔ w = (0x00000003 : Word) ||| (n.setWidth 32 <<< 8))
      ∧ (decodeCommand w = .bad w ↔
          w ≠ 0x00000001 ∧ ∀ n : BitVec 4,
            w ≠ (0x00000002 : Word) ||| (n.setWidth 32 <<< 8)
              ∧ w ≠ (0x00000003 : Word) ||| (n.setWidth 32 <<< 8))

/-! ### The step -/

/-- R16, R40: on the engine's turn, while BUSY = 1, the step is the micro-op whose code `phase` holds. -/
def Obligations.EngineTurnRunsThePhasesMicroOp : Prop :=
  ∀ (s : State) (i : Instr), EngineIsNext s → s.busy = true →
    decode (.phase (phaseCode s.phase)) = .ok i → step s = exec i (dropTurn s)

/-- R24, R84: a host write of a word to CMD is the step of the instruction the word decodes to. -/
def Obligations.CommandWriteRunsTheDecodedWord : Prop :=
  ∀ (s : State) (ts : List Turn) (w : Word) (i : Instr), s.turns = cmdWrite w :: ts →
    decode (.cmd w) = .ok i → step s = exec i { s with turns := ts, resp := .written }

/-- R16, R181: while BUSY = 0 the engine has no step. -/
def Obligations.IdleEngineHasNoStep : Prop :=
  ∀ s : State, EngineIsNext s → s.busy = false → step s = .next (dropTurn s)

/-! ### The host's side -/

/-- R21: illegal accesses answer an error and change nothing; unlisted offsets read 0 and take nothing; read-only
registers take nothing; a reserved bit reads 0; what is written to a reserved bit or a read-only field makes no
difference. A listed register reads as `readReg` says. -/
def Obligations.RegisterAccessRules : Prop :=
  ∀ (s : State) (ts : List Turn) (off : BitVec 8) (size : Nat) (v : Word),
    (s.turns = .host (.regRead off size) :: ts → ¬(size = 4 ∧ off.toNat % 4 = 0) →
        step s = .next { s with turns := ts, resp := .error })
      ∧ (s.turns = .host (.regWrite off size v) :: ts → ¬(size = 4 ∧ off.toNat % 4 = 0) →
        step s = .next { s with turns := ts, resp := .error })
      ∧ (s.turns = .host (.regRead off 4) :: ts → off.toNat % 4 = 0 → (∀ r, regOffset r ≠ off) →
        step s = .next { s with turns := ts, resp := .word 0 })
      ∧ (s.turns = .host (.regWrite off 4 v) :: ts → off.toNat % 4 = 0 → (∀ r, regOffset r ≠ off) →
        step s = .next { s with turns := ts, resp := .written })
      ∧ (∀ r, s.turns = .host (.regRead (regOffset r) 4) :: ts →
        step s = .next { s with turns := ts, resp := .word (readReg s r) })
      ∧ (∀ r ∈ [Reg.active, Reg.outLenLo, Reg.outLenHi],
        s.turns = .host (.regWrite (regOffset r) 4 v) :: ts →
        step s = .next { s with turns := ts, resp := .written })
      ∧ (∀ r, readReg s r &&& ~~~definedBits r = 0)
      ∧ (∀ (r : Reg) (v' : Word), r ≠ .cmd →
        (v ^^^ v') &&& (if r = .status then 0x00000006 else writableBits r) = 0 →
        s.turns = .host (.regWrite (regOffset r) 4 v) :: ts →
        step s = step { s with turns := .host (.regWrite (regOffset r) 4 v') :: ts })

/-- R22 to R37, R21: a write to a register sets its writable bits, and every other bit of it and every other
register reads as before. CMD and STATUS have statements of their own. -/
def Obligations.RegisterWriteReadsBack : Prop :=
  ∀ (s : State) (ts : List Turn) (r : Reg) (v : Word), r ≠ .cmd → r ≠ .status →
    s.turns = .host (.regWrite (regOffset r) 4 v) :: ts →
    ∃ regs, step s = .next { s with regs := regs, turns := ts, resp := .written }
      ∧ ∀ r', readReg { s with regs := regs } r'
          = if r' = r then (v &&& writableBits r) ||| (readReg s r &&& ~~~writableBits r) else readReg s r'

/-- R87, R25, R33: the word of STATUS, the write that clears DONE and OVR, and the word of ACTIVE. -/
def Obligations.StatusAndActiveWords : Prop :=
  ∀ s : State,
    (readReg s .status).toNat
        = 256 * (errCode s.err).toNat + 16 * (phaseCode s.phase).toNat + 8 * s.active.valid.toNat
            + 4 * s.ovr.toNat + 2 * s.done.toNat + s.busy.toNat
      ∧ (readReg s .active).toNat
        = (if s.active.valid = true then
            65536 * (15 - s.active.n.toNat) + 256 * s.active.t.toNat + s.active.n.toNat
          else 0)
      ∧ ∀ (ts : List Turn) (v : Word), s.turns = .host (.regWrite 0x08 4 v) :: ts →
          step s = .next
            { s with
              done := s.done && !v.getLsbD 1
              ovr := s.ovr && !v.getLsbD 2
              turns := ts
              resp := .written }

/-- R34: nonce byte `4k + m` is NONCEk bits `31 - 8m .. 24 - 8m`. R22: a 64-bit register is HI then LO. -/
def Obligations.NonceAndAddressPacking : Prop :=
  (∀ (r : HostRegs) (m : Nat), m < 4 →
      byteOf (nonceBlock r) m = r.nonce0.extractLsb' (24 - 8 * m) 8
        ∧ byteOf (nonceBlock r) (4 + m) = r.nonce1.extractLsb' (24 - 8 * m) 8
        ∧ byteOf (nonceBlock r) (8 + m) = r.nonce2.extractLsb' (24 - 8 * m) 8
        ∧ byteOf (nonceBlock r) (12 + m) = r.nonce3.extractLsb' (24 - 8 * m) 8)
    ∧ ∀ s : State,
        s.regs.adAddr = readReg s .adAddrHi ++ readReg s .adAddrLo
          ∧ s.regs.adLen = readReg s .adLenHi ++ readReg s .adLenLo
          ∧ s.regs.inAddr = readReg s .inAddrHi ++ readReg s .inAddrLo
          ∧ s.regs.inLen = readReg s .inLenHi ++ readReg s .inLenLo
          ∧ s.regs.outAddr = readReg s .outAddrHi ++ readReg s .outAddrLo
          ∧ s.outLen = readReg s .outLenHi ++ readReg s .outLenLo

/-- R46: the interrupt output is CTRL.IE and STATUS.DONE. -/
def Obligations.InterruptIsEnabledDone : Prop :=
  ∀ s : State, irq s = ((readReg s .ctrl).getLsbD 0 && (readReg s .status).getLsbD 1)

/-- R61, R66, R73: the host's own accesses to the data memory, the engine idle or busy. A write sets its byte and no
other, and while BUSY = 1 a racing read may still see the byte it replaces; a read answers the byte there now, or in
the output region of a busy engine (item 6 of 93_implementation_defined.md) one overwritten there while the command
ran; an idle engine reads back what was written. Nothing else changes. The model's choices: ADMIT does not govern the
host, and an address of 2^64 or above answers an error (log 6); the overwritten bytes and the draws are kept in `past`
and `draws` (log 7). -/
def Obligations.HostMemoryAccesses : Prop :=
  ∀ (s : State) (ts : List Turn) (a : Nat) (v : Byte),
    (s.turns = .host (.memWrite a v) :: ts → 2 ^ 64 ≤ a →
        step s = .next { s with turns := ts, resp := .error })
      ∧ (s.turns = .host (.memRead a) :: ts → 2 ^ 64 ≤ a →
        step s = .next { s with turns := ts, resp := .error })
      ∧ (s.turns = .host (.memWrite a v) :: ts → a < 2 ^ 64 → Memory.wf s.mem →
        ∃ m past, step s = .next { s with mem := m, past := past, turns := ts, resp := .written }
          ∧ Memory.wf m ∧ (∀ x, readByte m x = if x = a then v else readByte s.mem x)
          ∧ past = if s.busy = true then (a, readByte s.mem a) :: s.past else s.past)
      ∧ (s.turns = .host (.memRead a) :: ts → a < 2 ^ 64 →
        ∃ b d, step s = .next { s with turns := ts, resp := .byte b, draws := d } ∧ s.draws ≤ d
          ∧ MayRead s a b
          ∧ (¬(s.busy = true ∧ outAddr s ≤ a ∧ a < outAddr s + outSize s) ∨ Quiet s a 1 →
              b = readByte s.mem a ∧ d = s.draws))
      ∧ (s.turns = .host (.memWrite a v) :: .host (.memRead a) :: ts → a < 2 ^ 64 → Memory.wf s.mem →
        s.busy = false →
        ∃ t, step s = .next t ∧ step t = .next { t with turns := ts, resp := .byte v })

/-- R47: every piece of the spec's state after reset, as the host reads it and inside: in the model's reset state, and
after a reset at any time, which leaves the data memory. -/
def Obligations.ResetState : Prop :=
  (∀ r, readReg State.reset r = 0)
    ∧ State.reset.phase = .idle ∧ State.reset.busy = false ∧ State.reset.active = noConfig
    ∧ State.reset.dp = zeroDatapath ∧ State.reset.latch = zeroLatches ∧ irq State.reset = false
    ∧ ∀ s : State, ResetIsNext s → ∃ t, step s = .next t ∧ (∀ r, readReg t r = 0)
        ∧ t.phase = .idle ∧ t.busy = false ∧ t.active = noConfig ∧ t.dp = zeroDatapath
        ∧ t.latch = zeroLatches ∧ irq t = false ∧ t.mem = s.mem

/-- R240, R241: the platform's reset, at any time, zeroes every register and leaves the data memory; the command
in flight is abandoned without a SCRUB, and a SEAL or OPEN then reports NotConfigured. That the schedule, the draw
counter and the host's last answer stay is the model's (log 17). -/
def Obligations.PlatformResetClearsTheEngine : Prop :=
  ∀ (s : State) (ts : List Turn), s.turns = .reset :: ts →
    step s = .next { State.reset with mem := s.mem, turns := ts, draws := s.draws, resp := s.resp }
      ∧ ∀ (i : Instr) (n : BitVec 4), i = .seal n ∨ i = .openCmd n →
          ∃ t u, exec i { State.reset with mem := s.mem, turns := ts, draws := s.draws, resp := s.resp }
              = .next t ∧ exec .check t = .next u ∧ u.dp.pendErr = .notConfigured ∧ u.phase = .finish

/-! ### Commands -/

/-- R173, for CONFIG, SEAL, OPEN and BAD words: an idle engine latches every parameter and starts CHECK; a busy
one drops the word and sets OVR. Nothing else changes. -/
def Obligations.CommandWriteIsAcceptedOrDropped : Prop :=
  ∀ (i : Instr) (w : Word) (s : State), encode i = .cmd w →
    exec i s = .next
      (if s.busy = true then { s with ovr := true }
       else
        { s with
          latch :=
            { cmdWord := w, cfg := readReg s .cfg, nonce := nonceBlock s.regs, adAddr := s.regs.adAddr,
              adLen := s.regs.adLen, inAddr := s.regs.inAddr, inLen := s.regs.inLen,
              outAddr := s.regs.outAddr }
          busy := true
          done := false
          err := .ok
          phase := .check })

/-- R26: BUSY is set by the acceptance of a command, cleared by FINISH, and written by nothing else but reset;
while it is 1 the engine has a micro-op. -/
def Obligations.BusyHasThreeWriters : Prop :=
  ∀ s t : State, step s = .next t →
    (s.busy = false → (t.busy = true ↔ CommandIsNext s))
      ∧ (s.busy = true → (t.busy = false ↔ EngineIsNext s ∧ s.phase = .finish ∨ ResetIsNext s))
      ∧ (RegisterInv s → s.busy = true → ∃ i, microOp s.phase = some i)

/-- R27: DONE is cleared by acceptance, set by FINISH of every command, cleared by a host write of 1 to bit 1
(and by reset). -/
def Obligations.DoneHasFourWriters : Prop :=
  ∀ s t : State, step s = .next t →
    (t.done = true ↔
      s.busy = true ∧ s.phase = .finish ∧ EngineIsNext s
        ∨ s.done = true ∧ ¬(s.busy = false ∧ CommandIsNext s) ∧ ¬ResetIsNext s
            ∧ ¬∃ v ts, s.turns = .host (.regWrite 0x08 4 v) :: ts ∧ v.getLsbD 1 = true)

/-- R28: OVR is set by a CMD write while BUSY = 1, whose word is discarded with the command in flight unaffected,
and cleared only by a host write of 1 to bit 2 or by reset. -/
def Obligations.OverrunIsSticky : Prop :=
  (∀ (s : State) (ts : List Turn) (w : Word), s.busy = true → s.turns = cmdWrite w :: ts →
      step s = .next { s with ovr := true, turns := ts, resp := .written })
    ∧ ∀ s t : State, step s = .next t →
        (t.ovr = true ↔
          s.busy = true ∧ CommandIsNext s
            ∨ s.ovr = true ∧ ¬ResetIsNext s
                ∧ ¬∃ v ts, s.turns = .host (.regWrite 0x08 4 v) :: ts ∧ v.getLsbD 2 = true)

/-- R29, R43: the configuration, and CONFIGURED with it, is written only by CHECK of a CONFIG and by reset. -/
def Obligations.ConfigurationHasTwoWriters : Prop :=
  (∀ s : State, (readReg s .status).getLsbD 3 = s.active.valid)
    ∧ ∀ s t : State, step s = .next t → t.active ≠ s.active →
        EngineIsNext s ∧ s.busy = true ∧ s.phase = .check ∧ decodeCommand s.latch.cmdWord = .config
          ∨ ResetIsNext s

/-- R31, R38: ERR is written by acceptance (OK), by FINISH (the command's outcome) and by reset only; OUT_LEN by
FINISH and by reset only: the output length on OK, 0 on any other outcome. -/
def Obligations.OutcomeRegistersHaveTheirWriters : Prop :=
  ∀ s t : State, step s = .next t →
    (s.busy = false → CommandIsNext s → t.err = .ok ∧ t.outLen = s.outLen)
      ∧ (s.busy = true → s.phase = .finish → EngineIsNext s →
          t.err = s.dp.pendErr
            ∧ (s.dp.pendErr ≠ .ok → t.outLen = 0)
            ∧ (s.dp.pendErr = .ok → decodeCommand s.latch.cmdWord = .config → t.outLen = 0)
            ∧ (∀ n, s.dp.pendErr = .ok → decodeCommand s.latch.cmdWord = .seal n →
                t.outLen.toNat = (s.dp.m.toNat + s.active.t.toNat) % 2 ^ 64)
            ∧ ∀ n, s.dp.pendErr = .ok → decodeCommand s.latch.cmdWord = .openCmd n → t.outLen = s.dp.m)
      ∧ (ResetIsNext s → t.err = .ok ∧ t.outLen = 0)
      ∧ (¬(s.busy = false ∧ CommandIsNext s) → ¬(s.busy = true ∧ s.phase = .finish ∧ EngineIsNext s) →
          ¬ResetIsNext s → t.err = s.err ∧ t.outLen = s.outLen)

/-! ### CHECK -/

/-- R120 to R123: CONFIG's validation in its order, the configuration it sets or discards. -/
def Obligations.CheckOfConfig : Prop :=
  ∀ (s : State) (e : ErrCode), decodeCommand s.latch.cmdWord = .config →
    e = (if ¬(7 ≤ (s.latch.cfg.extractLsb' 0 4).toNat ∧ (s.latch.cfg.extractLsb' 0 4).toNat ≤ 13) then
          ErrCode.invalidNonceLength
        else if (s.latch.cfg.extractLsb' 8 5).toNat ∉ [4, 6, 8, 10, 12, 14, 16] then .invalidTagLength
        else if ¬(platform.cipher.blockBytes = 16 ∧ platform.cipher.keyOk = true) then .invalidCipher
        else .ok) →
    exec .check s = .next
      { s with
        active :=
          if e = .ok then
            { valid := true, n := s.latch.cfg.extractLsb' 0 4, t := s.latch.cfg.extractLsb' 8 5 }
          else { valid := false, n := 0, t := 0 }
        dp := { s.dp with pendErr := e }
        phase := .finish }

/-- R174 for SEAL: the checks in their order, and the start of the computation. -/
def Obligations.CheckOfSeal : Prop :=
  ∀ (s : State) (n : BitVec 4), decodeCommand s.latch.cmdWord = .seal n →
    (s.active.valid = false →
        exec .check s = .next { s with dp := { s.dp with pendErr := .notConfigured }, phase := .finish })
      ∧ (s.active.valid = true → n ≠ s.active.n →
        exec .check s = .next { s with dp := { s.dp with pendErr := .invalidNonceLength }, phase := .finish })
      ∧ (s.active.valid = true → n = s.active.n → 2 ^ (8 * (15 - n.toNat)) ≤ s.latch.inLen.toNat →
        exec .check s = .next { s with dp := { s.dp with pendErr := .messageTooLong }, phase := .finish })
      ∧ (s.active.valid = true → n = s.active.n → s.latch.inLen.toNat < 2 ^ (8 * (15 - n.toNat)) →
        overlapUndefined { s with dp := { s.dp with m := s.latch.inLen } } = false →
        exec .check s = .next
          { s with
            dp := { s.dp with m := s.latch.inLen, nTxt := (s.latch.inLen.toNat + 15) / 16, written := 0 }
            phase := .macB0 })

/-- R174 for OPEN: the checks in their order, and the start of the computation. -/
def Obligations.CheckOfOpen : Prop :=
  ∀ (s : State) (n : BitVec 4), decodeCommand s.latch.cmdWord = .openCmd n →
    (s.active.valid = false →
        exec .check s = .next { s with dp := { s.dp with pendErr := .notConfigured }, phase := .finish })
      ∧ (s.active.valid = true → n ≠ s.active.n →
        exec .check s = .next { s with dp := { s.dp with pendErr := .invalidNonceLength }, phase := .finish })
      ∧ (s.active.valid = true → n = s.active.n → s.latch.inLen.toNat < s.active.t.toNat →
        exec .check s = .next { s with dp := { s.dp with pendErr := .ciphertextTooShort }, phase := .finish })
      ∧ (s.active.valid = true → n = s.active.n → s.active.t.toNat ≤ s.latch.inLen.toNat →
        2 ^ (8 * (15 - n.toNat)) ≤ s.latch.inLen.toNat - s.active.t.toNat →
        exec .check s = .next { s with dp := { s.dp with pendErr := .messageTooLong }, phase := .finish })
      ∧ (s.active.valid = true → n = s.active.n → s.active.t.toNat ≤ s.latch.inLen.toNat →
        s.latch.inLen.toNat - s.active.t.toNat < 2 ^ (8 * (15 - n.toNat)) →
        overlapUndefined
            { s with dp := { s.dp with m := s.latch.inLen - s.active.t.setWidth 64 } } = false →
        exec .check s = .next
          { s with
            dp :=
              { s.dp with
                m := s.latch.inLen - s.active.t.setWidth 64
                nTxt := (s.latch.inLen.toNat - s.active.t.toNat + 15) / 16
                written := 0 }
            phase := .macB0 })

/-- R176: CHECK of a BAD word reports BadCommand and reads and writes nothing else; its FINISH follows. -/
def Obligations.CheckOfBad : Prop :=
  ∀ s : State, decodeCommand s.latch.cmdWord = .bad s.latch.cmdWord →
    exec .check s = .next { s with dp := { s.dp with pendErr := .badCommand }, phase := .finish }
      ∧ ∃ t, exec .finish { s with dp := { s.dp with pendErr := .badCommand }, phase := .finish } = .next t
          ∧ t.err = .badCommand ∧ t.active = s.active ∧ t.busy = false ∧ t.done = true

/-- R69: CHECK refuses a command exactly when it passes its validation and its output region shares an address
with the AD region, with the text-in region without being in place, or with the tag-in region. That the refusal
happens at CHECK is the model's choice (log 8). -/
def Obligations.CheckRefusesUndefinedOverlap : Prop :=
  ∀ (s : State) (M T out tagIn : Nat),
    (∃ n, decodeCommand s.latch.cmdWord = .seal n ∧ n = s.active.n ∧ M = s.latch.inLen.toNat
        ∧ out = M + T ∧ tagIn = 0
      ∨ decodeCommand s.latch.cmdWord = .openCmd n ∧ n = s.active.n
        ∧ M + T = s.latch.inLen.toNat ∧ out = M ∧ tagIn = T) →
    T = s.active.t.toNat → s.active.valid = true → M < 2 ^ (8 * (15 - s.active.n.toNat)) →
    (exec .check s = .refused .overlappingBuffers ↔
      ∃ x, s.latch.outAddr.toNat ≤ x ∧ x < s.latch.outAddr.toNat + out
        ∧ (s.latch.adAddr.toNat ≤ x ∧ x < s.latch.adAddr.toNat + s.latch.adLen.toNat
          ∨ s.latch.outAddr ≠ s.latch.inAddr
              ∧ s.latch.inAddr.toNat ≤ x ∧ x < s.latch.inAddr.toNat + M
          ∨ s.latch.inAddr.toNat + M ≤ x ∧ x < s.latch.inAddr.toNat + M + tagIn))

/-! ### The micro-ops -/

/-- R131: MAC_B0. -/
def Obligations.MacB0Step : Prop :=
  ∀ s : State,
    exec .macB0 s = .next
      { s with
        dp :=
          { s.dp with
            y := platform.cipher.encrypt
              (fmtB0 (decide (0 < adLen s)) (tagLen s) (nonceOf s) (payloadLen s))
            nAD := if 0 < adLen s then ((adPrefix (adLen s)).length + adLen s + 15) / 16 else 0
            j := if 0 < adLen s then 0 else s.dp.j }
        phase := if 0 < adLen s then .macAd else .ctrS0 }

/-- R132, R136: MAC_AD absorbs block `j` of the associated-data stream; a refused read is a BusError (R213).
Where a host access raced (R73) each byte read is one it may see, `draws` counting the draws (log 7); where none did
they are the memory's. With an empty associated data MAC_AD has no rule (log 11). -/
def Obligations.MacAdStep : Prop :=
  ∀ (s : State) (pl : Nat), pl = (adPrefix (adLen s)).length → 0 < adLen s →
    ∃ t, exec .macAd s = .next t
      ∧ if ∀ m : Nat, m < 16 → 16 * s.dp.j + m < pl ∨ pl + adLen s ≤ 16 * s.dp.j + m
            ∨ admitted platform (adAddr s + (16 * s.dp.j + m - pl)) .read = true then
          ∃ (D : Nat → Byte) (d : Nat), s.draws ≤ d
            ∧ (∀ k < adLen s, MayRead s (adAddr s + k) (D k))
            ∧ (Quiet s (adAddr s) (adLen s) →
                d = s.draws ∧ ∀ k < adLen s, D k = readByte s.mem (adAddr s + k))
            ∧ t = { s with
                dp :=
                  { s.dp with
                    y := platform.cipher.encrypt
                      (s.dp.y ^^^ blockOfBytes ((List.range 16).map fun m =>
                        if 16 * s.dp.j + m < pl then (adPrefix (adLen s)).getD (16 * s.dp.j + m) 0
                        else if 16 * s.dp.j + m < pl + adLen s then D (16 * s.dp.j + m - pl)
                        else 0))
                    j := s.dp.j + 1 }
                phase := if s.dp.j + 1 = s.dp.nAD then .ctrS0 else .macAd
                draws := d }
        else
          t = { s with
            dp := { s.dp with pendErr := .busError, scrubPos := 0 }
            phase := if 0 < s.dp.written then .scrub else .finish }

/-- R137: TEXT_MAC. -/
def Obligations.TextMacStep : Prop :=
  ∀ s : State,
    exec .textMac s = .next
      { s with
        dp :=
          { s.dp with
            y := platform.cipher.encrypt (s.dp.y ^^^ s.dp.p)
            p := 0
            i := if s.dp.i = s.dp.nTxt then s.dp.i else s.dp.i + 1 }
        phase := if s.dp.i = s.dp.nTxt then .tag else .textCtr }

/-- R153: CTR_S0; under a legal nonce length (R43) the counter block it loads is `A_1`. -/
def Obligations.CtrS0Step : Prop :=
  ∀ s : State,
    exec .ctrS0 s = .next
      { s with
        dp :=
          { s.dp with
            s0 := platform.cipher.encrypt (ctrBlock (nonceOf s) 0)
            a := inc (15 - s.active.n.toNat) (ctrBlock (nonceOf s) 0)
            i := if 0 < s.dp.nTxt then 1 else s.dp.i }
        phase := if 0 < s.dp.nTxt then .textCtr else .tag }
      ∧ (7 ≤ s.active.n.toNat → s.active.n.toNat ≤ 13 →
          inc (15 - s.active.n.toNat) (ctrBlock (nonceOf s) 0) = ctrBlock (nonceOf s) 1)

/-- R154: TEXT_CTR reads `n` bytes, XORs the keystream and writes the output; a refused read changes nothing but
R213's fields; a refused write of byte `k` leaves the `k` bytes before it written and counted. Where a host access
raced (R73) each byte read is one it may see, `draws` counting the draws (log 7); where none did they are the
memory's. A block number of 0 and a block past the payload have no rule (log 11). -/
def Obligations.TextCtrStep : Prop :=
  ∀ (s : State) (base n src dst : Nat), 1 ≤ s.dp.i → base = 16 * (s.dp.i - 1) → base < payloadLen s →
    n = min 16 (payloadLen s - base) → src = inAddr s + base → dst = outAddr s + base → Memory.wf s.mem →
    ∃ t, exec .textCtr s = .next t
      ∧ if ∀ q < n, admitted platform (src + q) .read = true then
          ∃ (D R : List Byte) (d k : Nat), D.length = n ∧ s.draws ≤ d
            ∧ (∀ q < n, MayRead s (src + q) (D.getD q 0))
            ∧ (Quiet s src n → d = s.draws ∧ D = readRegion s.mem src n)
            ∧ R = xorBytes D (blockBytes (platform.cipher.encrypt s.dp.a))
            ∧ k ≤ n ∧ (∀ q < k, admitted platform (dst + q) .write = true)
            ∧ (k = n ∨ admitted platform (dst + k) .write = false)
            ∧ (∀ x, readByte t.mem x
                = if dst ≤ x ∧ x < dst + k then R.getD (x - dst) 0 else readByte s.mem x)
            ∧ (k = n →
                t = { s with
                  mem := t.mem
                  past := t.past
                  draws := d
                  dp := { s.dp with written := base + n, p := t.dp.p, a := inc (lenField s) s.dp.a }
                  phase := .textMac }
                ∧ ((∃ l, decodeCommand s.latch.cmdWord = .seal l) → t.dp.p = blockOfBytes D)
                ∧ ((∃ l, decodeCommand s.latch.cmdWord = .openCmd l) → t.dp.p = blockOfBytes R))
            ∧ (k < n →
                t = { s with
                  mem := t.mem
                  past := t.past
                  draws := d
                  dp := { s.dp with written := base + k, pendErr := .busError, scrubPos := 0 }
                  phase := if 0 < base + k then .scrub else .finish })
        else
          t = { s with
            dp := { s.dp with pendErr := .busError, scrubPos := 0 }
            phase := if 0 < s.dp.written then .scrub else .finish }

/-- R178: TAG of a SEAL writes the masked tag right after the ciphertext; a refused write of tag byte `k` leaves
the bytes before it written and counted (R213). -/
def Obligations.TagOfSeal : Prop :=
  ∀ (s : State) (l : BitVec 4) (M T dst : Nat), decodeCommand s.latch.cmdWord = .seal l →
    M = payloadLen s → T = s.active.t.toNat → T ≤ 16 → dst = outAddr s + M → Memory.wf s.mem →
    ∃ t, exec .tag s = .next t
      ∧ ∃ k ≤ T, (∀ q < k, admitted platform (dst + q) .write = true)
        ∧ (k = T ∨ admitted platform (dst + k) .write = false)
        ∧ (∀ x, readByte t.mem x
            = if dst ≤ x ∧ x < dst + k then byteOf s.dp.y (x - dst) ^^^ byteOf s.dp.s0 (x - dst)
              else readByte s.mem x)
        ∧ t = { s with
            mem := t.mem
            past := t.past
            dp :=
              if k = T then { s.dp with written := M + T, pendErr := .ok }
              else { s.dp with written := M + k, pendErr := .busError, scrubPos := 0 }
            phase := if k = T then .finish else if 0 < M + k then .scrub else .finish }

/-- R179: TAG of an OPEN compares all `t` bytes; nothing of the expected tag is kept but `diff`, which is 0 only
when every byte agrees; a refused read of a tag byte is a BusError, before any comparison (R213). Where a host access
raced (R73) each byte read is one it may see, `draws` counting the draws (log 7); where none did they are the
memory's. -/
def Obligations.TagOfOpen : Prop :=
  ∀ (s : State) (l : BitVec 4) (M T src : Nat),
    decodeCommand s.latch.cmdWord = .openCmd l → M = payloadLen s → T = s.active.t.toNat → T ≤ 16 →
    src = inAddr s + M →
    ∃ t, exec .tag s = .next t
      ∧ if ∀ k < T, admitted platform (src + k) .read = true then
          ∃ (D : List Byte) (d : Nat) (diff : Byte), D.length = T ∧ s.draws ≤ d
            ∧ (∀ k < T, MayRead s (src + k) (D.getD k 0))
            ∧ (Quiet s src T → d = s.draws ∧ D = readRegion s.mem src T)
            ∧ diff = (List.range T).foldl
                (fun x k => x ||| (byteOf s.dp.y k ^^^ byteOf s.dp.s0 k ^^^ D.getD k 0)) 0
            ∧ (diff = 0 ↔ ∀ k < T, D.getD k 0 = byteOf s.dp.y k ^^^ byteOf s.dp.s0 k)
            ∧ t = { s with
                dp :=
                  if diff = 0 then { s.dp with diff := 0, pendErr := .ok }
                  else { s.dp with diff := diff, pendErr := .authenticationFailed, scrubPos := 0 }
                phase := if 0 < s.dp.written ∧ diff ≠ 0 then .scrub else .finish
                draws := d }
        else
          t = { s with
            dp := { s.dp with pendErr := .busError, scrubPos := 0 }
            phase := if 0 < s.dp.written then .scrub else .finish }

/-- R180: SCRUB zeroes up to 16 of the output bytes written so far, and nothing else. That it asks ADMIT for none of
them is log 9, read from R180's own inference "its writes are always admitted, since `ADMIT` is fixed and each byte was
admitted when first written [derived: from `00_scope.md` rule R10]". A count below zero is 0 (log 11). -/
def Obligations.ScrubStep : Prop :=
  ∀ (s : State) (n dst : Nat), n = min 16 (s.dp.written - s.dp.scrubPos) →
    dst = outAddr s + s.dp.scrubPos → Memory.wf s.mem →
    ∃ t, exec .scrub s = .next t
      ∧ (∀ x, readByte t.mem x = if dst ≤ x ∧ x < dst + n then 0 else readByte s.mem x)
      ∧ t = { s with
          mem := t.mem
          past := t.past
          dp := { s.dp with scrubPos := s.dp.scrubPos + n }
          phase := if s.dp.scrubPos + n = s.dp.written then .finish else .scrub }

/-- R181, R214: FINISH reports the outcome, zeroes the datapath and the latches, clears BUSY and sets DONE; after it
the engine has no step. A BAD word never ends with OK (R176). -/
def Obligations.FinishStep : Prop :=
  ∀ s : State, (∀ w, decodeCommand s.latch.cmdWord = .bad w → s.dp.pendErr ≠ .ok) →
    (∀ t, exec .finish s = .next t → EngineIsNext t → step t = .next (dropTurn t))
    ∧ exec .finish s = .next
      { s with
        err := s.dp.pendErr
        outLen :=
          if s.dp.pendErr = .ok then
            match decodeCommand s.latch.cmdWord with
            | .seal _ => s.dp.m + s.active.t.setWidth 64
            | .openCmd _ => s.dp.m
            | _ => 0
          else 0
        dp := { y := 0, a := 0, s0 := 0, p := 0, j := 0, nAD := 0, i := 0, nTxt := 0, m := 0, written := 0,
                scrubPos := 0, diff := 0, pendErr := .ok }
        latch := { cmdWord := 0, cfg := 0, nonce := 0, adAddr := 0, adLen := 0, inAddr := 0, inLen := 0,
                   outAddr := 0 }
        busy := false
        done := true
        phase := .idle
        past := [] }

/-- R10, R68, R213: addresses do not wrap; a read that reaches 2^64 is refused and is a BusError, in MAC_AD,
TEXT_CTR and TAG alike, whatever ADMIT says. Each clause names a byte that the rule reads: of the associated data, of
a text block within the payload (no other has a rule: log 11), of the tag. -/
def Obligations.AddressesDoNotWrap : Prop :=
  ∀ s t : State,
    t = { s with
      dp := { s.dp with pendErr := .busError, scrubPos := 0 }
      phase := if 0 < s.dp.written then .scrub else .finish } →
    ((∃ m < 16, (adPrefix (adLen s)).length ≤ 16 * s.dp.j + m
          ∧ 16 * s.dp.j + m < (adPrefix (adLen s)).length + adLen s
          ∧ 2 ^ 64 ≤ adAddr s + (16 * s.dp.j + m - (adPrefix (adLen s)).length)) →
        exec .macAd s = .next t)
      ∧ (1 ≤ s.dp.i → 16 * (s.dp.i - 1) < payloadLen s →
          (∃ k < min 16 (payloadLen s - 16 * (s.dp.i - 1)),
            2 ^ 64 ≤ inAddr s + 16 * (s.dp.i - 1) + k) → exec .textCtr s = .next t)
      ∧ (∀ l, decodeCommand s.latch.cmdWord = .openCmd l →
          (∃ k < s.active.t.toNat, 2 ^ 64 ≤ inAddr s + payloadLen s + k) → exec .tag s = .next t)

/-- R73, item 5 of 93_implementation_defined.md: where a read of the engine (of associated data, text or tag) has all
its accesses admitted, each byte it answers from memory is the byte now at its address or one overwritten there while
the command ran, whichever the draw says, and every such byte is the answer under some draws; a constant is itself.
That the overwritten bytes are kept in `past` and the draws are counted in `draws` is log 7. -/
def Obligations.RacedBytesAreOldOrNew : Prop :=
  (∀ (cfg : Config.Platform) (s : State) (xs : List ByteSource) (bs : List Byte) (d : Nat),
      readSources cfg s xs = some (bs, d) →
      bs.length = xs.length ∧ s.draws ≤ d
        ∧ ∀ k a c, (xs[k]? = some (.const c) → bs.getD k 0 = c)
            ∧ (xs[k]? = some (.mem a) → MayRead s a (bs.getD k 0)))
    ∧ ∀ (cfg : Config.Platform) (s : State) (a : Nat) (b : Byte), admitted cfg a .read = true →
        MayRead s a b →
        ∃ draw d, readSources { cfg with raceDraw := draw } s [.mem a] = some ([b], d)

/-! ### Frames -/

/-- The micro-ops before FINISH leave the host's registers, BUSY, DONE, OVR, ERR, OUT_LEN and the latches alone; only
CHECK writes the configuration, and CONFIGURED with it (R26 to R31, R38, R42, R43). -/
def Obligations.MicroOpsLeaveTheHostSide : Prop :=
  ∀ i ∈ [Instr.check, .macB0, .macAd, .ctrS0, .textCtr, .textMac, .tag, .scrub],
    ∀ s t : State, exec i s = .next t →
      t.regs = s.regs ∧ t.busy = s.busy ∧ t.done = s.done ∧ t.ovr = s.ovr ∧ t.err = s.err
        ∧ t.outLen = s.outLen ∧ t.latch = s.latch ∧ t.turns = s.turns ∧ t.resp = s.resp
        ∧ (i ≠ .check → t.active = s.active)

/-- Which bytes each instruction can change (R62, R154, R178, R179, R180, R124, R175): none for a command word and
for CHECK, MAC_B0, MAC_AD, CTR_S0, TEXT_MAC, FINISH and the TAG of an OPEN; else only the bytes it stores, in states
that no run reaches at the addresses of log 11. -/
def Obligations.MemoryFrames : Prop :=
  (∀ i : Instr, i ≠ .textCtr → i ≠ .tag → i ≠ .scrub →
      ∀ s t : State, exec i s = .next t → ∀ x, readByte t.mem x = readByte s.mem x)
    ∧ (∀ (s t : State) (l : BitVec 4), decodeCommand s.latch.cmdWord = .openCmd l →
        exec .tag s = .next t → ∀ x, readByte t.mem x = readByte s.mem x)
    ∧ (∀ s t : State, exec .textCtr s = .next t →
        ∀ x, ¬(outAddr s + textBase s ≤ x ∧ x < outAddr s + textBase s + textCount s) →
          readByte t.mem x = readByte s.mem x)
    ∧ (∀ (s t : State) (l : BitVec 4), decodeCommand s.latch.cmdWord = .seal l →
        exec .tag s = .next t →
        ∀ x, ¬(outAddr s + payloadLen s ≤ x ∧ x < outAddr s + payloadLen s + tagLen s) →
          readByte t.mem x = readByte s.mem x)
    ∧ (∀ s t : State, exec .scrub s = .next t →
        ∀ x, ¬(outAddr s + s.dp.scrubPos ≤ x ∧ x < outAddr s + s.dp.scrubPos + scrubCount s) →
          readByte t.mem x = readByte s.mem x)

/-- R140: `Y` is written only by MAC_B0, MAC_AD, TEXT_MAC, FINISH and reset; the CTR micro-ops neither read nor
write `Y`; the MAC micro-ops neither read nor write `A` or `S0`. -/
def Obligations.MacAndCtrKeepApart : Prop :=
  (∀ s t : State, step s = .next t → t.dp.y ≠ s.dp.y →
      EngineIsNext s ∧ s.busy = true ∧ s.phase ∈ [Phase.macB0, .macAd, .textMac, .finish] ∨ ResetIsNext s)
    ∧ (∀ i ∈ [Instr.ctrS0, .textCtr], ∀ (s t : State) (y : Block), exec i s = .next t →
        t.dp.y = s.dp.y
          ∧ exec i { s with dp := { s.dp with y := y } } = .next { t with dp := { t.dp with y := y } })
    ∧ (∀ i ∈ [Instr.macB0, .macAd, .textMac], ∀ (s t : State) (a s0 : Block), exec i s = .next t →
        t.dp.a = s.dp.a ∧ t.dp.s0 = s.dp.s0
          ∧ exec i { s with dp := { s.dp with a := a, s0 := s0 } }
              = .next { t with dp := { t.dp with a := a, s0 := s0 } })

/-! ### Formats -/

/-- R150: `inc` adds 1 to the last `L` bytes modulo 2^(8L), leaves the flag byte and the nonce, and takes
`A_i` to `A_(i+1)`. -/
def Obligations.CounterIncrement : Prop :=
  (∀ (L : Nat) (a : Block), L ≤ 15 →
      (∀ k < 16 - L, byteOf (inc L a) k = byteOf a k)
        ∧ bytesNat ((blockBytes (inc L a)).drop (16 - L))
            = (bytesNat ((blockBytes a).drop (16 - L)) + 1) % 2 ^ (8 * L))
    ∧ ∀ (nonce : List Byte) (i : Nat), nonce.length ≤ 14 → i + 1 < 2 ^ (8 * (15 - nonce.length)) →
        inc (15 - nonce.length) (ctrBlock nonce i) = ctrBlock nonce (i + 1)

/-- R88 to R91: byte by byte, B0 and the counter blocks. The bit positions of B0's flag byte are the spec's general
knowledge (log 16). -/
def Obligations.BlockLayouts : Prop :=
  ∀ (nonce : List Byte) (L : Nat), 7 ≤ nonce.length → nonce.length ≤ 13 → L = 15 - nonce.length →
    (∀ (hasAD : Bool) (t m : Nat), t ∈ [4, 6, 8, 10, 12, 14, 16] → m < 2 ^ (8 * L) →
        (byteOf (fmtB0 hasAD t nonce m) 0).getLsbD 7 = false
          ∧ (byteOf (fmtB0 hasAD t nonce m) 0).getLsbD 6 = hasAD
          ∧ ((byteOf (fmtB0 hasAD t nonce m) 0).extractLsb' 3 3).toNat = (t - 2) / 2
          ∧ ((byteOf (fmtB0 hasAD t nonce m) 0).extractLsb' 0 3).toNat = L - 1
          ∧ (blockBytes (fmtB0 hasAD t nonce m)).extract 1 (nonce.length + 1) = nonce
          ∧ bytesNat ((blockBytes (fmtB0 hasAD t nonce m)).drop (nonce.length + 1)) = m)
      ∧ ∀ i : Nat, i < 2 ^ (8 * L) →
          (byteOf (ctrBlock nonce i) 0).toNat = L - 1
            ∧ (blockBytes (ctrBlock nonce i)).extract 1 (nonce.length + 1) = nonce
            ∧ bytesNat ((blockBytes (ctrBlock nonce i)).drop (nonce.length + 1)) = i

/-- R92, R93: the three classes of the associated-data prefix, their markers, lengths and values, and the number
of blocks, none of them all padding. The byte order of the length is the spec's general knowledge (log 16). -/
def Obligations.AdPrefixClasses : Prop :=
  ∀ a : Nat, 0 < a → a < 2 ^ 64 →
    (a < 65280 → (adPrefix a).length = 2 ∧ bytesNat (adPrefix a) = a)
      ∧ (65280 ≤ a → a < 2 ^ 32 →
          (adPrefix a).length = 6 ∧ (adPrefix a).take 2 = [0xFF, 0xFE]
            ∧ bytesNat ((adPrefix a).drop 2) = a)
      ∧ (2 ^ 32 ≤ a →
          (adPrefix a).length = 10 ∧ (adPrefix a).take 2 = [0xFF, 0xFF]
            ∧ bytesNat ((adPrefix a).drop 2) = a)
      ∧ 16 * (adBlockCount a - 1) < (adPrefix a).length + a
      ∧ (adPrefix a).length + a ≤ 16 * adBlockCount a

/-- R172: `ctEq` of two sequences of one length says whether all byte pairs are equal. -/
def Obligations.TagComparisonIsEquality : Prop :=
  ∀ x y : List Byte, x.length = y.length → (ctEq x y = true ↔ x = y)

/-- R151: the CTR pass is its own inverse, keeps the length, and is the bytewise XOR with the keystream of the
counter values 1, 2, … -/
def Obligations.CtrPassIsSelfInverse : Prop :=
  ∀ (cfg : Config.Platform) (nonce data : List Byte),
    ctrXor cfg nonce (ctrXor cfg nonce data) = data
      ∧ (ctrXor cfg nonce data).length = data.length
      ∧ ∀ b m, m < 16 → 16 * b + m < data.length →
          (ctrXor cfg nonce data).getD (16 * b + m) 0
            = data.getD (16 * b + m) 0 ^^^ byteOf (cfg.cipher.encrypt (ctrBlock nonce (b + 1))) m

/-! ### Invariants -/

/-- The reset state meets every invariant (R47, R48, R43). -/
def Obligations.ResetMeetsTheInvariants : Prop :=
  RegisterInv State.reset ∧ FlightInv platform State.reset

/-- R43, R48: whatever the turn, a step keeps the idle engine clean, the configuration legal, DONE and BUSY apart,
and the memory in its canonical form. -/
def Obligations.StepKeepsRegisterInvariant : Prop :=
  ∀ s t : State, RegisterInv s → step s = .next t → RegisterInv t

/-- R153 to R157, R174, R177: whatever the turn, a step keeps the command in flight where R177 says it is; in the
text phases the counter block is the one of the block's own counter value, so none repeats and none wraps. -/
def Obligations.StepKeepsFlightInvariant : Prop :=
  ∀ s t : State, RegisterInv s → FlightInv platform s → step s = .next t → FlightInv platform t

/-- R130, R139, R151, R156, R170, R171, R180, R182: an engine step keeps the command's progress towards what the
functional rules say, in every phase, in place or not; after a failure it keeps the scrubbed bytes zero. -/
def Obligations.EngineStepKeepsProgress : Prop :=
  ∀ (m0 : Memory) (s t : State), RegisterInv s → FlightInv platform s → ProgressInv platform m0 s →
    EngineIsNext s → step s = .next t → ProgressInv platform m0 t

/-- R173: an accepted command starts with progress over the memory it finds. -/
def Obligations.AcceptanceStartsProgress : Prop :=
  ∀ s t : State, RegisterInv s → s.busy = false → CommandIsNext s → step s = .next t →
    ProgressInv platform s.mem t ∧ FlightInv platform t ∧ t.phase = .check

/-! ### Whole runs -/

/-- R177: the phase after each engine step of a command. SCRUB is entered only after a failure (R180). -/
def Obligations.PhaseSequence : Prop :=
  ∀ s t : State, RegisterInv s → FlightInv platform s → s.busy = true → EngineIsNext s → step s = .next t →
    (s.phase, t.phase) ∈
        [(Phase.check, Phase.macB0), (.check, .finish), (.macB0, .macAd), (.macB0, .ctrS0), (.macAd, .macAd),
          (.macAd, .ctrS0), (.macAd, .finish), (.ctrS0, .textCtr), (.ctrS0, .tag), (.textCtr, .textMac),
          (.textCtr, .scrub), (.textCtr, .finish), (.textMac, .textCtr), (.textMac, .tag), (.tag, .scrub),
          (.tag, .finish), (.scrub, .scrub), (.scrub, .finish), (.finish, .idle)]
      ∧ (t.phase = .scrub → t.dp.pendErr = .authenticationFailed ∨ t.dp.pendErr = .busError)

/-- R187: every engine step of a command lowers a natural number. -/
def Obligations.EngineStepLowersTheMeasure : Prop :=
  ∀ s t : State, RegisterInv s → FlightInv platform s → s.busy = true → EngineIsNext s → step s = .next t →
    stepsLeft t < stepsLeft s

/-- R187: a command left to the engine reaches FINISH within `stepsLeft` steps, unless the model refuses its
buffers (R69). That the refusal comes at CHECK is the model's choice (log 8). -/
def Obligations.CommandsTerminate : Prop :=
  ∀ s : State, RegisterInv s → FlightInv platform s → s.turns = [] →
    (∃ k ≤ stepsLeft s, ∃ t, Host.Core.run Sys2Proof.core k s = .next t ∧ t.busy = false)
      ∨ s.phase = .check ∧ step s = .refused .overlappingBuffers

/-- R62: an engine step of a command in flight changes no byte outside the command's output region. -/
def Obligations.EngineWritesOnlyTheOutputRegion : Prop :=
  ∀ s t : State, FlightInv platform s → EngineIsNext s → step s = .next t →
    ∀ x, ¬(outAddr s ≤ x ∧ x < outAddr s + outSize s) → readByte t.mem x = readByte s.mem x

/-- R95, R170, R177, R247: a SEAL that passes its checks, left to the engine, ends in one of two ways. With OK:
after `5 + nAD + 2 nTxt` engine steps, the output region holds ciphertext and tag, OUT_LEN is their length, and
no other byte changed. With BusError: OUT_LEN is 0 and every output byte it wrote is zero. It is OK when ADMIT lets
every access to the command's regions happen. In both, the engine is busy after every smaller number of steps, nothing
of the command is left in the engine and the configuration stands. -/
def Obligations.SealRun : Prop :=
  ∀ (s u : State) (n : BitVec 4), RegisterInv s → s.busy = false → s.turns = [] → s.active.valid = true →
    n = s.active.n → s.regs.inLen.toNat < 2 ^ (8 * (15 - n.toNat)) → exec (.seal n) s = .next u →
    overlapUndefined { u with dp := { u.dp with m := s.regs.inLen } } = false →
    ∃ k t, (∀ j < k, ∃ r, Host.Core.run Sys2Proof.core j u = .next r ∧ r.busy = true)
      ∧ Host.Core.run Sys2Proof.core k u = .next t ∧ t.busy = false ∧ t.done = true
      ∧ t.dp = zeroDatapath ∧ t.latch = zeroLatches ∧ t.active = s.active ∧ t.regs = s.regs
      ∧ (RegionAdmitted platform .read s.regs.adAddr.toNat s.regs.adLen.toNat →
          RegionAdmitted platform .read s.regs.inAddr.toNat s.regs.inLen.toNat →
          RegionAdmitted platform .write s.regs.outAddr.toNat
            (s.regs.inLen.toNat + s.active.t.toNat) → t.err = .ok)
      ∧ (t.err = .ok
            ∧ k = 5 + adBlockCount s.regs.adLen.toNat + 2 * ceil16 s.regs.inLen.toNat
            ∧ t.outLen = s.regs.inLen + s.active.t.setWidth 64
            ∧ MemHolds t.mem s.mem s.regs.outAddr.toNat (s.regs.inLen.toNat + s.active.t.toNat)
                (sealOutput platform s.active.t.toNat ((blockBytes (nonceBlock s.regs)).take n.toNat)
                  (readRegion s.mem s.regs.adAddr.toNat s.regs.adLen.toNat)
                  (readRegion s.mem s.regs.inAddr.toNat s.regs.inLen.toNat))
          ∨ t.err = .busError ∧ t.outLen = 0
            ∧ ∃ w ≤ s.regs.inLen.toNat + s.active.t.toNat,
                MemKeeps t.mem s.mem s.regs.outAddr.toNat w ∧ MemZero t.mem s.regs.outAddr.toNat w)

/-- R96, R171, R182: an OPEN that passes its checks, left to the engine, ends in one of three ways. With OK: the
tag matched, the output region holds the recovered plaintext, OUT_LEN is its length. With AuthenticationFailed: the
tag did not match, and with BusError as well, OUT_LEN is 0 and every output byte it wrote is zero. The first two take
R247's numbers of engine steps; there is no BusError when ADMIT lets every access to the command's regions happen. In
all, the engine is busy after every smaller number of steps, and nothing of the command is left in the engine. -/
def Obligations.OpenRun : Prop :=
  ∀ (s u : State) (n : BitVec 4) (M T : Nat) (result : Except ErrCode (List Byte)),
    RegisterInv s → s.busy = false → s.turns = [] → s.active.valid = true → n = s.active.n →
    T = s.active.t.toNat → M + T = s.regs.inLen.toNat → M < 2 ^ (8 * (15 - n.toNat)) →
    exec (.openCmd n) s = .next u →
    overlapUndefined { u with dp := { u.dp with m := BitVec.ofNat 64 M } } = false →
    result = openOutput platform T ((blockBytes (nonceBlock s.regs)).take n.toNat)
      (readRegion s.mem s.regs.adAddr.toNat s.regs.adLen.toNat)
      (readRegion s.mem s.regs.inAddr.toNat M) (readRegion s.mem (s.regs.inAddr.toNat + M) T) →
    ∃ k t, (∀ j < k, ∃ r, Host.Core.run Sys2Proof.core j u = .next r ∧ r.busy = true)
      ∧ Host.Core.run Sys2Proof.core k u = .next t ∧ t.busy = false ∧ t.done = true
      ∧ t.dp = zeroDatapath ∧ t.latch = zeroLatches ∧ t.active = s.active ∧ t.regs = s.regs
      ∧ (RegionAdmitted platform .read s.regs.adAddr.toNat s.regs.adLen.toNat →
          RegionAdmitted platform .read s.regs.inAddr.toNat (M + T) →
          RegionAdmitted platform .write s.regs.outAddr.toNat M → t.err ≠ .busError)
      ∧ (t.err = .ok ∧ k = 5 + adBlockCount s.regs.adLen.toNat + 2 * ceil16 M
            ∧ t.outLen = BitVec.ofNat 64 M
            ∧ ∃ pt, result = .ok pt ∧ MemHolds t.mem s.mem s.regs.outAddr.toNat M pt
          ∨ t.err = .authenticationFailed ∧ k = 5 + adBlockCount s.regs.adLen.toNat + 3 * ceil16 M
            ∧ t.outLen = 0 ∧ result = .error .authenticationFailed
            ∧ MemKeeps t.mem s.mem s.regs.outAddr.toNat M ∧ MemZero t.mem s.regs.outAddr.toNat M
          ∨ t.err = .busError ∧ t.outLen = 0
            ∧ ∃ w ≤ M, MemKeeps t.mem s.mem s.regs.outAddr.toNat w
                ∧ MemZero t.mem s.regs.outAddr.toNat w)

/-! ### Cryptographic properties -/

/-- R184: OPEN of what SEAL wrote, under the same configuration, nonce and associated data, gives the plaintext
back. -/
def Obligations.OpenInvertsSeal : Prop :=
  ∀ (cfg : Config.Platform) (t : Nat) (nonce ad plain out : List Byte), t ≤ 16 →
    out = sealOutput cfg t nonce ad plain →
    out.length = plain.length + t
      ∧ openOutput cfg t nonce ad (out.take plain.length) (out.drop plain.length) = .ok plain

/-- R186 (a), (b). With ciphertext and associated data unchanged, every other received tag of the right length is
refused. Under an injective cipher and `t = 16`, a change inside one block of the ciphertext, or inside the
associated data's bytes of one block, is always detected. -/
def Obligations.TamperingIsDetected : Prop :=
  (∀ (cfg : Config.Platform) (t : Nat) (nonce ad ct tag tag' plain : List Byte), t ≤ 16 →
      tag.length = t → tag'.length = t → openOutput cfg t nonce ad ct tag = .ok plain → tag' ≠ tag →
      openOutput cfg t nonce ad ct tag' = .error .authenticationFailed)
    ∧ ∀ (cfg : Config.Platform) (nonce ad ad' ct ct' tag plain : List Byte) (b : Nat),
        (∀ x y, cfg.cipher.encrypt x = cfg.cipher.encrypt y → x = y) → tag.length = 16 →
        openOutput cfg 16 nonce ad ct tag = .ok plain →
        (ad' = ad ∧ ct' ≠ ct ∧ ct'.length = ct.length
            ∧ (∀ k, k / 16 ≠ b → ct'.getD k 0 = ct.getD k 0)
          ∨ ct' = ct ∧ ad' ≠ ad ∧ ad'.length = ad.length
            ∧ (∀ k, (k + (adPrefix ad.length).length) / 16 ≠ b → ad'.getD k 0 = ad.getD k 0)) →
        openOutput cfg 16 nonce ad' ct' tag = .error .authenticationFailed

/-- R248: two runs that differ only in data bytes take the same phases and counts; only TAG's comparison can tell
them apart, and only by its outcome. -/
def Obligations.DataDoesNotSteerTheEngine : Prop :=
  ∀ s1 s2 t1 t2 : State, SameShape s1 s2 → EngineIsNext s1 → EngineIsNext s2 → step s1 = .next t1 →
    step s2 = .next t2 →
    (s1.phase ≠ .tag → t1.dp.pendErr = t2.dp.pendErr) ∧ (t1.dp.pendErr = t2.dp.pendErr → SameShape t1 t2)

/-- R42, R75: no micro-op reads a host-visible register: with other values in them it does the same. -/
def Obligations.LatchesShieldTheCommand : Prop :=
  ∀ i ∈ [Instr.check, .macB0, .macAd, .ctrS0, .textCtr, .textMac, .tag, .scrub, .finish],
    ∀ (s t : State) (regs : HostRegs), exec i s = .next t →
      exec i { s with regs := regs } = .next { t with regs := regs }

/-- R45: no register shows the datapath, the latches, the memory or the draws; only `phase` is visible. -/
def Obligations.InternalsAreInvisible : Prop :=
  ∀ (s : State) (dp : Datapath) (latch : Latches) (mem past : Memory) (draws : Nat) (r : Reg),
    readReg { s with dp := dp, latch := latch, mem := mem, past := past, draws := draws } r = readReg s r
end

