-- ==== Sys2Proof/Laws/Formats.lean ====
section
/-! SUPPORT. The laws of bytes and blocks: a block is its 16 bytes, big-endian values, the lengths of the formats. -/

namespace Sys2Proof.Machine

open Sys2Proof.Config (Platform)

/-! ### Byte sequences as numbers -/

theorem bytesNat_foldl (l : List Byte) (n : Nat) :
    l.foldl (fun n b => 256 * n + b.toNat) n = n * 256 ^ l.length + bytesNat l := by
  induction l generalizing n with
  | nil => simp [bytesNat]
  | cons b l ih =>
    simp only [List.foldl_cons, bytesNat, List.length_cons]
    rw [ih, ih (256 * 0 + b.toNat), Nat.pow_succ]
    ring

@[simp] theorem bytesNat_nil : bytesNat [] = 0 := rfl

theorem bytesNat_append (l m : List Byte) : bytesNat (l ++ m) = bytesNat l * 256 ^ m.length + bytesNat m := by
  simp only [bytesNat, List.foldl_append]
  exact bytesNat_foldl m _

theorem bytesNat_cons (b : Byte) (l : List Byte) : bytesNat (b :: l) = b.toNat * 256 ^ l.length + bytesNat l := by
  have := bytesNat_append [b] l
  simpa [bytesNat] using this

theorem bytesNat_lt (l : List Byte) : bytesNat l < 256 ^ l.length := by
  induction l with
  | nil => simp
  | cons b l ih =>
    rw [bytesNat_cons, List.length_cons, Nat.pow_succ]
    have hb : b.toNat < 256 := b.isLt
    nlinarith [Nat.mul_le_mul_right (256 ^ l.length) (Nat.lt_succ_iff.mp (Nat.lt_succ_of_lt hb))]

@[simp] theorem bytesNat_replicate_zero (n : Nat) : bytesNat (List.replicate n 0) = 0 := by
  induction n with
  | zero => rfl
  | succ n ih => rw [List.replicate_succ, bytesNat_cons, ih]; simp

/-- Byte `k` of a sequence, read off its value. -/
theorem bytesNat_digit (l : List Byte) (k : Nat) (h : k < l.length) :
    bytesNat l / 256 ^ (l.length - 1 - k) % 256 = (l[k]).toNat := by
  have hsplit : l = l.take (k + 1) ++ l.drop (k + 1) := (List.take_append_drop ..).symm
  have hlen : (l.drop (k + 1)).length = l.length - 1 - k := by simp; omega
  have h1 : bytesNat l = bytesNat (l.take (k + 1)) * 256 ^ (l.length - 1 - k) + bytesNat (l.drop (k + 1)) := by
    conv_lhs => rw [hsplit]
    rw [bytesNat_append, hlen]
  have h2 : bytesNat (l.drop (k + 1)) < 256 ^ (l.length - 1 - k) := hlen ▸ bytesNat_lt _
  rw [h1, Nat.add_comm, Nat.add_mul_div_right _ _ (by positivity), Nat.div_eq_of_lt h2, Nat.zero_add,
    List.take_succ_eq_append_getElem h, bytesNat_append]
  have hb : (l[k]).toNat < 256 := (l[k]).isLt
  simp [bytesNat, Nat.add_mod, Nat.mod_eq_of_lt hb]

/-! ### Big-endian values -/

@[simp] theorem bigEndian_length (L v : Nat) : (bigEndian L v).length = L := by simp [bigEndian]

theorem bigEndian_getElem (L v k : Nat) (h : k < (bigEndian L v).length) :
    (bigEndian L v)[k] = BitVec.ofNat 8 (v / 256 ^ (L - 1 - k)) := by simp [bigEndian]

theorem bigEndian_succ (L v : Nat) :
    bigEndian (L + 1) v = BitVec.ofNat 8 (v / 256 ^ L) :: bigEndian L v := by
  apply List.ext_getElem
  · simp
  · intro k h1 h2
    rw [bigEndian_getElem]
    cases k with
    | zero => simp
    | succ k =>
      simp only [List.getElem_cons_succ, bigEndian_getElem]
      congr 3
      omega

/-- `be_L` keeps the value modulo 2^(8L) (R12). -/
theorem bytesNat_bigEndian (L v : Nat) : bytesNat (bigEndian L v) = v % 256 ^ L := by
  induction L with
  | zero => simp [bigEndian, Nat.mod_one]
  | succ L ih =>
    have h8 : (BitVec.ofNat 8 (v / 256 ^ L)).toNat = v / 256 ^ L % 256 := BitVec.toNat_ofNat ..
    rw [bigEndian_succ, bytesNat_cons, ih, bigEndian_length, h8, Nat.pow_succ, Nat.mod_mul,
      Nat.add_comm, Nat.mul_comm]

/-! ### Blocks -/

@[simp] theorem blockBytes_length (x : Block) : (blockBytes x).length = 16 := by simp [blockBytes]

theorem blockBytes_getElem (x : Block) (k : Nat) (h : k < (blockBytes x).length) :
    (blockBytes x)[k] = byteOf x k := by simp [blockBytes]

theorem byteOf_eq (x : Block) (k : Nat) : byteOf x k = BitVec.ofNat 8 (x.toNat / 256 ^ (15 - k)) := by
  rw [byteOf, BitVec.extractLsb', Nat.shiftRight_eq_div_pow, Nat.pow_mul]

theorem blockOfBytes_toNat (l : List Byte) :
    (blockOfBytes l).toNat = bytesNat ((l ++ List.replicate 16 0).take 16) := by
  rw [blockOfBytes, BitVec.toNat_ofNat]
  apply Nat.mod_eq_of_lt
  have h := bytesNat_lt ((l ++ List.replicate 16 0).take 16)
  have hl : ((l ++ List.replicate 16 (0 : Byte)).take 16).length = 16 := by simp
  rw [hl] at h
  calc _ < 256 ^ 16 := h
    _ = 2 ^ 128 := by norm_num

/-- Byte `k` of a block made of bytes: the `k`-th one, 0 beyond them. -/
theorem byteOf_blockOfBytes (l : List Byte) {k : Nat} (h : k < 16) :
    byteOf (blockOfBytes l) k = l.getD k 0 := by
  have hl : ((l ++ List.replicate 16 (0 : Byte)).take 16).length = 16 := by simp
  have hd := bytesNat_digit ((l ++ List.replicate 16 (0 : Byte)).take 16) k (by rw [hl]; exact h)
  have he : ((l ++ List.replicate 16 (0 : Byte)).take 16).length - 1 - k = 15 - k := by rw [hl]
  rw [he] at hd
  have hg : ((l ++ List.replicate 16 (0 : Byte)).take 16)[k]'(by rw [hl]; exact h) = l.getD k 0 := by
    rw [List.getElem_take]
    by_cases hk : k < l.length
    · rw [List.getElem_append_left hk]
      simp [List.getD, hk]
    · rw [List.getElem_append_right (by omega), List.getElem_replicate]
      simp [List.getD, List.getElem?_eq_none (Nat.le_of_not_lt hk)]
  rw [byteOf_eq, blockOfBytes_toNat]
  apply BitVec.eq_of_toNat_eq
  rw [BitVec.toNat_ofNat, ← hg]
  exact hd

/-- Two blocks with equal bytes are equal. -/
theorem block_ext {x y : Block} (h : ∀ k < 16, byteOf x k = byteOf y k) : x = y := by
  apply BitVec.eq_of_getLsbD_eq
  intro i hi
  have hk := h (15 - i / 8) (by omega)
  have e : ∀ z : Block, (byteOf z (15 - i / 8)).getLsbD (i % 8) = z.getLsbD i := by
    intro z
    have h8 : i % 8 < 8 := Nat.mod_lt _ (by norm_num)
    have hs : 8 * (15 - (15 - i / 8)) + i % 8 = i := by omega
    rw [byteOf, BitVec.getLsbD_extractLsb', hs]
    simp [h8]
  rw [← e x, ← e y, hk]

/-- The block of a block's bytes is the block. -/
@[simp] theorem blockOfBytes_blockBytes (x : Block) : blockOfBytes (blockBytes x) = x := by
  apply block_ext
  intro k hk
  rw [byteOf_blockOfBytes _ hk]
  simp [List.getD, blockBytes, hk]

/-- The bytes of a block of 16 bytes are those bytes. -/
theorem blockBytes_blockOfBytes {l : List Byte} (h : l.length = 16) : blockBytes (blockOfBytes l) = l := by
  apply List.ext_getElem
  · simp [h]
  · intro k h1 h2
    rw [blockBytes_getElem, byteOf_blockOfBytes l (by omega)]
    simp [List.getD, h2]

theorem byteOf_xor (x y : Block) (k : Nat) : byteOf (x ^^^ y) k = byteOf x k ^^^ byteOf y k := by
  simp only [byteOf]
  apply BitVec.eq_of_getLsbD_eq
  intro i hi
  by_cases hb : i < 8 <;> simp [BitVec.getLsbD_extractLsb', hb]

/-! ### Exclusive-or of byte sequences -/

@[simp] theorem xorBytes_length (x y : List Byte) :
    (xorBytes x y).length = min x.length y.length := by simp [xorBytes]

theorem xorBytes_getElem (x y : List Byte) (k : Nat) (h : k < (xorBytes x y).length) :
    (xorBytes x y)[k]
      = x[k]'(by simp at h; omega) ^^^ y[k]'(by simp at h; omega) := by simp [xorBytes]

/-- Exclusive-or is its own inverse on sequences no longer than the mask. -/
theorem xorBytes_self_inverse (x y : List Byte) (h : x.length ≤ y.length) :
    xorBytes (xorBytes x y) y = x := by
  apply List.ext_getElem
  · simp; omega
  · intro k h1 h2
    simp [xorBytes]

/-! ### Lengths -/

theorem ceil16_mul_ge (n : Nat) : n ≤ 16 * ceil16 n := by unfold ceil16; omega

theorem ceil16_le_iff (n k : Nat) : ceil16 n ≤ k ↔ n ≤ 16 * k := by unfold ceil16; omega

theorem ceil16_mono {n m : Nat} (h : n ≤ m) : ceil16 n ≤ ceil16 m := by unfold ceil16; omega

@[simp] theorem blocksOf_length (l : List Byte) : (blocksOf l).length = ceil16 l.length := by simp [blocksOf]

theorem blocksOf_getElem (l : List Byte) (k : Nat) (h : k < (blocksOf l).length) :
    (blocksOf l)[k] = blockOfBytes ((l.drop (16 * k)).take 16) := by simp [blocksOf]

/-- Byte `m` of block `k` of a zero-padded sequence. -/
theorem byteOf_blocksOf (l : List Byte) (k : Nat) (h : k < (blocksOf l).length) {m : Nat} (hm : m < 16) :
    byteOf ((blocksOf l)[k]) m = l.getD (16 * k + m) 0 := by
  rw [blocksOf_getElem, byteOf_blockOfBytes _ hm]
  simp [List.getD, hm]

theorem adPrefix_length (a : Nat) :
    (adPrefix a).length
      = if a = 0 then 0 else if a < 2 ^ 16 - 2 ^ 8 then 2 else if a < 2 ^ 32 then 6 else 10 := by
  unfold adPrefix
  split
  · rfl
  · split
    · simp
    · split <;> simp

theorem adPrefix_length_pos {a : Nat} (h : 0 < a) : 0 < (adPrefix a).length := by
  rw [adPrefix_length]
  split
  · omega
  · split
    · omega
    · split <;> omega

theorem adStreamBlocks_length (ad : List Byte) : (adStreamBlocks ad).length = adBlockCount ad.length := by
  unfold adStreamBlocks adBlockCount
  split <;> simp

/-! ### The CTR pass -/

theorem ctrXorBlock_length (cfg : Platform) (nonce data : List Byte) (b : Nat) :
    (ctrXorBlock cfg nonce data b).length = min 16 (data.length - 16 * b) := by
  simp [ctrXorBlock]

/-- Byte `k` of the CTR pass (R151). -/
theorem ctrXorBlock_getD (cfg : Platform) (nonce data : List Byte) (b m : Nat) (hm : m < 16)
    (h : 16 * b + m < data.length) :
    (ctrXorBlock cfg nonce data b).getD m 0
      = data.getD (16 * b + m) 0 ^^^ byteOf (enc cfg (ctrBlock nonce (b + 1))) m := by
  have h1 : m < (ctrXorBlock cfg nonce data b).length := by rw [ctrXorBlock_length]; omega
  rw [List.getD, List.getElem?_eq_getElem h1]
  simp [ctrXorBlock, xorBytes, blockBytes_getElem, List.getD, List.getElem?_eq_getElem h]

/-- A concatenation of blocks that are full but for the last: its length, and its bytes. -/
theorem flatMap_range_blocks (f : Nat → List Byte) (n M : Nat)
    (hf : ∀ b < n, (f b).length = min 16 (M - 16 * b)) :
    ((List.range n).flatMap f).length = min M (16 * n) ∧
      ∀ b m, b < n → m < 16 → 16 * b + m < M →
        ((List.range n).flatMap f).getD (16 * b + m) 0 = (f b).getD m 0 := by
  induction n with
  | zero => simp
  | succ n ih =>
    obtain ⟨hlen, hget⟩ := ih (fun b hb => hf b (Nat.lt_succ_of_lt hb))
    have hfn := hf n (Nat.lt_succ_self n)
    rw [List.range_succ, List.flatMap_append]
    simp only [List.flatMap_singleton]
    refine ⟨by rw [List.length_append, hlen, hfn]; omega, fun b m hb hm hM => ?_⟩
    rcases Nat.lt_or_ge b n with hbn | hbn
    · rw [← hget b m hbn hm hM]
      simp only [List.getD]
      rw [List.getElem?_append_left (by rw [hlen]; omega)]
    · have hbe : b = n := by omega
      subst hbe
      simp only [List.getD]
      rw [List.getElem?_append_right (by rw [hlen]; omega), hlen]
      congr 2
      omega

theorem ctrXor_length (cfg : Platform) (nonce data : List Byte) :
    (ctrXor cfg nonce data).length = data.length := by
  have h := (flatMap_range_blocks (ctrXorBlock cfg nonce data) (ceil16 data.length) data.length
    (fun b _ => ctrXorBlock_length ..)).1
  rw [ctrXor, h]
  have := ceil16_mul_ge data.length
  omega

/-- Byte `16 b + m` of the CTR pass (R151). -/
theorem ctrXor_getD (cfg : Platform) (nonce data : List Byte) (b m : Nat) (hm : m < 16)
    (h : 16 * b + m < data.length) :
    (ctrXor cfg nonce data).getD (16 * b + m) 0
      = data.getD (16 * b + m) 0 ^^^ byteOf (enc cfg (ctrBlock nonce (b + 1))) m := by
  have hb : b < ceil16 data.length := by
    have := ceil16_mul_ge data.length
    omega
  rw [ctrXor, (flatMap_range_blocks (ctrXorBlock cfg nonce data) (ceil16 data.length) data.length
    (fun b _ => ctrXorBlock_length ..)).2 b m hb hm h, ctrXorBlock_getD cfg nonce data b m hm h]

/-- Block `b` of the CTR pass (R151). -/
theorem ctrXor_block (cfg : Platform) (nonce data : List Byte) (b : Nat) :
    ((ctrXor cfg nonce data).drop (16 * b)).take 16 = ctrXorBlock cfg nonce data b := by
  apply List.ext_getElem
  · rw [List.length_take, List.length_drop, ctrXor_length, ctrXorBlock_length]
  · intro m h1 h2
    have hl := ctrXorBlock_length cfg nonce data b
    have hm : m < 16 := by rw [hl] at h2; omega
    have hM : 16 * b + m < data.length := by rw [hl] at h2; omega
    have e1 := ctrXor_getD cfg nonce data b m hm hM
    have e2 := ctrXorBlock_getD cfg nonce data b m hm hM
    rw [← e2] at e1
    rw [List.getElem_take, List.getElem_drop]
    simp only [List.getD] at e1
    rwa [List.getElem?_eq_getElem h2, List.getElem?_eq_getElem (by rw [ctrXor_length]; exact hM)] at e1

end Sys2Proof.Machine
end

