-- ==== Sys2Proof/Laws/State.lean ====
section
/-! SUPPORT. One lemma per field of State and per named update of it: what the update leaves and what it sets. -/

namespace Sys2Proof.Machine

/-! ### storeByte -/

@[simp] theorem storeByte_regs (s : State) (a : Nat) (b : Byte) :
    (storeByte s a b).regs = s.regs := rfl

@[simp] theorem storeByte_busy (s : State) (a : Nat) (b : Byte) :
    (storeByte s a b).busy = s.busy := rfl

@[simp] theorem storeByte_done (s : State) (a : Nat) (b : Byte) :
    (storeByte s a b).done = s.done := rfl

@[simp] theorem storeByte_ovr (s : State) (a : Nat) (b : Byte) :
    (storeByte s a b).ovr = s.ovr := rfl

@[simp] theorem storeByte_err (s : State) (a : Nat) (b : Byte) :
    (storeByte s a b).err = s.err := rfl

@[simp] theorem storeByte_outLen (s : State) (a : Nat) (b : Byte) :
    (storeByte s a b).outLen = s.outLen := rfl

@[simp] theorem storeByte_phase (s : State) (a : Nat) (b : Byte) :
    (storeByte s a b).phase = s.phase := rfl

@[simp] theorem storeByte_active (s : State) (a : Nat) (b : Byte) :
    (storeByte s a b).active = s.active := rfl

@[simp] theorem storeByte_dp (s : State) (a : Nat) (b : Byte) :
    (storeByte s a b).dp = s.dp := rfl

@[simp] theorem storeByte_latch (s : State) (a : Nat) (b : Byte) :
    (storeByte s a b).latch = s.latch := rfl

@[simp] theorem storeByte_mem (s : State) (a : Nat) (b : Byte) :
    (storeByte s a b).mem = writeByte s.mem a b := rfl

@[simp] theorem storeByte_past (s : State) (a : Nat) (b : Byte) :
    (storeByte s a b).past = if s.busy then (a, readByte s.mem a) :: s.past else s.past := rfl

@[simp] theorem storeByte_draws (s : State) (a : Nat) (b : Byte) :
    (storeByte s a b).draws = s.draws := rfl

@[simp] theorem storeByte_turns (s : State) (a : Nat) (b : Byte) :
    (storeByte s a b).turns = s.turns := rfl

@[simp] theorem storeByte_resp (s : State) (a : Nat) (b : Byte) :
    (storeByte s a b).resp = s.resp := rfl

/-! ### failCheck -/

@[simp] theorem failCheck_regs (e : ErrCode) (s : State) :
    (failCheck e s).regs = s.regs := rfl

@[simp] theorem failCheck_busy (e : ErrCode) (s : State) :
    (failCheck e s).busy = s.busy := rfl

@[simp] theorem failCheck_done (e : ErrCode) (s : State) :
    (failCheck e s).done = s.done := rfl

@[simp] theorem failCheck_ovr (e : ErrCode) (s : State) :
    (failCheck e s).ovr = s.ovr := rfl

@[simp] theorem failCheck_err (e : ErrCode) (s : State) :
    (failCheck e s).err = s.err := rfl

@[simp] theorem failCheck_outLen (e : ErrCode) (s : State) :
    (failCheck e s).outLen = s.outLen := rfl

@[simp] theorem failCheck_phase (e : ErrCode) (s : State) :
    (failCheck e s).phase = .finish := rfl

@[simp] theorem failCheck_active (e : ErrCode) (s : State) :
    (failCheck e s).active = s.active := rfl

@[simp] theorem failCheck_dp (e : ErrCode) (s : State) :
    (failCheck e s).dp = { s.dp with pendErr := e } := rfl

@[simp] theorem failCheck_latch (e : ErrCode) (s : State) :
    (failCheck e s).latch = s.latch := rfl

@[simp] theorem failCheck_mem (e : ErrCode) (s : State) :
    (failCheck e s).mem = s.mem := rfl

@[simp] theorem failCheck_past (e : ErrCode) (s : State) :
    (failCheck e s).past = s.past := rfl

@[simp] theorem failCheck_draws (e : ErrCode) (s : State) :
    (failCheck e s).draws = s.draws := rfl

@[simp] theorem failCheck_turns (e : ErrCode) (s : State) :
    (failCheck e s).turns = s.turns := rfl

@[simp] theorem failCheck_resp (e : ErrCode) (s : State) :
    (failCheck e s).resp = s.resp := rfl

/-! ### raiseBusError -/

@[simp] theorem raiseBusError_regs (s : State) :
    (raiseBusError s).regs = s.regs := rfl

@[simp] theorem raiseBusError_busy (s : State) :
    (raiseBusError s).busy = s.busy := rfl

@[simp] theorem raiseBusError_done (s : State) :
    (raiseBusError s).done = s.done := rfl

@[simp] theorem raiseBusError_ovr (s : State) :
    (raiseBusError s).ovr = s.ovr := rfl

@[simp] theorem raiseBusError_err (s : State) :
    (raiseBusError s).err = s.err := rfl

@[simp] theorem raiseBusError_outLen (s : State) :
    (raiseBusError s).outLen = s.outLen := rfl

@[simp] theorem raiseBusError_phase (s : State) :
    (raiseBusError s).phase = afterFailure s := rfl

@[simp] theorem raiseBusError_active (s : State) :
    (raiseBusError s).active = s.active := rfl

@[simp] theorem raiseBusError_dp (s : State) :
    (raiseBusError s).dp = { s.dp with pendErr := .busError, scrubPos := 0 } := rfl

@[simp] theorem raiseBusError_latch (s : State) :
    (raiseBusError s).latch = s.latch := rfl

@[simp] theorem raiseBusError_mem (s : State) :
    (raiseBusError s).mem = s.mem := rfl

@[simp] theorem raiseBusError_past (s : State) :
    (raiseBusError s).past = s.past := rfl

@[simp] theorem raiseBusError_draws (s : State) :
    (raiseBusError s).draws = s.draws := rfl

@[simp] theorem raiseBusError_turns (s : State) :
    (raiseBusError s).turns = s.turns := rfl

@[simp] theorem raiseBusError_resp (s : State) :
    (raiseBusError s).resp = s.resp := rfl

/-! ### beginText -/

@[simp] theorem beginText_regs (mc : Nat) (s : State) :
    (beginText mc s).regs = s.regs := rfl

@[simp] theorem beginText_busy (mc : Nat) (s : State) :
    (beginText mc s).busy = s.busy := rfl

@[simp] theorem beginText_done (mc : Nat) (s : State) :
    (beginText mc s).done = s.done := rfl

@[simp] theorem beginText_ovr (mc : Nat) (s : State) :
    (beginText mc s).ovr = s.ovr := rfl

@[simp] theorem beginText_err (mc : Nat) (s : State) :
    (beginText mc s).err = s.err := rfl

@[simp] theorem beginText_outLen (mc : Nat) (s : State) :
    (beginText mc s).outLen = s.outLen := rfl

@[simp] theorem beginText_phase (mc : Nat) (s : State) :
    (beginText mc s).phase = .macB0 := rfl

@[simp] theorem beginText_active (mc : Nat) (s : State) :
    (beginText mc s).active = s.active := rfl

@[simp] theorem beginText_dp (mc : Nat) (s : State) :
    (beginText mc s).dp = { s.dp with m := BitVec.ofNat 64 mc, nTxt := ceil16 mc, written := 0 } := rfl

@[simp] theorem beginText_latch (mc : Nat) (s : State) :
    (beginText mc s).latch = s.latch := rfl

@[simp] theorem beginText_mem (mc : Nat) (s : State) :
    (beginText mc s).mem = s.mem := rfl

@[simp] theorem beginText_past (mc : Nat) (s : State) :
    (beginText mc s).past = s.past := rfl

@[simp] theorem beginText_draws (mc : Nat) (s : State) :
    (beginText mc s).draws = s.draws := rfl

@[simp] theorem beginText_turns (mc : Nat) (s : State) :
    (beginText mc s).turns = s.turns := rfl

@[simp] theorem beginText_resp (mc : Nat) (s : State) :
    (beginText mc s).resp = s.resp := rfl

/-! ### checkConfig -/

@[simp] theorem checkConfig_regs (cfg : Config.Platform) (s : State) :
    (checkConfig cfg s).regs = s.regs := rfl

@[simp] theorem checkConfig_busy (cfg : Config.Platform) (s : State) :
    (checkConfig cfg s).busy = s.busy := rfl

@[simp] theorem checkConfig_done (cfg : Config.Platform) (s : State) :
    (checkConfig cfg s).done = s.done := rfl

@[simp] theorem checkConfig_ovr (cfg : Config.Platform) (s : State) :
    (checkConfig cfg s).ovr = s.ovr := rfl

@[simp] theorem checkConfig_err (cfg : Config.Platform) (s : State) :
    (checkConfig cfg s).err = s.err := rfl

@[simp] theorem checkConfig_outLen (cfg : Config.Platform) (s : State) :
    (checkConfig cfg s).outLen = s.outLen := rfl

@[simp] theorem checkConfig_phase (cfg : Config.Platform) (s : State) :
    (checkConfig cfg s).phase = .finish := rfl

@[simp] theorem checkConfig_dp (cfg : Config.Platform) (s : State) :
    (checkConfig cfg s).dp = { s.dp with pendErr := configOutcome cfg s } := rfl

@[simp] theorem checkConfig_latch (cfg : Config.Platform) (s : State) :
    (checkConfig cfg s).latch = s.latch := rfl

@[simp] theorem checkConfig_mem (cfg : Config.Platform) (s : State) :
    (checkConfig cfg s).mem = s.mem := rfl

@[simp] theorem checkConfig_past (cfg : Config.Platform) (s : State) :
    (checkConfig cfg s).past = s.past := rfl

@[simp] theorem checkConfig_draws (cfg : Config.Platform) (s : State) :
    (checkConfig cfg s).draws = s.draws := rfl

@[simp] theorem checkConfig_turns (cfg : Config.Platform) (s : State) :
    (checkConfig cfg s).turns = s.turns := rfl

@[simp] theorem checkConfig_resp (cfg : Config.Platform) (s : State) :
    (checkConfig cfg s).resp = s.resp := rfl

/-! ### deliverOutcome -/

@[simp] theorem deliverOutcome_regs (s : State) :
    (deliverOutcome s).regs = s.regs := rfl

@[simp] theorem deliverOutcome_busy (s : State) :
    (deliverOutcome s).busy = false := rfl

@[simp] theorem deliverOutcome_done (s : State) :
    (deliverOutcome s).done = true := rfl

@[simp] theorem deliverOutcome_ovr (s : State) :
    (deliverOutcome s).ovr = s.ovr := rfl

@[simp] theorem deliverOutcome_err (s : State) :
    (deliverOutcome s).err = s.dp.pendErr := rfl

@[simp] theorem deliverOutcome_outLen (s : State) :
    (deliverOutcome s).outLen = if s.dp.pendErr = .ok then outLenOf s else 0 := rfl

@[simp] theorem deliverOutcome_phase (s : State) :
    (deliverOutcome s).phase = .idle := rfl

@[simp] theorem deliverOutcome_active (s : State) :
    (deliverOutcome s).active = s.active := rfl

@[simp] theorem deliverOutcome_dp (s : State) :
    (deliverOutcome s).dp = zeroDatapath := rfl

@[simp] theorem deliverOutcome_latch (s : State) :
    (deliverOutcome s).latch = zeroLatches := rfl

@[simp] theorem deliverOutcome_mem (s : State) :
    (deliverOutcome s).mem = s.mem := rfl

@[simp] theorem deliverOutcome_past (s : State) :
    (deliverOutcome s).past = [] := rfl

@[simp] theorem deliverOutcome_draws (s : State) :
    (deliverOutcome s).draws = s.draws := rfl

@[simp] theorem deliverOutcome_turns (s : State) :
    (deliverOutcome s).turns = s.turns := rfl

@[simp] theorem deliverOutcome_resp (s : State) :
    (deliverOutcome s).resp = s.resp := rfl

/-! ### acknowledge -/

@[simp] theorem acknowledge_regs (v : Word) (s : State) :
    (acknowledge v s).regs = s.regs := rfl

@[simp] theorem acknowledge_busy (v : Word) (s : State) :
    (acknowledge v s).busy = s.busy := rfl

@[simp] theorem acknowledge_done (v : Word) (s : State) :
    (acknowledge v s).done = (s.done && !v.getLsbD 1) := rfl

@[simp] theorem acknowledge_ovr (v : Word) (s : State) :
    (acknowledge v s).ovr = (s.ovr && !v.getLsbD 2) := rfl

@[simp] theorem acknowledge_err (v : Word) (s : State) :
    (acknowledge v s).err = s.err := rfl

@[simp] theorem acknowledge_outLen (v : Word) (s : State) :
    (acknowledge v s).outLen = s.outLen := rfl

@[simp] theorem acknowledge_phase (v : Word) (s : State) :
    (acknowledge v s).phase = s.phase := rfl

@[simp] theorem acknowledge_active (v : Word) (s : State) :
    (acknowledge v s).active = s.active := rfl

@[simp] theorem acknowledge_dp (v : Word) (s : State) :
    (acknowledge v s).dp = s.dp := rfl

@[simp] theorem acknowledge_latch (v : Word) (s : State) :
    (acknowledge v s).latch = s.latch := rfl

@[simp] theorem acknowledge_mem (v : Word) (s : State) :
    (acknowledge v s).mem = s.mem := rfl

@[simp] theorem acknowledge_past (v : Word) (s : State) :
    (acknowledge v s).past = s.past := rfl

@[simp] theorem acknowledge_draws (v : Word) (s : State) :
    (acknowledge v s).draws = s.draws := rfl

@[simp] theorem acknowledge_turns (v : Word) (s : State) :
    (acknowledge v s).turns = s.turns := rfl

@[simp] theorem acknowledge_resp (v : Word) (s : State) :
    (acknowledge v s).resp = s.resp := rfl

/-! ### platformReset -/

@[simp] theorem platformReset_regs (s : State) :
    (platformReset s).regs = zeroRegs := rfl

@[simp] theorem platformReset_busy (s : State) :
    (platformReset s).busy = false := rfl

@[simp] theorem platformReset_done (s : State) :
    (platformReset s).done = false := rfl

@[simp] theorem platformReset_ovr (s : State) :
    (platformReset s).ovr = false := rfl

@[simp] theorem platformReset_err (s : State) :
    (platformReset s).err = .ok := rfl

@[simp] theorem platformReset_outLen (s : State) :
    (platformReset s).outLen = 0 := rfl

@[simp] theorem platformReset_phase (s : State) :
    (platformReset s).phase = .idle := rfl

@[simp] theorem platformReset_active (s : State) :
    (platformReset s).active = noConfig := rfl

@[simp] theorem platformReset_dp (s : State) :
    (platformReset s).dp = zeroDatapath := rfl

@[simp] theorem platformReset_latch (s : State) :
    (platformReset s).latch = zeroLatches := rfl

@[simp] theorem platformReset_mem (s : State) :
    (platformReset s).mem = s.mem := rfl

@[simp] theorem platformReset_past (s : State) :
    (platformReset s).past = [] := rfl

@[simp] theorem platformReset_draws (s : State) :
    (platformReset s).draws = s.draws := rfl

@[simp] theorem platformReset_turns (s : State) :
    (platformReset s).turns = s.turns := rfl

@[simp] theorem platformReset_resp (s : State) :
    (platformReset s).resp = s.resp := rfl

/-! ### acceptCommand -/

theorem acceptCommand_busy (w : Word) (s : State) (h : s.busy = true) :
    acceptCommand w s = { s with ovr := true } := by simp [acceptCommand, h]

theorem acceptCommand_idle (w : Word) (s : State) (h : s.busy = false) :
    acceptCommand w s =
      { s with
        latch :=
          { cmdWord := w, cfg := cfgWord s.regs, nonce := nonceBlock s.regs, adAddr := s.regs.adAddr,
            adLen := s.regs.adLen, inAddr := s.regs.inAddr, inLen := s.regs.inLen,
            outAddr := s.regs.outAddr }
        busy := true, done := false, err := .ok, phase := .check } := by simp [acceptCommand, h]

@[simp] theorem acceptCommand_regs (w : Word) (s : State) : (acceptCommand w s).regs = s.regs := by
  unfold acceptCommand; split <;> rfl

@[simp] theorem acceptCommand_outLen (w : Word) (s : State) : (acceptCommand w s).outLen = s.outLen := by
  unfold acceptCommand; split <;> rfl

@[simp] theorem acceptCommand_active (w : Word) (s : State) : (acceptCommand w s).active = s.active := by
  unfold acceptCommand; split <;> rfl

@[simp] theorem acceptCommand_dp (w : Word) (s : State) : (acceptCommand w s).dp = s.dp := by
  unfold acceptCommand; split <;> rfl

@[simp] theorem acceptCommand_mem (w : Word) (s : State) : (acceptCommand w s).mem = s.mem := by
  unfold acceptCommand; split <;> rfl

@[simp] theorem acceptCommand_past (w : Word) (s : State) : (acceptCommand w s).past = s.past := by
  unfold acceptCommand; split <;> rfl

@[simp] theorem acceptCommand_draws (w : Word) (s : State) : (acceptCommand w s).draws = s.draws := by
  unfold acceptCommand; split <;> rfl

@[simp] theorem acceptCommand_turns (w : Word) (s : State) : (acceptCommand w s).turns = s.turns := by
  unfold acceptCommand; split <;> rfl

@[simp] theorem acceptCommand_resp (w : Word) (s : State) : (acceptCommand w s).resp = s.resp := by
  unfold acceptCommand; split <;> rfl

@[simp] theorem acceptCommand_sets_busy (w : Word) (s : State) : (acceptCommand w s).busy = true := by
  unfold acceptCommand; split <;> simp_all

/-! ### storeBytes: only the memory and the older bytes change -/

@[simp] theorem storeBytes_regs (s : State) (a : Nat) (bs : List Byte) :
    (storeBytes s a bs).regs = s.regs := by
  induction bs generalizing s a with
  | nil => rfl
  | cons b bs ih => exact ih (storeByte s a b) (a + 1)

@[simp] theorem storeBytes_busy (s : State) (a : Nat) (bs : List Byte) :
    (storeBytes s a bs).busy = s.busy := by
  induction bs generalizing s a with
  | nil => rfl
  | cons b bs ih => exact ih (storeByte s a b) (a + 1)

@[simp] theorem storeBytes_done (s : State) (a : Nat) (bs : List Byte) :
    (storeBytes s a bs).done = s.done := by
  induction bs generalizing s a with
  | nil => rfl
  | cons b bs ih => exact ih (storeByte s a b) (a + 1)

@[simp] theorem storeBytes_ovr (s : State) (a : Nat) (bs : List Byte) :
    (storeBytes s a bs).ovr = s.ovr := by
  induction bs generalizing s a with
  | nil => rfl
  | cons b bs ih => exact ih (storeByte s a b) (a + 1)

@[simp] theorem storeBytes_err (s : State) (a : Nat) (bs : List Byte) :
    (storeBytes s a bs).err = s.err := by
  induction bs generalizing s a with
  | nil => rfl
  | cons b bs ih => exact ih (storeByte s a b) (a + 1)

@[simp] theorem storeBytes_outLen (s : State) (a : Nat) (bs : List Byte) :
    (storeBytes s a bs).outLen = s.outLen := by
  induction bs generalizing s a with
  | nil => rfl
  | cons b bs ih => exact ih (storeByte s a b) (a + 1)

@[simp] theorem storeBytes_phase (s : State) (a : Nat) (bs : List Byte) :
    (storeBytes s a bs).phase = s.phase := by
  induction bs generalizing s a with
  | nil => rfl
  | cons b bs ih => exact ih (storeByte s a b) (a + 1)

@[simp] theorem storeBytes_active (s : State) (a : Nat) (bs : List Byte) :
    (storeBytes s a bs).active = s.active := by
  induction bs generalizing s a with
  | nil => rfl
  | cons b bs ih => exact ih (storeByte s a b) (a + 1)

@[simp] theorem storeBytes_dp (s : State) (a : Nat) (bs : List Byte) :
    (storeBytes s a bs).dp = s.dp := by
  induction bs generalizing s a with
  | nil => rfl
  | cons b bs ih => exact ih (storeByte s a b) (a + 1)

@[simp] theorem storeBytes_latch (s : State) (a : Nat) (bs : List Byte) :
    (storeBytes s a bs).latch = s.latch := by
  induction bs generalizing s a with
  | nil => rfl
  | cons b bs ih => exact ih (storeByte s a b) (a + 1)

@[simp] theorem storeBytes_draws (s : State) (a : Nat) (bs : List Byte) :
    (storeBytes s a bs).draws = s.draws := by
  induction bs generalizing s a with
  | nil => rfl
  | cons b bs ih => exact ih (storeByte s a b) (a + 1)

@[simp] theorem storeBytes_turns (s : State) (a : Nat) (bs : List Byte) :
    (storeBytes s a bs).turns = s.turns := by
  induction bs generalizing s a with
  | nil => rfl
  | cons b bs ih => exact ih (storeByte s a b) (a + 1)

@[simp] theorem storeBytes_resp (s : State) (a : Nat) (bs : List Byte) :
    (storeBytes s a bs).resp = s.resp := by
  induction bs generalizing s a with
  | nil => rfl
  | cons b bs ih => exact ih (storeByte s a b) (a + 1)

/-! ### Operands read the configuration, the latches and M only -/

section Operands

variable {s t : State}

theorem commandOf_congr (h : t.latch = s.latch) : commandOf t = commandOf s := by simp [commandOf, h]

theorem nonceLen_congr (h : t.active = s.active) : nonceLen t = nonceLen s := by simp [nonceLen, h]

theorem lenField_congr (h : t.active = s.active) : lenField t = lenField s := by
  simp [lenField, nonceLen_congr h]

theorem tagLen_congr (h : t.active = s.active) : tagLen t = tagLen s := by simp [tagLen, h]

theorem nonceOf_congr (ha : t.active = s.active) (hl : t.latch = s.latch) : nonceOf t = nonceOf s := by
  simp [nonceOf, nonceLen_congr ha, hl]

theorem adLen_congr (h : t.latch = s.latch) : adLen t = adLen s := by simp [adLen, h]

theorem inLen_congr (h : t.latch = s.latch) : inLen t = inLen s := by simp [inLen, h]

theorem adAddr_congr (h : t.latch = s.latch) : adAddr t = adAddr s := by simp [adAddr, h]

theorem inAddr_congr (h : t.latch = s.latch) : inAddr t = inAddr s := by simp [inAddr, h]

theorem outAddr_congr (h : t.latch = s.latch) : outAddr t = outAddr s := by simp [outAddr, h]

theorem payloadLen_congr (h : t.dp.m = s.dp.m) : payloadLen t = payloadLen s := by simp [payloadLen, h]

theorem outSize_congr (ha : t.active = s.active) (hl : t.latch = s.latch) (hm : t.dp.m = s.dp.m) :
    outSize t = outSize s := by
  simp [outSize, commandOf_congr hl, payloadLen_congr hm, tagLen_congr ha]

theorem tagInSize_congr (ha : t.active = s.active) (hl : t.latch = s.latch) :
    tagInSize t = tagInSize s := by
  simp [tagInSize, commandOf_congr hl, tagLen_congr ha]

theorem overlapUndefined_congr (ha : t.active = s.active) (hl : t.latch = s.latch)
    (hm : t.dp.m = s.dp.m) : overlapUndefined t = overlapUndefined s := by
  simp [overlapUndefined, outAddr_congr hl, outSize_congr ha hl hm, adAddr_congr hl, adLen_congr hl,
    inAddr_congr hl, payloadLen_congr hm, tagInSize_congr ha hl]

end Operands

end Sys2Proof.Machine
end

