-- ==== Sys2Proof/Laws/Memory.lean ====
section
/-! SUPPORT. The laws of the data memory: read after write, the canonical form, runs of stores, admission. -/

namespace Sys2Proof.Machine

open Sys2Proof.Config (Platform Dir)

/-! ### One byte -/

@[simp] theorem readByte_nil (a : Nat) : readByte [] a = unlistedByte := rfl

@[simp] theorem readByte_cons (k : Nat) (v : Byte) (m : Memory) (a : Nat) :
    readByte ((k, v) :: m) a = if k = a then v else readByte m a := rfl

theorem wf_tail {c : Host.Cell} {m : Memory} (h : Memory.wf (c :: m)) : Memory.wf m :=
  ⟨(List.pairwise_cons.mp h.1).2, fun d hd => h.2 d (List.mem_cons_of_mem _ hd)⟩

theorem wf_head_lt {c d : Host.Cell} {m : Memory} (h : Memory.wf (c :: m)) (hd : d ∈ m) : c.1 < d.1 :=
  (List.pairwise_cons.mp h.1).1 d hd

/-- An address that no entry lists reads as unlisted. -/
theorem readByte_of_not_listed {m : Memory} {a : Nat} (h : ∀ c ∈ m, c.1 ≠ a) :
    readByte m a = unlistedByte := by
  induction m with
  | nil => rfl
  | cons c m ih =>
    obtain ⟨k, v⟩ := c
    have hk : k ≠ a := h (k, v) (List.mem_cons_self ..)
    simp [hk, ih (fun c hc => h c (List.mem_cons_of_mem _ hc))]

theorem readByte_below {m : Memory} {a : Nat} (h : ∀ c ∈ m, a < c.1) : readByte m a = unlistedByte :=
  readByte_of_not_listed (fun c hc => Nat.ne_of_gt (h c hc))

/-- A write leaves every other address alone. -/
theorem readByte_writeByte_other (m : Memory) {a b : Nat} (v : Byte) (h : b ≠ a) :
    readByte (writeByte m a v) b = readByte m b := by
  have hab : ¬a = b := fun h' => h h'.symm
  induction m with
  | nil => unfold writeByte; split <;> simp [hab]
  | cons c m ih =>
    obtain ⟨k, w⟩ := c
    unfold writeByte
    split
    · simp only [readByte_cons, ih]
    · split
      · rename_i hk
        subst hk
        split <;> simp [hab]
      · split <;> simp [hab]

/-- A read after a write to the same address gives the byte written. -/
theorem readByte_writeByte_same {m : Memory} (h : Memory.wf m) (a : Nat) (v : Byte) :
    readByte (writeByte m a v) a = v := by
  induction m with
  | nil => unfold writeByte; split <;> simp_all
  | cons c m ih =>
    obtain ⟨k, w⟩ := c
    unfold writeByte
    split
    · rename_i hk
      simp [Nat.ne_of_lt hk, ih (wf_tail h)]
    · split
      · rename_i hk
        subst hk
        split
        · rename_i hv
          rw [hv]
          exact readByte_below (fun c hc => wf_head_lt h hc)
        · simp
      · rename_i h1 h2
        split
        · rename_i hv
          rw [hv]
          refine readByte_below (fun c hc => ?_)
          rcases List.mem_cons.mp hc with rfl | hc
          · show a < k; omega
          · have := wf_head_lt h hc
            simp at this; omega
        · simp

theorem readByte_writeByte {m : Memory} (h : Memory.wf m) (a : Nat) (v : Byte) (b : Nat) :
    readByte (writeByte m a v) b = if b = a then v else readByte m b := by
  by_cases hb : b = a
  · subst hb; simp [readByte_writeByte_same h]
  · simp [hb, readByte_writeByte_other m v hb]

/-- Every entry after a write was there before or is the written one. -/
theorem mem_writeByte {m : Memory} {a : Nat} {v : Byte} {c : Host.Cell} (h : c ∈ writeByte m a v) :
    c ∈ m ∨ c = (a, v) ∧ v ≠ unlistedByte := by
  induction m with
  | nil => unfold writeByte at h; split at h <;> simp_all
  | cons d m ih =>
    obtain ⟨k, w⟩ := d
    unfold writeByte at h
    split at h
    · rcases List.mem_cons.mp h with rfl | h
      · exact .inl (List.mem_cons_self ..)
      · exact (ih h).imp (List.mem_cons_of_mem _) id
    · split at h
      · split at h
        · exact .inl (List.mem_cons_of_mem _ h)
        · rcases List.mem_cons.mp h with rfl | h
          · exact .inr ⟨rfl, by assumption⟩
          · exact .inl (List.mem_cons_of_mem _ h)
      · split at h
        · exact .inl h
        · rcases List.mem_cons.mp h with rfl | h
          · exact .inr ⟨rfl, by assumption⟩
          · exact .inl h

/-- A write keeps the canonical form. -/
theorem writeByte_wf {m : Memory} (h : Memory.wf m) (a : Nat) (v : Byte) : Memory.wf (writeByte m a v) := by
  refine ⟨?_, fun c hc => (mem_writeByte hc).elim (h.2 c) (fun e => by rw [e.1]; exact e.2)⟩
  induction m with
  | nil => unfold writeByte; split <;> simp
  | cons d m ih =>
    obtain ⟨k, w⟩ := d
    have hm := wf_tail h
    unfold writeByte
    split
    · rename_i hk
      refine List.pairwise_cons.mpr ⟨fun c hc => ?_, ih hm⟩
      rcases mem_writeByte hc with hc | ⟨rfl, _⟩
      · exact wf_head_lt h hc
      · exact hk
    · split
      · rename_i hk
        subst hk
        split
        · exact hm.1
        · exact List.pairwise_cons.mpr ⟨(List.pairwise_cons.mp h.1).1, hm.1⟩
      · split
        · exact h.1
        · refine List.pairwise_cons.mpr ⟨fun c hc => ?_, h.1⟩
          rcases List.mem_cons.mp hc with rfl | hc
          · show a < k; omega
          · have := wf_head_lt h hc
            simp at this ⊢; omega

/-- Canonical memories with equal bytes are equal. -/
theorem memory_ext {m m' : Memory} (h : Memory.wf m) (h' : Memory.wf m')
    (heq : ∀ a, readByte m a = readByte m' a) : m = m' := by
  induction m generalizing m' with
  | nil =>
    cases m' with
    | nil => rfl
    | cons c m' =>
      obtain ⟨k, v⟩ := c
      have e := heq k
      simp at e
      exact absurd e.symm (h'.2 (k, v) (List.mem_cons_self ..))
  | cons c m ih =>
    cases m' with
    | nil =>
      obtain ⟨k, v⟩ := c
      have e := heq k
      simp at e
      exact absurd e (h.2 (k, v) (List.mem_cons_self ..))
    | cons d m' =>
      obtain ⟨k, v⟩ := c
      obtain ⟨k', v'⟩ := d
      have hv : v ≠ unlistedByte := h.2 (k, v) (List.mem_cons_self ..)
      have hv' : v' ≠ unlistedByte := h'.2 (k', v') (List.mem_cons_self ..)
      have hkk : k = k' := by
        rcases Nat.lt_trichotomy k k' with hlt | he | hlt
        · have e := heq k
          rw [readByte_below (m := (k', v') :: m') (a := k)] at e
          · simp at e; exact absurd e hv
          · intro c hc
            rcases List.mem_cons.mp hc with rfl | hc
            · exact hlt
            · exact Nat.lt_trans hlt (wf_head_lt h' hc)
        · exact he
        · have e := heq k'
          rw [readByte_below (m := (k, v) :: m) (a := k')] at e
          · simp at e; exact absurd e.symm hv'
          · intro c hc
            rcases List.mem_cons.mp hc with rfl | hc
            · exact hlt
            · exact Nat.lt_trans hlt (wf_head_lt h hc)
      subst hkk
      have hvv : v = v' := by have := heq k; simpa using this
      subst hvv
      have : m = m' := by
        refine ih (wf_tail h) (wf_tail h') (fun a => ?_)
        by_cases ha : k = a
        · subst ha
          rw [readByte_below (fun c hc => wf_head_lt h hc), readByte_below (fun c hc => wf_head_lt h' hc)]
        · have := heq a; simpa [ha] using this
      rw [this]

/-! ### Runs of stores -/

@[simp] theorem storeBytes_nil (s : State) (a : Nat) : storeBytes s a [] = s := rfl

theorem storeBytes_cons (s : State) (a : Nat) (b : Byte) (bs : List Byte) :
    storeBytes s a (b :: bs) = storeBytes (storeByte s a b) (a + 1) bs := rfl

theorem storeBytes_wf {s : State} (h : Memory.wf s.mem) (a : Nat) (bs : List Byte) :
    Memory.wf (storeBytes s a bs).mem := by
  induction bs generalizing s a with
  | nil => exact h
  | cons b bs ih => exact ih (s := storeByte s a b) (writeByte_wf h a b) (a + 1)

/-- What a run of stores leaves at every address. -/
theorem readByte_storeBytes {s : State} (h : Memory.wf s.mem) (a : Nat) (bs : List Byte) (x : Nat) :
    readByte (storeBytes s a bs).mem x
      = if a ≤ x ∧ x < a + bs.length then bs.getD (x - a) 0 else readByte s.mem x := by
  induction bs generalizing s a with
  | nil =>
    have hn : ¬(a ≤ x ∧ x < a + ([] : List Byte).length) := by simp
    simp only [hn, if_false, storeBytes_nil]
  | cons b bs ih =>
    rw [storeBytes_cons, ih (s := storeByte s a b) (writeByte_wf h a b) (a + 1)]
    simp only [storeByte_mem, readByte_writeByte h, List.length_cons]
    by_cases hx : x = a
    · subst hx; simp
    · by_cases hr : a + 1 ≤ x ∧ x < a + 1 + bs.length
      · have h2 : a ≤ x ∧ x < a + (bs.length + 1) := by omega
        have h3 : x - a = (x - (a + 1)) + 1 := by omega
        simp [hr, h2, h3]
      · have h2 : ¬(a ≤ x ∧ x < a + (bs.length + 1)) := by omega
        simp only [hr, h2, hx, if_false]

/-- A run of stores leaves every address outside it alone, whatever the memory's form. -/
theorem readByte_storeBytes_outside (s : State) (a : Nat) (bs : List Byte) {x : Nat}
    (hx : ¬(a ≤ x ∧ x < a + bs.length)) : readByte (storeBytes s a bs).mem x = readByte s.mem x := by
  induction bs generalizing s a with
  | nil => rfl
  | cons b bs ih =>
    have hxa : x ≠ a := by
      rintro rfl
      simp at hx
    rw [storeBytes_cons, ih (storeByte s a b) (a + 1) (by simp at hx ⊢; omega)]
    exact readByte_writeByte_other _ _ hxa

/-- The older bytes a run of stores adds lie in its range. -/
theorem mem_storeBytes_past {s : State} {a : Nat} {bs : List Byte} {c : Host.Cell}
    (h : c ∈ (storeBytes s a bs).past) : c ∈ s.past ∨ a ≤ c.1 ∧ c.1 < a + bs.length := by
  induction bs generalizing s a with
  | nil => exact .inl h
  | cons b bs ih =>
    rw [storeBytes_cons] at h
    rcases ih h with h | h
    · simp only [storeByte_past] at h
      split at h
      · rcases List.mem_cons.mp h with rfl | h
        · right; simp
        · exact .inl h
      · exact .inl h
    · right; simp at h ⊢; omega

/-! ### Regions -/

@[simp] theorem readRegion_length (m : Memory) (a n : Nat) : (readRegion m a n).length = n := by
  simp [readRegion]

theorem readRegion_getElem (m : Memory) (a n k : Nat) (h : k < (readRegion m a n).length) :
    (readRegion m a n)[k] = readByte m (a + k) := by simp [readRegion]

theorem readRegion_congr {m m' : Memory} {a n : Nat}
    (h : ∀ k < n, readByte m (a + k) = readByte m' (a + k)) : readRegion m a n = readRegion m' a n := by
  simp only [readRegion]
  exact List.map_congr_left (fun k hk => h k (List.mem_range.mp hk))

/-- A block of a region is the region of the block. -/
theorem readRegion_block (m : Memory) (a n b k : Nat) (h : b + k ≤ n) :
    ((readRegion m a n).drop b).take k = readRegion m (a + b) k := by
  apply List.ext_getElem
  · simp; omega
  · intro i h1 h2
    simp [readRegion, Nat.add_assoc]

/-! ### Admission -/

theorem admittedCount_le (cfg : Platform) (d : Dir) (a n : Nat) : admittedCount cfg d a n ≤ n := by
  induction n generalizing a with
  | zero => simp [admittedCount]
  | succ n ih => unfold admittedCount; split <;> simp [ih]

theorem admitted_of_lt_admittedCount (cfg : Platform) (d : Dir) {a n k : Nat}
    (h : k < admittedCount cfg d a n) : admitted cfg (a + k) d = true := by
  induction n generalizing a k with
  | zero => simp [admittedCount] at h
  | succ n ih =>
    unfold admittedCount at h
    split at h
    · cases k with
      | zero => simpa using ‹_›
      | succ k =>
        have := ih (a := a + 1) (k := k) (by omega)
        rwa [show a + (k + 1) = a + 1 + k from by omega]
    · omega

theorem not_admitted_admittedCount (cfg : Platform) (d : Dir) {a n : Nat}
    (h : admittedCount cfg d a n < n) : admitted cfg (a + admittedCount cfg d a n) d = false := by
  induction n generalizing a with
  | zero => omega
  | succ n ih =>
    unfold admittedCount at h ⊢
    split
    · rename_i hA
      simp only [hA, if_true] at h
      have := ih (a := a + 1) (by omega)
      rwa [show a + (admittedCount cfg d (a + 1) n + 1) = a + 1 + admittedCount cfg d (a + 1) n from by omega]
    · rename_i hA
      simpa using hA

/-- The count of leading admitted accesses, said once: it is `n` when all are admitted, else the first refused one. -/
theorem admittedCount_eq_iff (cfg : Platform) (d : Dir) (a n k : Nat) :
    admittedCount cfg d a n = k ↔
      k ≤ n ∧ (∀ q < k, admitted cfg (a + q) d = true) ∧ (k = n ∨ admitted cfg (a + k) d = false) := by
  constructor
  · rintro rfl
    refine ⟨admittedCount_le .., fun q hq => admitted_of_lt_admittedCount cfg d hq, ?_⟩
    rcases Nat.lt_or_ge (admittedCount cfg d a n) n with h | h
    · exact .inr (not_admitted_admittedCount cfg d h)
    · exact .inl (Nat.le_antisymm (admittedCount_le ..) h)
  · rintro ⟨hk, hall, hstop⟩
    rcases Nat.lt_trichotomy (admittedCount cfg d a n) k with h | h | h
    · have h1 := not_admitted_admittedCount cfg d (Nat.lt_of_lt_of_le h hk)
      rw [hall _ h] at h1; cases h1
    · exact h
    · have h1 := admitted_of_lt_admittedCount cfg d h
      have h2 := Nat.lt_of_lt_of_le h (admittedCount_le cfg d a n)
      rcases hstop with rfl | hstop
      · omega
      · rw [h1] at hstop; cases hstop

theorem lt_of_admitted {cfg : Platform} {a : Nat} {d : Dir} (h : admitted cfg a d = true) : a < 2 ^ 64 := by
  simp [admitted] at h; simpa using h.1

end Sys2Proof.Machine
end

