-- ==== Sys2Proof/Laws/Ops.lean ====
section
/-! SUPPORT. One lemma per shared operation that says once what it can do: reads, acceptance, the turn, the step. -/

namespace Sys2Proof.Machine

open Sys2Proof.Config (Platform Dir)
open Sys2Proof.Safety

/-! ### Reads -/

theorem olderBytes_eq_nil {past : List Host.Cell} {a : Nat} (h : ∀ c ∈ past, c.1 ≠ a) :
    olderBytes past a = [] := by
  simp only [olderBytes, List.map_eq_nil_iff, List.filter_eq_nil_iff]
  intro c hc
  simpa using h c hc

/-- The older bytes of an address are those that `past` lists there (R73). -/
theorem mem_olderBytes {past : List Host.Cell} {a : Nat} {b : Byte} : b ∈ olderBytes past a ↔ (a, b) ∈ past := by
  simp only [olderBytes, List.mem_map, List.mem_filter, beq_iff_eq]
  constructor
  · rintro ⟨c, ⟨hc, rfl⟩, rfl⟩
    exact hc
  · exact fun h => ⟨_, ⟨h, rfl⟩, rfl⟩

/-- What a draw gives: the current byte or an older one. -/
theorem drawByte_mem (cfg : Platform) (cur : Byte) (older : List Byte) (d : Nat) :
    (drawByte cfg cur older d).1 = cur ∨ (drawByte cfg cur older d).1 ∈ older := by
  cases older with
  | nil => exact .inl rfl
  | cons o os =>
    simp only [drawByte, List.getD_eq_getElem?_getD]
    rcases Nat.lt_or_ge (cfg.raceDraw d % (os.length + 2)) (cur :: o :: os).length with h | h
    · rw [List.getElem?_eq_getElem h]
      exact List.mem_cons.mp (List.getElem_mem h)
    · rw [List.getElem?_eq_none h]
      exact .inl rfl

theorem drawByte_le (cfg : Platform) (cur : Byte) (older : List Byte) (d : Nat) :
    d ≤ (drawByte cfg cur older d).2 := by cases older <;> simp [drawByte]

/-- Where nothing raced, the only byte an access may see is the one there. -/
theorem mayRead_of_quiet {s : State} {a n k : Nat} {b : Byte} (h : Quiet s a n) (hk : k < n)
    (hb : MayRead s (a + k) b) : b = readByte s.mem (a + k) :=
  hb.resolve_right (fun hp => h _ hp ⟨Nat.le_add_right .., by simpa using hk⟩)

theorem drawSources_length (cfg : Platform) (s : State) (d : Nat) (xs : List ByteSource) :
    (drawSources cfg s d xs).1.length = xs.length := by
  induction xs generalizing d with
  | nil => rfl
  | cons x xs ih => cases x <;> simp [drawSources, ih]

/-- Where nothing raced, a read sees the current bytes and draws nothing. -/
theorem drawSources_quiet (cfg : Platform) (s : State) (d : Nat) {xs : List ByteSource}
    (h : ∀ a, .mem a ∈ xs → olderBytes s.past a = []) :
    drawSources cfg s d xs = (xs.map (sourceByte s.mem), d) := by
  induction xs with
  | nil => rfl
  | cons x xs ih =>
    have ih := ih (fun a ha => h a (List.mem_cons_of_mem _ ha))
    cases x with
    | const b => simp [drawSources, ih, sourceByte]
    | mem a => simp [drawSources, h a (List.mem_cons_self ..), drawByte, ih, sourceByte]

/-- A read answers bytes exactly when every access happens. -/
theorem readSources_eq_some_iff (cfg : Platform) (s : State) (xs : List ByteSource) (r : List Byte × Nat) :
    readSources cfg s xs = some r ↔
      (∀ x ∈ xs, sourceAdmitted cfg x = true) ∧ r = drawSources cfg s s.draws xs := by
  unfold readSources
  split
  · rename_i h
    simp only [List.all_eq_true] at h
    simp only [Option.some.injEq]
    exact ⟨fun e => ⟨h, e.symm⟩, fun e => e.2.symm⟩
  · rename_i h
    simp only [List.all_eq_true] at h
    simp [h]

theorem readSources_eq_none_iff (cfg : Platform) (s : State) (xs : List ByteSource) :
    readSources cfg s xs = none ↔ ∃ x ∈ xs, sourceAdmitted cfg x = false := by
  unfold readSources
  split
  · rename_i h
    simp only [List.all_eq_true] at h
    simp only [reduceCtorEq, false_iff, not_exists, not_and]
    intro x hx
    simp [h x hx]
  · rename_i h
    simpa using h

theorem mem_memSources {a n : Nat} {x : ByteSource} (h : x ∈ memSources a n) : ∃ k < n, x = .mem (a + k) := by
  simp only [memSources, List.mem_map, List.mem_range] at h
  obtain ⟨k, hk, rfl⟩ := h
  exact ⟨k, hk, rfl⟩

@[simp] theorem memSources_length (a n : Nat) : (memSources a n).length = n := by simp [memSources]

theorem memRead_length {cfg : Platform} {s : State} {a n : Nat} {r : List Byte × Nat}
    (h : memRead cfg s a n = some r) : r.1.length = n := by
  rw [memRead, readSources_eq_some_iff] at h
  rw [h.2, drawSources_length, memSources_length]

theorem olderBytes_of_quiet {s : State} {a n : Nat} (h : Quiet s a n) {k : Nat} (hk : k < n) :
    olderBytes s.past (a + k) = [] :=
  olderBytes_eq_nil (fun c hc he => h c hc ⟨by omega, by omega⟩)

/-- `MemRead` of a region that nothing raced: its bytes when every access happens, else refused (R13, R213). -/
theorem memRead_quiet (cfg : Platform) (s : State) {a n : Nat} (h : Quiet s a n) :
    memRead cfg s a n
      = if ∀ k < n, admitted cfg (a + k) .read = true then some (readRegion s.mem a n, s.draws) else none := by
  have hq : ∀ x, .mem x ∈ memSources a n → olderBytes s.past x = [] := by
    intro x hx
    obtain ⟨k, hk, e⟩ := mem_memSources hx
    cases e
    exact olderBytes_of_quiet h hk
  have hall : (memSources a n).all (sourceAdmitted cfg) = true ↔ ∀ k < n, admitted cfg (a + k) .read = true := by
    simp [memSources, sourceAdmitted]
  unfold memRead readSources
  by_cases hA : ∀ k < n, admitted cfg (a + k) .read = true
  · rw [if_pos (hall.mpr hA), if_pos hA, drawSources_quiet cfg s s.draws hq]
    simp [memSources, readRegion, sourceByte, Function.comp_def]
  · rw [if_neg (fun h => hA (hall.mp h)), if_neg hA]

/-! ### The step -/

/-- What a step can be: an instruction run, or a turn that is done at once. -/
theorem step_cases {s t : State} (h : step s = .next t) :
    (∃ i s', fetch s = .run i s' ∧ exec i s' = .next t) ∨ fetch s = .settled t := by
  unfold step at h
  split at h
  · exact .inl ⟨_, _, ‹_›, h⟩
  · cases h; exact .inr ‹_›

/-- What the next turn can be (R16, R240). -/
theorem fetch_cases (s : State) :
    (EngineIsNext s ∧ fetch s = engineTurn (dropTurn s))
      ∨ (∃ access ts, s.turns = .host access :: ts
          ∧ fetch s = hostTurn Config.platform access { s with turns := ts })
      ∨ ∃ ts, s.turns = .reset :: ts ∧ fetch s = .settled (platformReset { s with turns := ts }) := by
  unfold fetch fetchOn EngineIsNext dropTurn
  match hs : s.turns with
  | [] =>
    refine .inl ⟨.inl rfl, ?_⟩
    simp only [List.tail_nil]
    rw [show { s with turns := ([] : List Turn) } = s from by rw [← hs]]
  | .engine :: ts => exact .inl ⟨.inr ⟨ts, rfl⟩, rfl⟩
  | .host access :: ts => exact .inr (.inl ⟨access, ts, rfl, rfl⟩)
  | .reset :: ts => exact .inr (.inr ⟨ts, rfl, rfl⟩)

/-- The engine's turn (R16, R40): the micro-op of the phase while BUSY = 1, nothing otherwise. -/
theorem engineTurn_cases (s : State) :
    (s.busy = true ∧ ∃ i, microOp s.phase = some i ∧ engineTurn s = .run i s)
      ∨ (s.busy = true ∧ s.phase = .idle ∧ engineTurn s = .settled s)
      ∨ (s.busy = false ∧ engineTurn s = .settled s) := by
  unfold engineTurn
  cases hb : s.busy
  · exact .inr (.inr ⟨rfl, rfl⟩)
  · cases hp : s.phase <;> simp [microOp]

theorem regAt_eq_cmd_iff (off : BitVec 8) : regAt off = some .cmd ↔ off = 0x04 := by
  constructor
  · intro h
    have e := List.find?_some h
    exact (eq_of_beq e).symm
  · rintro rfl
    decide

/-- A host access that is no write to CMD leaves the command in flight as it is: it touches the host's registers,
DONE and OVR, or the data memory (R21, R25, R61). -/
theorem hostTurn_cases (cfg : Platform) (access : HostAccess) (s : State) :
    (∃ v, access = .regWrite 0x04 4 v ∧ hostTurn cfg access s = .run (decodeWord v) { s with resp := .written })
      ∨ ∃ t, hostTurn cfg access s = .settled t ∧ t.busy = s.busy ∧ t.err = s.err ∧ t.outLen = s.outLen
          ∧ t.phase = s.phase ∧ t.active = s.active ∧ t.dp = s.dp ∧ t.latch = s.latch ∧ t.turns = s.turns := by
  cases access with
  | regRead off size =>
    refine .inr ⟨_, rfl, ?_⟩
    unfold hostRegRead
    split <;> simp
  | regWrite off size v =>
    by_cases hc : legalAccess off size = true ∧ regAt off = some .cmd
    · left
      have h4 := (regAt_eq_cmd_iff off).mp hc.2
      have hs : size = 4 := by simpa [legalAccess, h4] using hc.1
      subst h4 hs
      exact ⟨v, rfl, by unfold hostTurn; exact if_pos hc⟩
    · refine .inr ⟨hostRegWrite off size v s, by simp [hostTurn, hc], ?_⟩
      unfold hostRegWrite
      split
      · split
        · rename_i r _
          cases r <;> simp [writeReg]
        · simp
      · simp
  | memRead a =>
    refine .inr ⟨_, rfl, ?_⟩
    unfold hostMemRead
    split <;> simp
  | memWrite a v =>
    refine .inr ⟨_, rfl, ?_⟩
    unfold hostMemWrite
    split <;> simp

end Sys2Proof.Machine
end

