-- ==== Sys2Proof/Laws/PerInstr.lean ====
section
/-! SUPPORT. One lemma per row of the opcode table: the row's match and mask, and the code the encoder gives. -/

namespace Sys2Proof.Laws.TableMatch

/-- A row of the opcode table: its code space, and its match and mask. -/
structure TableRow where
  isPhase : Bool
  pattern : Word
  mask : Word
deriving DecidableEq, Repr

/-- A code lies in a row's code space and agrees with the row's match under its mask. -/
def TableRow.covers (r : TableRow) : Code → Bool
  | .cmd w => !r.isPhase && (w &&& r.mask) == r.pattern
  | .phase c => r.isPhase && (c.setWidth 32 &&& r.mask) == r.pattern

/-- The row of an instruction, as the opcode table writes it. -/
def tableRow : Instr → TableRow
  | .config => ⟨false, 0x00000001, 0xFFFFFFFF⟩
  | .seal _ => ⟨false, 0x00000002, 0xFFFFF0FF⟩
  | .openCmd _ => ⟨false, 0x00000003, 0xFFFFF0FF⟩
  | .bad _ => ⟨false, 0x00000000, 0x00000000⟩
  | .check => ⟨true, 0x1, 0xF⟩
  | .macB0 => ⟨true, 0x2, 0xF⟩
  | .macAd => ⟨true, 0x3, 0xF⟩
  | .ctrS0 => ⟨true, 0x4, 0xF⟩
  | .textCtr => ⟨true, 0x5, 0xF⟩
  | .textMac => ⟨true, 0x6, 0xF⟩
  | .tag => ⟨true, 0x7, 0xF⟩
  | .scrub => ⟨true, 0x8, 0xF⟩
  | .finish => ⟨true, 0x9, 0xF⟩

/-- The rows of the table but BAD's, which has the lowest priority. -/
def strongRows : List TableRow :=
  [Instr.config, .seal 0, .openCmd 0, .check, .macB0, .macAd, .ctrS0, .textCtr, .textMac, .tag, .scrub,
    .finish].map tableRow

/-- The code of a well-formed instruction lies in its own row, and in no other row of the table but BAD's. -/
def Statement (i : Instr) : Prop :=
  i.wellFormed = true →
    (tableRow i).covers (encode i) = true
      ∧ ∀ r ∈ strongRows, r.covers (encode i) = true → r = tableRow i

end Sys2Proof.Laws.TableMatch

namespace Sys2Proof.Laws

open TableMatch

theorem TableMatch.config : Statement .config := by
  unfold Statement
  decide

theorem TableMatch.seal (n : BitVec 4) : Statement (.seal n) := by
  unfold Statement
  revert n
  decide

theorem TableMatch.openCmd (n : BitVec 4) : Statement (.openCmd n) := by
  unfold Statement
  revert n
  decide

theorem TableMatch.bad (w : Word) : Statement (.bad w) := by
  intro h
  simp only [Instr.wellFormed, spellsCommand, Bool.not_eq_true', Bool.or_eq_false_iff] at h
  have hf : w &&& 0xFFFFFFFF = w := by
    rw [show (0xFFFFFFFF : Word) = BitVec.allOnes 32 from rfl, BitVec.and_allOnes]
  refine ⟨by simp [TableRow.covers, tableRow, encode], ?_⟩
  simp only [strongRows, List.map, tableRow, encode, TableRow.covers, List.forall_mem_cons, hf, h]
  simp

theorem TableMatch.check : Statement .check := by
  unfold Statement
  decide

theorem TableMatch.macB0 : Statement .macB0 := by
  unfold Statement
  decide

theorem TableMatch.macAd : Statement .macAd := by
  unfold Statement
  decide

theorem TableMatch.ctrS0 : Statement .ctrS0 := by
  unfold Statement
  decide

theorem TableMatch.textCtr : Statement .textCtr := by
  unfold Statement
  decide

theorem TableMatch.textMac : Statement .textMac := by
  unfold Statement
  decide

theorem TableMatch.tag : Statement .tag := by
  unfold Statement
  decide

theorem TableMatch.scrub : Statement .scrub := by
  unfold Statement
  decide

theorem TableMatch.finish : Statement .finish := by
  unfold Statement
  decide

end Sys2Proof.Laws
end

