-- ==== Sys2Proof/Tests/Slice0.lean ====
section
/-! SUPPORT. Small tests: words and values of the spec, one step each, and a witness for the hypotheses of every statement. -/

namespace Sys2Proof.Tests

open Sys2Proof.Machine Sys2Proof.Safety
open Sys2Proof.Config (Platform Dir)

/-! ### Well-formedness -/

theorem test_wellFormed_refuses_the_config_word : (Instr.bad 0x00000001).wellFormed = false := by decide
theorem test_wellFormed_refuses_a_seal_word : (Instr.bad 0x00000702).wellFormed = false := by decide
theorem test_wellFormed_refuses_an_open_word : (Instr.bad 0x00000F03).wellFormed = false := by decide
theorem test_wellFormed_admits_a_reserved_bit : (Instr.bad 0x00000712).wellFormed = true := by decide

/-! ### Decoding: words of V24 and the codes of R86 -/

theorem test_decode_config : decode (.cmd 0x00000001) = .ok .config := by decide
theorem test_decode_seal : decode (.cmd 0x00000702) = .ok (.seal 7) := by decide
theorem test_decode_open : decode (.cmd 0x00000D03) = .ok (.openCmd 13) := by decide
theorem test_decode_op_zero : decode (.cmd 0x00000000) = .ok (.bad 0x00000000) := by decide
theorem test_decode_op_fifteen : decode (.cmd 0x0000000F) = .ok (.bad 0x0000000F) := by decide
theorem test_decode_config_with_nlen : decode (.cmd 0x00000101) = .ok (.bad 0x00000101) := by decide
theorem test_decode_res0 : decode (.cmd 0x00000712) = .ok (.bad 0x00000712) := by decide
theorem test_decode_res1_low : decode (.cmd 0x00001001) = .ok (.bad 0x00001001) := by decide
theorem test_decode_res1_high : decode (.cmd 0x80000002) = .ok (.bad 0x80000002) := by decide
theorem test_decode_check : decode (.phase 0x1) = .ok .check := by decide
theorem test_decode_mac_b0 : decode (.phase 0x2) = .ok .macB0 := by decide
theorem test_decode_mac_ad : decode (.phase 0x3) = .ok .macAd := by decide
theorem test_decode_ctr_s0 : decode (.phase 0x4) = .ok .ctrS0 := by decide
theorem test_decode_text_ctr : decode (.phase 0x5) = .ok .textCtr := by decide
theorem test_decode_text_mac : decode (.phase 0x6) = .ok .textMac := by decide
theorem test_decode_tag : decode (.phase 0x7) = .ok .tag := by decide
theorem test_decode_scrub : decode (.phase 0x8) = .ok .scrub := by decide
theorem test_decode_finish : decode (.phase 0x9) = .ok .finish := by decide
theorem test_decode_idle_phase : decode (.phase 0x0) = .error .idlePhase := by decide
theorem test_decode_reserved_phase : decode (.phase 0xF) = .error (.reservedPhase 0xF) := by decide
theorem test_table_word_of_a_phase : decodeTableWord 8 0x9 = some .finish := by decide

/-- The first step after reset runs a placed command word: SEAL is accepted and starts CHECK. -/
theorem test_withFetchWord_seal :
    step (State.reset.withFetchWord 32 0x00000702)
      = exec (.seal 7) { State.reset with resp := .written } := rfl

/-- The first step after reset runs a placed phase code. -/
theorem test_withFetchWord_scrub :
    step (State.reset.withFetchWord 8 0x8)
      = exec .scrub { State.reset with busy := true, phase := .scrub } := rfl

/-! ### Formats: V11, V16, V17, V29 and the register words of V10, V25 -/

theorem test_flagsB0 :
    [flagsB0 false 4 2, flagsB0 false 16 8, flagsB0 true 4 8, flagsB0 true 6 7, flagsB0 true 8 3,
      flagsB0 true 14 2, flagsB0 true 16 8] = [0x09, 0x3F, 0x4F, 0x56, 0x5A, 0x71, 0x7F] := by decide

theorem test_adPrefix :
    [adPrefix 0, adPrefix 14, adPrefix 65279, adPrefix 65280, adPrefix (2 ^ 32 - 1), adPrefix (2 ^ 32)]
      = [[], [0x00, 0x0E], [0xFE, 0xFF], [0xFF, 0xFE, 0x00, 0x00, 0xFF, 0x00],
        [0xFF, 0xFE, 0xFF, 0xFF, 0xFF, 0xFF],
        [0xFF, 0xFF, 0x00, 0x00, 0x00, 0x01, 0x00, 0x00, 0x00, 0x00]] := by decide

theorem test_adBlockCount :
    [adBlockCount 0, adBlockCount 14, adBlockCount 15, adBlockCount 65279, adBlockCount 65280,
      adBlockCount (2 ^ 64 - 1)] = [0, 1, 2, 4081, 4081, 1152921504606846977] := by decide

theorem test_fmtB0 :
    fmtB0 true 4 [0x10, 0x11, 0x12, 0x13, 0x14, 0x15, 0x16] 4 = 0x4f101112131415160000000000000004 := by decide

theorem test_inc_carries :
    inc 8 0x071011121314151600000000000000ff = 0x07101112131415160000000000000100 := by decide

theorem test_inc_wraps_in_the_counter_field :
    inc 2 0x01101112131415161718191a1b1cffff = 0x01101112131415161718191a1b1c0000 := by decide

theorem test_tagDiff :
    [tagDiff [0x4d, 0xac, 0x25, 0x5d] [0x4d, 0xac, 0x25, 0x5d],
      tagDiff [0x4d, 0xac, 0x25, 0x5d] [0x4d, 0xac, 0x25, 0x5c],
      tagDiff [0x4d, 0xac, 0x25, 0x5d] [0xcd, 0xac, 0x25, 0x5d],
      tagDiff [0x4d, 0xac, 0x25, 0x5d] [0xb2, 0x53, 0xda, 0xa2]] = [0x00, 0x01, 0x80, 0xFF] := by decide

theorem test_activeWord : activeWord { valid := true, n := 13, t := 16 } = 0x0002100D := by decide

theorem test_statusWord :
    statusWord { State.reset with
      busy := true, ovr := true, phase := .textCtr, active := { valid := true, n := 7, t := 4 } }
      = 0x0000005D := by decide

theorem test_statusWord_after_failure :
    statusWord { State.reset with
      done := true, ovr := true, err := .authenticationFailed, active := { valid := true, n := 7, t := 4 } }
      = 0x0000060E := by decide

/-! ### One step at a time: the trace V3 of V1, its OPEN V12 to V14, and their failures V26, V27 -/

/-- The block values of V3 and `ADMIT` of the common setting, but for one refused address. -/
def vectorPlatform (refused : Nat) : Platform :=
  { cipher :=
      { blockBytes := 16
        keyOk := true
        encrypt := fun x =>
          if x = 0x4f101112131415160000000000000004 then 0x2ad239bb229b8fb46e308f5bc7409b88
          else if x = 0x2ad239bb229b8fb46e308f5bc7409b88 ^^^ 0x00080001020304050607000000000000 then
            0x2e3b95530ad7c90268caf2c597c49292
          else if x = 0x07101112131415160000000000000000 then 0x2d28114610676c2632bad748559a679a
          else if x = 0x07101112131415160000000000000001 then 0x51432378e474b33971318484103cddfb
          else if x = 0x2e3b95530ad7c90268caf2c597c49292 ^^^ 0x20212223000000000000000000000000 then
            0x6084341b32042bf000b4b7995553a3c5
          else 0 }
    admits := fun a _ => decide (a < 0x10000) && a != refused
    raceDraw := fun k => k
    regPage := 0 }

/-- AD `0001020304050607` at 0x1000 and `text` at 0x2000 (the byte 00 of the AD is unlisted, log 5). -/
def vectorMem (text : List Byte) : Memory :=
  [(0x1001, 0x01), (0x1002, 0x02), (0x1003, 0x03), (0x1004, 0x04), (0x1005, 0x05), (0x1006, 0x06), (0x1007, 0x07)]
    ++ (text.zipIdx.map fun p => (0x2000 + p.2, p.1))

/-- A state of V1's run: configured (7, 4), a command in flight with the latches of P1. -/
def flying (w : Word) (inLen : Dword) (text : List Byte) (phase : Phase) (dp : Datapath) : State :=
  { State.reset with
    mem := vectorMem text
    active := { valid := true, n := 7, t := 4 }
    busy := true
    phase := phase
    latch :=
      { cmdWord := w, cfg := 0x407, nonce := 0x10111213141516000000000000000000, adAddr := 0x1000, adLen := 8,
        inAddr := 0x2000, inLen := inLen, outAddr := 0x3000 }
    dp := dp }

/-- V1's SEAL in a phase. -/
def sealing (phase : Phase) (dp : Datapath) : State :=
  flying 0x00000702 4 [0x20, 0x21, 0x22, 0x23] phase dp

/-- V12's OPEN in a phase. -/
def opening (phase : Phase) (dp : Datapath) : State :=
  flying 0x00000703 8 [0x71, 0x62, 0x01, 0x5b, 0x4d, 0xac, 0x25, 0x5d] phase dp

/-- The datapath after CHECK of V1 and of V12. -/
def checkedDp : Datapath := { zeroDatapath with m := 4, nTxt := 1 }

/-- The datapath of V3 when TAG is entered. -/
def tagDp : Datapath :=
  { checkedDp with
    y := 0x6084341b32042bf000b4b7995553a3c5
    s0 := 0x2d28114610676c2632bad748559a679a
    a := 0x07101112131415160000000000000002
    i := 1
    nAD := 1
    j := 1
    written := 4 }

/-- V10: CFG 0x407 configures; 0x50F fails on the nonce length first; 0x507 on the tag length. -/
theorem test_config_outcomes :
    [0x00000407, 0x0000050F, 0x00000507, 0x0000100D].map (fun c : Word =>
      configOutcome (vectorPlatform 0) { State.reset with latch := { zeroLatches with cfg := c } })
      = [.ok, .invalidNonceLength, .invalidTagLength, .ok] := by decide

/-- V10: a failed CONFIG discards the configuration. -/
theorem test_config_discards :
    (checkConfig (vectorPlatform 0) { sealing .check zeroDatapath with
      latch := { zeroLatches with cmdWord := 0x00000001, cfg := 0x507 } }).active = noConfig := by decide

/-- V18: with N = 13 the last legal payload length is 65535. -/
theorem test_message_too_long :
    [(65535 : Dword), 65536].map (fun len =>
      validateText false 13 { State.reset with
        active := { valid := true, n := 13, t := 4 }, latch := { zeroLatches with inLen := len } })
      = [.ok 65535, .error .messageTooLong] := by decide

/-- V18: OPEN with IN_LEN 3 and t = 4. -/
theorem test_ciphertext_too_short :
    validateText true 7 { sealing .check zeroDatapath with latch := { zeroLatches with inLen := 3 } }
      = .error .ciphertextTooShort := by decide

/-- V3 step 1. -/
theorem test_check_of_seal :
    checkOn (vectorPlatform 0) (sealing .check zeroDatapath) = .next (sealing .macB0 checkedDp) := by rfl

/-- R69: an output region that starts inside the text is refused; one in place is not. -/
theorem test_check_refuses_overlap :
    [(0x2001 : Dword), 0x2000].map (fun out => overlapUndefined { sealing .check checkedDp with
      latch := { (sealing .check checkedDp).latch with outAddr := out } }) = [true, false] := by decide

/-- V3 step 2. -/
theorem test_mac_b0 :
    (macB0On (vectorPlatform 0) (sealing .macB0 checkedDp)).dp.y = 0x2ad239bb229b8fb46e308f5bc7409b88 := by decide

/-- V3 step 3. -/
theorem test_mac_ad :
    macAdOn (vectorPlatform 0)
        (sealing .macAd { checkedDp with y := 0x2ad239bb229b8fb46e308f5bc7409b88, nAD := 1 })
      = sealing .ctrS0 { checkedDp with y := 0x2e3b95530ad7c90268caf2c597c49292, nAD := 1, j := 1 } := by decide

/-- V26: a refused read of 0x1003 ends MAC_AD; nothing was written, so FINISH is next. -/
theorem test_mac_ad_bus_error :
    macAdOn (vectorPlatform 0x1003) (sealing .macAd { checkedDp with y := 5, nAD := 1 })
      = sealing .finish { checkedDp with y := 5, nAD := 1, pendErr := .busError } := by decide

/-- V3 step 4. -/
theorem test_ctr_s0 :
    ctrS0On (vectorPlatform 0) (sealing .ctrS0 checkedDp)
      = sealing .textCtr
          { checkedDp with
            s0 := 0x2d28114610676c2632bad748559a679a
            a := 0x07101112131415160000000000000001
            i := 1 } := by decide

/-- V3 step 5: ciphertext at 0x3000, the plaintext block kept. -/
theorem test_text_ctr_of_seal :
    let t := textCtrOn (vectorPlatform 0)
      (sealing .textCtr { checkedDp with a := 0x07101112131415160000000000000001, i := 1 })
    readRegion t.mem 0x3000 5 = [0x71, 0x62, 0x01, 0x5b, 0x00]
      ∧ t.dp.p = 0x20212223000000000000000000000000 ∧ t.dp.written = 4
      ∧ t.dp.a = 0x07101112131415160000000000000002 ∧ t.phase = .textMac := by decide

/-- V12: OPEN recovers the plaintext and keeps it, not the ciphertext. -/
theorem test_text_ctr_of_open :
    let t := textCtrOn (vectorPlatform 0)
      (opening .textCtr { checkedDp with a := 0x07101112131415160000000000000001, i := 1 })
    readRegion t.mem 0x3000 4 = [0x20, 0x21, 0x22, 0x23] ∧ t.dp.p = 0x20212223000000000000000000000000 := by
  decide

/-- V3 step 6. -/
theorem test_text_mac :
    textMacOn (vectorPlatform 0)
        (sealing .textMac
          { checkedDp with
            y := 0x2e3b95530ad7c90268caf2c597c49292
            p := 0x20212223000000000000000000000000
            i := 1 })
      = sealing .tag { checkedDp with y := 0x6084341b32042bf000b4b7995553a3c5, i := 1 } := by decide

/-- V3 step 7, V26: the tag right after the ciphertext; where the write of tag byte 1 is refused, five output
bytes are left to scrub. -/
theorem test_tag_of_seal :
    let t := tagSeal (vectorPlatform 0) (sealing .tag tagDp)
    let u := tagSeal (vectorPlatform 0x3005) (sealing .tag tagDp)
    readRegion t.mem 0x3004 5 = [0x4d, 0xac, 0x25, 0x5d, 0x00] ∧ t.dp.written = 8 ∧ t.phase = .finish
      ∧ readRegion u.mem 0x3004 2 = [0x4d, 0x00] ∧ u.dp.written = 5 ∧ u.dp.pendErr = .busError
      ∧ u.phase = .scrub := by decide

/-- V12, V13: the tag matches; with its last byte altered it does not. -/
theorem test_tag_of_open :
    let t := tagOpen (vectorPlatform 0) (opening .tag tagDp)
    let u := tagOpen (vectorPlatform 0)
      { opening .tag tagDp with mem := vectorMem [0x71, 0x62, 0x01, 0x5b, 0x4d, 0xac, 0x25, 0x5c] }
    t.dp.pendErr = .ok ∧ u.dp.diff = 0x01 ∧ u.dp.pendErr = .authenticationFailed ∧ u.phase = .scrub := by decide

/-- V26: five bytes to scrub take one step, and the byte after them stays. -/
theorem test_scrub :
    let t := scrubStep { sealing .scrub { tagDp with written := 5 } with
      mem := [(0x3000, 0x71), (0x3004, 0x4d), (0x3005, 0xaa)] }
    t.mem = [(0x3005, 0xaa)] ∧ t.dp.scrubPos = 5 ∧ t.phase = .finish := by decide

/-- R180: a SCRUB step zeroes at most 16 bytes. -/
theorem test_scrub_goes_on :
    let t := scrubStep (sealing .scrub { tagDp with written := 33, scrubPos := 16 })
    t.dp.scrubPos = 32 ∧ t.phase = .scrub := by decide

/-- V3 step 8. -/
theorem test_finish :
    let t := deliverOutcome (sealing .finish { tagDp with written := 8 })
    t.outLen = 8 ∧ statusWord t = 0x0000000A ∧ t.dp = zeroDatapath ∧ t.latch = zeroLatches := by decide

/-- V25: a BusError. -/
theorem test_finish_bus_error :
    let t := deliverOutcome (sealing .finish { tagDp with pendErr := .busError })
    t.outLen = 0 ∧ statusWord t = 0x0000090A := by decide

/-- V27: a CMD write while busy sets OVR and nothing else; clearing DONE and OVR leaves them 0. -/
theorem test_overrun :
    acceptCommand 0x00000702 (sealing .macAd checkedDp) = { sealing .macAd checkedDp with ovr := true }
      ∧ statusWord { sealing .macAd checkedDp with ovr := true } = 0x0000003D := by decide

theorem test_acknowledge :
    statusWord (acknowledge 0x00000006 { State.reset with
      done := true, ovr := true, active := { valid := true, n := 7, t := 4 } }) = 0x00000008 := by decide

/-- P1: the nonce as the host packs it. -/
theorem test_nonce_packing :
    nonceBlock { zeroRegs with nonce0 := 0x10111213, nonce1 := 0x14151600 }
      = 0x10111213141516000000000000000000 := by decide

/-- P1: lines of the host notation as turns. -/
theorem test_host_notation :
    lineCfg 7 4 ++ lineCmd (.seal 7) ++ lineWr64 .adAddrLo .adAddrHi 0x1000
      = [.host (.regWrite 0x0C 4 0x00000407), .host (.regWrite 0x04 4 0x00000702),
        .host (.regWrite 0x30 4 0x00001000), .host (.regWrite 0x34 4 0x00000000)] := by decide

/-- R73: a byte overwritten while the command runs may still be read: draw 1 gives the older byte. -/
theorem test_raced_read :
    memRead (vectorPlatform 0) { sealing .textCtr checkedDp with past := [(0x2000, 0x99)], draws := 1 } 0x2000 2
      = some ([0x99, 0x21], 2) := by decide

/-! ### Witnesses: for every statement with hypotheses, a state and operands that meet them -/

/-- V1's idle host: configured (7, 4), the registers of P1 written. -/
def ready : State :=
  { State.reset with
    regs :=
      { zeroRegs with
        nonce0 := 0x10111213, nonce1 := 0x14151600, adAddr := 0x1000, adLen := 8, inAddr := 0x2000, inLen := 4,
        outAddr := 0x3000 }
    mem := vectorMem [0x20, 0x21, 0x22, 0x23]
    active := { valid := true, n := 7, t := 4 } }

/-- V12's idle host. -/
def readyToOpen : State :=
  { ready with
    regs := { ready.regs with inLen := 8 }
    mem := vectorMem [0x71, 0x62, 0x01, 0x5b, 0x4d, 0xac, 0x25, 0x5d] }

/-- A state whose schedule is the turns `ts`. -/
def scheduled (s : State) (ts : List Turn) : State := { s with turns := ts }

theorem ready_inv : RegisterInv ready := by
  refine ⟨⟨fun _ => ⟨rfl, rfl, rfl, rfl⟩, fun h => ?_⟩, ?_, ?_, ?_⟩
  · cases h
  · unfold ConfigIsLegal; decide
  · unfold DoneIsIdle; decide
  · decide

theorem readyToOpen_inv : RegisterInv readyToOpen := by
  refine ⟨⟨fun _ => ⟨rfl, rfl, rfl, rfl⟩, fun h => ?_⟩, ?_, ?_, ?_⟩
  · cases h
  · unfold ConfigIsLegal; decide
  · unfold DoneIsIdle; decide
  · decide

theorem sealing_inv (p : Phase) (dp : Datapath) (h : p ≠ .idle) : RegisterInv (sealing p dp) := by
  refine ⟨⟨fun h => ?_, fun _ => h⟩, ?_, ?_, ?_⟩
  · cases h
  · show ConfigIsLegal { valid := true, n := 7, t := 4 }
    unfold ConfigIsLegal
    decide
  · rintro ⟨h, _⟩
    cases h
  · show Memory.wf (vectorMem [0x20, 0x21, 0x22, 0x23])
    decide

theorem sealing_accepted (p : Phase) : TextAccepted (sealing p checkedDp) := by
  refine ⟨rfl, .inl ⟨?_, rfl⟩, ?_, ?_, ?_⟩
  · show decodeCommand 0x00000702 = .seal 7
    decide
  · show 4 < 2 ^ 64
    decide
  · show 1 = ceil16 4
    decide
  · cases p <;> decide

theorem quiet_of_no_past {s : State} (h : s.past = []) (a n : Nat) : Quiet s a n := by
  intro c hc
  rw [h] at hc
  cases hc

theorem sealing_memHolds (p : Phase) (dp : Datapath) (a : Nat) :
    MemHolds (sealing p dp).mem (sealing p dp).mem a 0 [] := by
  intro x
  rw [if_neg (by omega)]

theorem witness_EngineTurnRunsThePhasesMicroOp :
    EngineIsNext (sealing .macAd checkedDp) ∧ (sealing .macAd checkedDp).busy = true
      ∧ decode (.phase (phaseCode (sealing .macAd checkedDp).phase)) = .ok .macAd :=
  ⟨.inl rfl, rfl, rfl⟩

theorem witness_CommandWriteRunsTheDecodedWord :
    (scheduled ready [cmdWrite 0x00000702]).turns = cmdWrite 0x00000702 :: []
      ∧ decode (.cmd 0x00000702) = .ok (.seal 7) := ⟨rfl, rfl⟩

theorem witness_IdleEngineHasNoStep : EngineIsNext State.reset ∧ State.reset.busy = false := ⟨.inl rfl, rfl⟩

/-- A byte-wide access, a misaligned one, the first and the last unlisted offset, a listed and a read-only one; two
writes that differ in reserved bits only. -/
theorem witness_RegisterAccessRules :
    ¬((1 : Nat) = 4 ∧ (0x08 : BitVec 8).toNat % 4 = 0) ∧ ¬((4 : Nat) = 4 ∧ (0xFD : BitVec 8).toNat % 4 = 0)
      ∧ ((0x14 : BitVec 8).toNat % 4 = 0 ∧ ∀ r, regOffset r ≠ 0x14)
      ∧ ((0xFC : BitVec 8).toNat % 4 = 0 ∧ ∀ r, regOffset r ≠ 0xFC)
      ∧ (scheduled ready [.host (.regRead (regOffset .status) 4)]).turns
          = [.host (.regRead (regOffset .status) 4)]
      ∧ Reg.outLenHi ∈ [Reg.active, Reg.outLenLo, Reg.outLenHi]
      ∧ Reg.cfg ≠ .cmd ∧ ((0x00000407 : Word) ^^^ 0xFFFFE4F7) &&& writableBits .cfg = 0
      ∧ ((0x00000001 : Word) ^^^ 0xFFFFFFF8) &&& 0x00000006 = 0 := by
  refine ⟨by decide, by decide, ⟨by decide, fun r => ?_⟩, ⟨by decide, fun r => ?_⟩, rfl, by decide, by decide,
    by decide, by decide⟩ <;> cases r <;> decide

theorem witness_RegisterWriteReadsBack :
    Reg.cfg ≠ .cmd ∧ Reg.cfg ≠ .status
      ∧ (scheduled ready [.host (.regWrite (regOffset .cfg) 4 0xFFFFFFFF)]).turns
          = .host (.regWrite (regOffset .cfg) 4 0xFFFFFFFF) :: [] := ⟨by decide, by decide, rfl⟩

theorem witness_StatusAndActiveWords :
    (scheduled ready [.host (.regWrite 0x08 4 0x00000006)]).turns
      = .host (.regWrite 0x08 4 0x00000006) :: [] := rfl

theorem witness_NonceAndAddressPacking : (3 : Nat) < 4 := by decide

/-- The last address of the data memory and the first that does not exist; a byte of a busy engine's output region, the
address after it, and a byte of the region that an access raced for. -/
theorem witness_HostMemoryAccesses :
    Memory.wf ready.mem ∧ ready.busy = false ∧ 2 ^ 64 - 1 < 2 ^ 64
      ∧ (scheduled ready [.host (.memWrite (2 ^ 64 - 1) 0x55), .host (.memRead (2 ^ 64 - 1))]).turns
          = .host (.memWrite (2 ^ 64 - 1) 0x55) :: .host (.memRead (2 ^ 64 - 1)) :: []
      ∧ (scheduled ready [.host (.memRead (2 ^ 64))]).turns = .host (.memRead (2 ^ 64)) :: [] ∧ 2 ^ 64 ≤ 2 ^ 64
      ∧ (sealing .tag tagDp).busy = true ∧ Memory.wf (sealing .tag tagDp).mem
      ∧ ¬((sealing .tag tagDp).busy = true ∧ outAddr (sealing .tag tagDp) ≤ 0x3008
          ∧ 0x3008 < outAddr (sealing .tag tagDp) + outSize (sealing .tag tagDp))
      ∧ Quiet (sealing .tag tagDp) 0x3007 1
      ∧ MayRead { sealing .tag tagDp with past := [(0x3000, 0x99)] } 0x3000 0x99 :=
  ⟨by decide, rfl, by decide, rfl, rfl, by decide, rfl, by decide, by decide, quiet_of_no_past rfl _ _, .inr (by decide)⟩

theorem witness_ResetState : ResetIsNext (scheduled (sealing .textCtr checkedDp) [.reset]) := ⟨_, rfl⟩

theorem witness_PlatformResetClearsTheEngine :
    (scheduled (sealing .textCtr checkedDp) [.reset]).turns = .reset :: [] := rfl

/-- The words of all four command rows, an idle and a busy engine. -/
theorem witness_CommandWriteIsAcceptedOrDropped :
    encode .config = .cmd 0x00000001 ∧ encode (.seal 7) = .cmd 0x00000702 ∧ encode (.openCmd 15) = .cmd 0x00000F03
      ∧ encode (.bad 0x00000012) = .cmd 0x00000012 ∧ ready.busy = false
      ∧ (sealing .macAd checkedDp).busy = true := by decide

/-- Steps that answer a next state: an acceptance, FINISH, reset. -/
theorem witness_BusyHasThreeWriters :
    (∃ t, step (scheduled ready [cmdWrite 0x00000702]) = .next t) ∧ ready.busy = false
      ∧ (∃ t, step (sealing .finish tagDp) = .next t) ∧ (sealing .finish tagDp).busy = true
      ∧ (∃ t, step (scheduled (sealing .tag tagDp) [.reset]) = .next t)
      ∧ RegisterInv (sealing .finish tagDp) :=
  ⟨⟨_, rfl⟩, rfl, ⟨_, rfl⟩, rfl, ⟨_, rfl⟩, sealing_inv _ _ (by decide)⟩

theorem witness_DoneHasFourWriters :
    ∃ t, step (scheduled { ready with done := true } [.host (.regWrite 0x08 4 0x00000002)]) = .next t := ⟨_, rfl⟩

theorem witness_OverrunIsSticky :
    (sealing .macAd checkedDp).busy = true
      ∧ (scheduled (sealing .macAd checkedDp) [cmdWrite 0x00000702]).turns = cmdWrite 0x00000702 :: []
      ∧ ∃ t, step (scheduled (sealing .macAd checkedDp) [cmdWrite 0x00000702]) = .next t :=
  ⟨rfl, rfl, ⟨_, rfl⟩⟩

/-- A CHECK of a CONFIG that discards the configuration. -/
theorem witness_ConfigurationHasTwoWriters :
    ∃ t, step { sealing .check zeroDatapath with latch := { zeroLatches with cmdWord := 1, cfg := 0x406 } } = .next t
      ∧ t.active ≠ (sealing .check zeroDatapath).active := ⟨_, rfl, by decide⟩

/-- An acceptance; FINISH of CONFIG, of a SEAL, of an OPEN and of a failure; a reset; a turn of none of these. -/
theorem witness_OutcomeRegistersHaveTheirWriters :
    ((∃ t, step (scheduled ready [cmdWrite 0x00000702]) = .next t)
        ∧ CommandIsNext (scheduled ready [cmdWrite 0x00000702]))
      ∧ ((∃ t, step (sealing .finish tagDp) = .next t) ∧ EngineIsNext (sealing .finish tagDp)
        ∧ decodeCommand (sealing .finish tagDp).latch.cmdWord = .seal 7)
      ∧ decodeCommand (opening .finish tagDp).latch.cmdWord = .openCmd 7 ∧ decodeCommand 0x00000001 = .config
      ∧ ({ tagDp with pendErr := .busError }).pendErr ≠ .ok
      ∧ ((∃ t, step (scheduled ready [.reset]) = .next t) ∧ ResetIsNext (scheduled ready [.reset]))
      ∧ (∃ t, step (sealing .macB0 checkedDp) = .next t) ∧ (sealing .macB0 checkedDp).phase ≠ .finish :=
  ⟨⟨⟨_, rfl⟩, ⟨_, _, rfl⟩⟩, ⟨⟨_, rfl⟩, .inl rfl, rfl⟩, rfl, rfl, by decide, ⟨⟨_, rfl⟩, ⟨_, rfl⟩⟩, ⟨_, rfl⟩, by decide⟩

theorem witness_CheckOfConfig :
    decodeCommand 0x00000001 = .config
      ∧ ErrCode.invalidTagLength = (if ¬(7 ≤ ((0x507 : Word).extractLsb' 0 4).toNat
            ∧ ((0x507 : Word).extractLsb' 0 4).toNat ≤ 13) then ErrCode.invalidNonceLength
          else if ((0x507 : Word).extractLsb' 8 5).toNat ∉ [4, 6, 8, 10, 12, 14, 16] then .invalidTagLength
          else if ¬(Config.platform.cipher.blockBytes = 16 ∧ Config.platform.cipher.keyOk = true) then
            .invalidCipher
          else .ok) := ⟨rfl, rfl⟩

/-- A SEAL in flight under the configuration (13, 4) with input length `len` (V18). -/
def longCall (w : Word) (len : Dword) : State :=
  { flying w len [] .check zeroDatapath with active := { valid := true, n := 13, t := 4 } }

/-- V18: nothing configured; NLEN 8 under N = 7; 65536 bytes; 65535 bytes. -/
theorem witness_CheckOfSeal :
    decodeCommand 0x00000702 = .seal 7 ∧ { sealing .check zeroDatapath with active := noConfig }.active.valid = false
      ∧ decodeCommand 0x00000802 = .seal 8 ∧ (8 : BitVec 4) ≠ (sealing .check zeroDatapath).active.n
      ∧ decodeCommand (longCall 0x00000D02 65536).latch.cmdWord = .seal 13
      ∧ (longCall 0x00000D02 65536).active.n = 13
      ∧ 2 ^ (8 * (15 - (13 : BitVec 4).toNat)) ≤ (longCall 0x00000D02 65536).latch.inLen.toNat
      ∧ (longCall 0x00000D02 65535).latch.inLen.toNat < 2 ^ (8 * (15 - (13 : BitVec 4).toNat))
      ∧ overlapUndefined { longCall 0x00000D02 0x800 with
          dp := { zeroDatapath with m := (longCall 0x00000D02 0x800).latch.inLen } } = false := by decide

/-- V18: nothing configured; another NLEN; IN_LEN 3 and 4 under t = 4; 65540 and 65539 bytes. -/
theorem witness_CheckOfOpen :
    decodeCommand 0x00000703 = .openCmd 7 ∧ { opening .check zeroDatapath with active := noConfig }.active.valid = false
      ∧ (8 : BitVec 4) ≠ (opening .check zeroDatapath).active.n
      ∧ (longCall 0x00000D03 3).latch.inLen.toNat < (longCall 0x00000D03 3).active.t.toNat
      ∧ (longCall 0x00000D03 4).active.t.toNat ≤ (longCall 0x00000D03 4).latch.inLen.toNat
      ∧ decodeCommand (longCall 0x00000D03 65540).latch.cmdWord = .openCmd (longCall 0x00000D03 65540).active.n
      ∧ 2 ^ (8 * (15 - (13 : BitVec 4).toNat)) ≤ (longCall 0x00000D03 65540).latch.inLen.toNat - 4
      ∧ (longCall 0x00000D03 65539).latch.inLen.toNat - 4 < 2 ^ (8 * (15 - (13 : BitVec 4).toNat))
      ∧ overlapUndefined { longCall 0x00000D03 4 with
          dp := { zeroDatapath with
            m := (longCall 0x00000D03 4).latch.inLen - (longCall 0x00000D03 4).active.t.setWidth 64 } } = false := by
  decide

theorem witness_CheckOfBad : decodeCommand 0x00000712 = .bad 0x00000712 := by decide

/-- One address of overlap, for a SEAL and for an OPEN. -/
theorem witness_CheckRefusesUndefinedOverlap :
    (decodeCommand (sealing .check zeroDatapath).latch.cmdWord = .seal 7
        ∧ (7 : BitVec 4) = (sealing .check zeroDatapath).active.n
        ∧ (4 : Nat) = (sealing .check zeroDatapath).latch.inLen.toNat ∧ (8 : Nat) = 4 + 4 ∧ (0 : Nat) = 0)
      ∧ (decodeCommand (opening .check zeroDatapath).latch.cmdWord = .openCmd 7
        ∧ (7 : BitVec 4) = (opening .check zeroDatapath).active.n
        ∧ 4 + 4 = (opening .check zeroDatapath).latch.inLen.toNat)
      ∧ 4 = (opening .check zeroDatapath).active.t.toNat ∧ (opening .check zeroDatapath).active.valid = true
      ∧ 4 < 2 ^ (8 * (15 - (opening .check zeroDatapath).active.n.toNat)) := by decide

/-- A block nothing raced for, and one where the first associated-data byte may be seen as it was. -/
theorem witness_MacAdStep :
    2 = (adPrefix (adLen (sealing .macAd checkedDp))).length ∧ 0 < adLen (sealing .macAd checkedDp)
      ∧ Quiet (sealing .macAd checkedDp) (adAddr (sealing .macAd checkedDp)) (adLen (sealing .macAd checkedDp))
      ∧ MayRead { sealing .macAd checkedDp with past := [(0x1000, 0x99)] } (0x1000 + 0) 0x99 :=
  ⟨rfl, by decide, quiet_of_no_past rfl _ _, .inr (by decide)⟩

theorem witness_CtrS0Step :
    7 ≤ (sealing .ctrS0 checkedDp).active.n.toNat ∧ (sealing .ctrS0 checkedDp).active.n.toNat ≤ 13
      ∧ 7 ≤ (longCall 0x00000D02 1).active.n.toNat ∧ (longCall 0x00000D02 1).active.n.toNat ≤ 13 := by decide

/-- V1's only text block, quiet and raced; the last block of 33 bytes, of one byte; an address whose access is refused
on every platform. -/
theorem witness_TextCtrStep :
    1 ≤ (sealing .textCtr { checkedDp with i := 1 }).dp.i
      ∧ (0 : Nat) = 16 * ((sealing .textCtr { checkedDp with i := 1 }).dp.i - 1)
      ∧ 0 < payloadLen (sealing .textCtr { checkedDp with i := 1 })
      ∧ 4 = min 16 (payloadLen (sealing .textCtr { checkedDp with i := 1 }) - 0)
      ∧ Memory.wf (sealing .textCtr { checkedDp with i := 1 }).mem
      ∧ Quiet (sealing .textCtr { checkedDp with i := 1 }) 0x2000 4
      ∧ MayRead { sealing .textCtr { checkedDp with i := 1 } with past := [(0x2003, 0x99)] } (0x2000 + 3) 0x99
      ∧ (16 * (3 - 1) < payloadLen (sealing .textCtr { checkedDp with i := 3, m := 33 })
        ∧ 1 = min 16 (payloadLen (sealing .textCtr { checkedDp with i := 3, m := 33 }) - 16 * (3 - 1)))
      ∧ admitted Config.platform (2 ^ 64 - 1 + 1) .read = false :=
  ⟨by decide, rfl, by decide, rfl, by decide, quiet_of_no_past rfl _ _, .inr (by decide), ⟨by decide, by decide⟩,
    by simp [admitted]⟩

theorem witness_TagOfSeal :
    decodeCommand (sealing .tag tagDp).latch.cmdWord = .seal 7 ∧ 4 = payloadLen (sealing .tag tagDp)
      ∧ 4 = (sealing .tag tagDp).active.t.toNat ∧ 4 ≤ 16 ∧ 0x3004 = outAddr (sealing .tag tagDp) + 4
      ∧ Memory.wf (sealing .tag tagDp).mem := by decide

/-- V12's tag, quiet; and raced, its last byte overwritten. -/
theorem witness_TagOfOpen :
    decodeCommand (opening .tag tagDp).latch.cmdWord = .openCmd 7 ∧ 4 = payloadLen (opening .tag tagDp)
      ∧ 4 = (opening .tag tagDp).active.t.toNat ∧ 4 ≤ 16 ∧ 0x2004 = inAddr (opening .tag tagDp) + 4
      ∧ Quiet (opening .tag tagDp) 0x2004 4
      ∧ MayRead { opening .tag tagDp with past := [(0x2007, 0x5c)] } (0x2004 + 3) 0x5c :=
  ⟨rfl, rfl, rfl, by decide, rfl, quiet_of_no_past rfl _ _, .inr (by decide)⟩

theorem witness_ScrubStep :
    4 = min 16 ((sealing .scrub tagDp).dp.written - (sealing .scrub tagDp).dp.scrubPos)
      ∧ 0x3000 = outAddr (sealing .scrub tagDp) + (sealing .scrub tagDp).dp.scrubPos
      ∧ Memory.wf (sealing .scrub tagDp).mem := by decide

/-- FINISH of a SEAL, and of a BAD word with its outcome. -/
theorem witness_FinishStep :
    (∀ w, decodeCommand (sealing .finish tagDp).latch.cmdWord = .bad w → (sealing .finish tagDp).dp.pendErr ≠ .ok)
      ∧ (∀ w, decodeCommand 0x00000712 = .bad w → ({ zeroDatapath with pendErr := .badCommand }).pendErr ≠ .ok)
      ∧ ∃ t, exec .finish (sealing .finish tagDp) = .next t ∧ EngineIsNext t := by
  refine ⟨fun w h => ?_, fun w _ => by decide, ⟨_, rfl, .inl rfl⟩⟩
  have e : decodeCommand (sealing .finish tagDp).latch.cmdWord = .seal 7 := rfl
  rw [e] at h
  cases h

/-- An AD byte, a text byte of the first block and a tag byte right at 2^64. -/
theorem witness_AddressesDoNotWrap :
    (∃ m < 16, (adPrefix 8).length ≤ 16 * 0 + m ∧ 16 * 0 + m < (adPrefix 8).length + 8
        ∧ 2 ^ 64 ≤ 2 ^ 64 - 1 + (16 * 0 + m - (adPrefix 8).length))
      ∧ (1 ≤ 1 ∧ 16 * (1 - 1) < 4 ∧ ∃ k < min 16 (4 - 16 * (1 - 1)), 2 ^ 64 ≤ 2 ^ 64 - 1 + 16 * (1 - 1) + k)
      ∧ ∃ k < 4, 2 ^ 64 ≤ 2 ^ 64 - 4 + 4 + k :=
  ⟨⟨3, by decide, by decide, by decide, by decide⟩, ⟨by decide, by decide, 1, by decide, by decide⟩,
    ⟨0, by decide, by decide⟩⟩

/-- A constant, a raced byte and a quiet one are read; the raced byte may be the older one. -/
theorem witness_RacedBytesAreOldOrNew :
    let s := { sealing .macAd checkedDp with past := [(0x1001, 0x99)], draws := 1 }
    readSources (vectorPlatform 0) s [.const 0x08, .mem 0x1001, .mem 0x1002] = some ([0x08, 0x99, 0x02], 2)
      ∧ ([.const 0x08, .mem 0x1001, .mem 0x1002] : List ByteSource)[1]? = some (.mem 0x1001)
      ∧ admitted (vectorPlatform 0) 0x1001 .read = true ∧ MayRead s 0x1001 0x99 ∧ MayRead s 0x1001 0x01 :=
  ⟨rfl, rfl, by decide, .inr (by decide), .inl (by decide)⟩

theorem witness_MicroOpsLeaveTheHostSide :
    Instr.textMac ∈ [Instr.check, .macB0, .macAd, .ctrS0, .textCtr, .textMac, .tag, .scrub]
      ∧ ∃ t, exec .textMac (sealing .textMac checkedDp) = .next t := ⟨by decide, ⟨_, rfl⟩⟩

/-- An address right after what each storing micro-op stores. -/
theorem witness_MemoryFrames :
    (∃ t, exec .finish (sealing .finish tagDp) = .next t)
      ∧ (∃ t, exec .tag (opening .tag tagDp) = .next t)
      ∧ decodeCommand (opening .tag tagDp).latch.cmdWord = .openCmd 7
      ∧ (∃ t, exec .textCtr (sealing .textCtr { checkedDp with i := 1 }) = .next t)
      ∧ ¬(0x3000 ≤ 0x3004 ∧ 0x3004 < 0x3000 + textCount (sealing .textCtr { checkedDp with i := 1 }))
      ∧ (∃ t, exec .tag (sealing .tag tagDp) = .next t)
      ∧ decodeCommand (sealing .tag tagDp).latch.cmdWord = .seal 7
      ∧ ¬(0x3004 ≤ 0x3003 ∧ 0x3003 < 0x3004 + tagLen (sealing .tag tagDp))
      ∧ (∃ t, exec .scrub (sealing .scrub tagDp) = .next t)
      ∧ ¬(0x3000 ≤ 0x3004 ∧ 0x3004 < 0x3000 + scrubCount (sealing .scrub tagDp)) :=
  ⟨⟨_, rfl⟩, ⟨_, rfl⟩, rfl, ⟨_, rfl⟩, by decide, ⟨_, rfl⟩, rfl, by decide, ⟨_, rfl⟩, by decide⟩

theorem witness_MacAndCtrKeepApart :
    (∃ t, step (sealing .finish tagDp) = .next t ∧ t.dp.y ≠ (sealing .finish tagDp).dp.y)
      ∧ (Instr.ctrS0 ∈ [Instr.ctrS0, .textCtr] ∧ ∃ t, exec .ctrS0 (sealing .ctrS0 checkedDp) = .next t)
      ∧ (Instr.macB0 ∈ [Instr.macB0, .macAd, .textMac]
        ∧ ∃ t, exec .macB0 (sealing .macB0 checkedDp) = .next t) :=
  ⟨⟨_, rfl, by decide⟩, ⟨by decide, ⟨_, rfl⟩⟩, ⟨by decide, ⟨_, rfl⟩⟩⟩

theorem witness_CounterIncrement :
    (2 : Nat) ≤ 15 ∧ 13 < 16 - 2 ∧ (List.replicate 13 (0x11 : Byte)).length ≤ 14
      ∧ 0xFFFE + 1 < 2 ^ (8 * (15 - (List.replicate 13 (0x11 : Byte)).length)) := by decide

theorem witness_BlockLayouts :
    7 ≤ (List.replicate 13 (0x11 : Byte)).length ∧ (List.replicate 13 (0x11 : Byte)).length ≤ 13
      ∧ 2 = 15 - (List.replicate 13 (0x11 : Byte)).length ∧ 16 ∈ [4, 6, 8, 10, 12, 14, 16]
      ∧ 0xFFFF < 2 ^ (8 * 2) := by decide

/-- The last length of each class. -/
theorem witness_AdPrefixClasses :
    (0 < 65279 ∧ 65279 < 65280) ∧ (65280 ≤ 2 ^ 32 - 1 ∧ 2 ^ 32 - 1 < 2 ^ 32)
      ∧ 2 ^ 32 ≤ 2 ^ 64 - 1 ∧ 2 ^ 64 - 1 < 2 ^ 64 := by decide

theorem witness_TagComparisonIsEquality : ([0x4d, 0xac] : List Byte).length = ([0x4d, 0xad] : List Byte).length := rfl

theorem witness_CtrPassIsSelfInverse :
    15 < 16 ∧ 16 * 1 + 15 < (List.replicate 32 (0x20 : Byte)).length := by decide

theorem witness_StepKeepsRegisterInvariant :
    RegisterInv (sealing .macB0 checkedDp) ∧ ∃ t, step (sealing .macB0 checkedDp) = .next t :=
  ⟨sealing_inv _ _ (by decide), ⟨_, rfl⟩⟩

/-- MAC_B0 of V1; and a text phase, whose counter block and mask are the platform's. -/
theorem witness_StepKeepsFlightInvariant :
    (RegisterInv (sealing .macB0 checkedDp) ∧ FlightInv Config.platform (sealing .macB0 checkedDp)
        ∧ ∃ t, step (sealing .macB0 checkedDp) = .next t)
      ∧ FlightInv Config.platform (sealing .textCtr
          { checkedDp with
            i := 1
            a := 0x07101112131415160000000000000001
            s0 := enc Config.platform 0x07101112131415160000000000000000 }) :=
  ⟨⟨sealing_inv _ _ (by decide), ⟨sealing_accepted _, rfl, rfl⟩, ⟨_, rfl⟩⟩,
    ⟨⟨rfl, .inl ⟨rfl, rfl⟩, by decide, rfl, rfl⟩, rfl, by decide, by decide, ⟨by decide, by rfl⟩, rfl⟩⟩

theorem witness_EngineStepKeepsProgress :
    RegisterInv (sealing .macB0 checkedDp) ∧ FlightInv Config.platform (sealing .macB0 checkedDp)
      ∧ ProgressInv Config.platform (sealing .macB0 checkedDp).mem (sealing .macB0 checkedDp)
      ∧ EngineIsNext (sealing .macB0 checkedDp) ∧ ∃ t, step (sealing .macB0 checkedDp) = .next t :=
  ⟨sealing_inv _ _ (by decide), ⟨sealing_accepted _, rfl, rfl⟩, ⟨sealing_memHolds _ _ _, rfl⟩, .inl rfl, ⟨_, rfl⟩⟩

theorem witness_AcceptanceStartsProgress :
    RegisterInv (scheduled ready [cmdWrite 0x00000702]) ∧ (scheduled ready [cmdWrite 0x00000702]).busy = false
      ∧ CommandIsNext (scheduled ready [cmdWrite 0x00000702])
      ∧ ∃ t, step (scheduled ready [cmdWrite 0x00000702]) = .next t :=
  ⟨ready_inv, rfl, ⟨_, _, rfl⟩, ⟨_, rfl⟩⟩

theorem witness_PhaseSequence :
    RegisterInv (sealing .macB0 checkedDp) ∧ FlightInv Config.platform (sealing .macB0 checkedDp)
      ∧ (sealing .macB0 checkedDp).busy = true ∧ EngineIsNext (sealing .macB0 checkedDp)
      ∧ ∃ t, step (sealing .macB0 checkedDp) = .next t :=
  ⟨sealing_inv _ _ (by decide), ⟨sealing_accepted _, rfl, rfl⟩, rfl, .inl rfl, ⟨_, rfl⟩⟩

theorem witness_EngineStepLowersTheMeasure :
    RegisterInv (sealing .macB0 checkedDp) ∧ FlightInv Config.platform (sealing .macB0 checkedDp)
      ∧ (sealing .macB0 checkedDp).busy = true ∧ EngineIsNext (sealing .macB0 checkedDp)
      ∧ ∃ t, step (sealing .macB0 checkedDp) = .next t :=
  ⟨sealing_inv _ _ (by decide), ⟨sealing_accepted _, rfl, rfl⟩, rfl, .inl rfl, ⟨_, rfl⟩⟩

theorem witness_CommandsTerminate :
    RegisterInv (sealing .macB0 checkedDp) ∧ FlightInv Config.platform (sealing .macB0 checkedDp)
      ∧ (sealing .macB0 checkedDp).turns = [] :=
  ⟨sealing_inv _ _ (by decide), ⟨sealing_accepted _, rfl, rfl⟩, rfl⟩

theorem witness_EngineWritesOnlyTheOutputRegion :
    FlightInv Config.platform (sealing .macB0 checkedDp) ∧ EngineIsNext (sealing .macB0 checkedDp)
      ∧ (∃ t, step (sealing .macB0 checkedDp) = .next t)
      ∧ ¬(outAddr (sealing .macB0 checkedDp) ≤ 0x3008
        ∧ 0x3008 < outAddr (sealing .macB0 checkedDp) + outSize (sealing .macB0 checkedDp)) :=
  ⟨⟨sealing_accepted _, rfl, rfl⟩, .inl rfl, ⟨_, rfl⟩, by decide⟩

theorem witness_SealRun :
    RegisterInv ready ∧ ready.busy = false ∧ ready.turns = [] ∧ ready.active.valid = true ∧ 7 = ready.active.n
      ∧ ready.regs.inLen.toNat < 2 ^ (8 * (15 - (7 : BitVec 4).toNat))
      ∧ ∃ u, exec (.seal 7) ready = .next u
        ∧ overlapUndefined { u with dp := { u.dp with m := ready.regs.inLen } } = false :=
  ⟨ready_inv, rfl, rfl, rfl, rfl, by decide, _, rfl, rfl⟩

theorem witness_OpenRun :
    RegisterInv readyToOpen ∧ readyToOpen.busy = false ∧ readyToOpen.turns = [] ∧ readyToOpen.active.valid = true
      ∧ 7 = readyToOpen.active.n ∧ 4 = readyToOpen.active.t.toNat ∧ 4 + 4 = readyToOpen.regs.inLen.toNat
      ∧ 4 < 2 ^ (8 * (15 - (7 : BitVec 4).toNat))
      ∧ ∃ u, exec (.openCmd 7) readyToOpen = .next u
        ∧ overlapUndefined { u with dp := { u.dp with m := BitVec.ofNat 64 4 } } = false :=
  ⟨readyToOpen_inv, rfl, rfl, rfl, rfl, rfl, rfl, by decide, _, rfl, rfl⟩

/-- A platform whose cipher is the identity: injective, as R186 (b) asks. -/
def identityPlatform : Platform :=
  { vectorPlatform 0 with cipher := { blockBytes := 16, keyOk := true, encrypt := fun x => x } }

/-- The tag of the ciphertext `[0x71, 0x62]` under the identity cipher. -/
def identityTag (t : Nat) : List Byte :=
  messageTag identityPlatform t [1, 2, 3, 4, 5, 6, 7] [9] (ctrXor identityPlatform [1, 2, 3, 4, 5, 6, 7] [0x71, 0x62])

theorem witness_OpenInvertsSeal :
    (16 : Nat) ≤ 16 ∧ (sealOutput identityPlatform 16 [1, 2, 3, 4, 5, 6, 7] [9] [0x20, 0x21]).length = 18 := by
  decide

/-- An altered tag; a change in the ciphertext's only block, and one in the associated data's only block. -/
theorem witness_TamperingIsDetected :
    ((identityTag 4).length = 4
        ∧ openOutput identityPlatform 4 [1, 2, 3, 4, 5, 6, 7] [9] [0x71, 0x62] (identityTag 4)
            = .ok (ctrXor identityPlatform [1, 2, 3, 4, 5, 6, 7] [0x71, 0x62])
        ∧ [0, 0, 0, 0] ≠ identityTag 4)
      ∧ (∀ x y, identityPlatform.cipher.encrypt x = identityPlatform.cipher.encrypt y → x = y)
      ∧ (identityTag 16).length = 16
      ∧ openOutput identityPlatform 16 [1, 2, 3, 4, 5, 6, 7] [9] [0x71, 0x62] (identityTag 16)
          = .ok (ctrXor identityPlatform [1, 2, 3, 4, 5, 6, 7] [0x71, 0x62])
      ∧ (([0x70, 0x62] : List Byte) ≠ [0x71, 0x62]
        ∧ ∀ k, k / 16 ≠ 0 → ([0x70, 0x62] : List Byte).getD k 0 = ([0x71, 0x62] : List Byte).getD k 0)
      ∧ (([8] : List Byte) ≠ [9]
        ∧ ∀ k, (k + (adPrefix 1).length) / 16 ≠ 0 → ([8] : List Byte).getD k 0 = ([9] : List Byte).getD k 0) := by
  refine ⟨by decide, fun x y h => h, by decide, by decide, ⟨by decide, fun k h => ?_⟩, ⟨by decide, fun k h => ?_⟩⟩
  · have hk : 2 ≤ k := by omega
    rw [List.getD_eq_default _ _ (by simpa using hk), List.getD_eq_default _ _ (by simpa using hk)]
  · have hk : 1 ≤ k := by
      have : (adPrefix 1).length = 2 := rfl
      omega
    rw [List.getD_eq_default _ _ (by simpa using hk), List.getD_eq_default _ _ (by simpa using hk)]

theorem witness_DataDoesNotSteerTheEngine :
    SameShape (sealing .macB0 checkedDp) { sealing .macB0 checkedDp with mem := vectorMem [0x77] }
      ∧ EngineIsNext (sealing .macB0 checkedDp)
      ∧ EngineIsNext { sealing .macB0 checkedDp with mem := vectorMem [0x77] }
      ∧ (∃ t, step (sealing .macB0 checkedDp) = .next t)
      ∧ ∃ t, step { sealing .macB0 checkedDp with mem := vectorMem [0x77] } = .next t :=
  ⟨by refine ⟨rfl, rfl, rfl, rfl, rfl, rfl, rfl, rfl, rfl, rfl, rfl, rfl, rfl, rfl, rfl, rfl, rfl, rfl⟩,
    .inl rfl, .inl rfl, ⟨_, rfl⟩, ⟨_, rfl⟩⟩

theorem witness_LatchesShieldTheCommand :
    Instr.check ∈ [Instr.check, .macB0, .macAd, .ctrS0, .textCtr, .textMac, .tag, .scrub, .finish]
      ∧ ∃ t, exec .check (sealing .check zeroDatapath) = .next t := ⟨by decide, ⟨_, rfl⟩⟩

end Sys2Proof.Tests
end

/-! The engine's turn, and reads at or above 2^64 (R10, R16, R40, R68, R213). -/

namespace Sys2Proof.Machine

open Sys2Proof.Config (Platform Dir)
open Sys2Proof.Safety

/-! ### The engine's turn -/

theorem fetch_of_engineIsNext {s : State} (h : EngineIsNext s) : fetch s = engineTurn (dropTurn s) := by
  rcases fetch_cases s with ⟨_, hf⟩ | ⟨access, ts, hs, _⟩ | ⟨ts, hs, _⟩
  · exact hf
  · simp [EngineIsNext, hs] at h
  · simp [EngineIsNext, hs] at h

theorem engineTurn_of_microOp {s : State} {i : Instr} (hb : s.busy = true) (hi : microOp s.phase = some i) :
    engineTurn s = .run i s := by
  simp [engineTurn, hb, hi]

theorem engineTurn_of_idle {s : State} (hb : s.busy = false) : engineTurn s = .settled s := by
  simp [engineTurn, hb]

theorem step_of_microOp {s : State} {i : Instr} (h : EngineIsNext s) (hb : s.busy = true)
    (hi : microOp s.phase = some i) : step s = exec i (dropTurn s) := by
  have hf : fetch s = .run i (dropTurn s) :=
    (fetch_of_engineIsNext h).trans (engineTurn_of_microOp (s := dropTurn s) hb hi)
  simp [step, hf]

theorem step_of_idle {s : State} (h : EngineIsNext s) (hb : s.busy = false) : step s = .next (dropTurn s) := by
  have hf : fetch s = .settled (dropTurn s) :=
    (fetch_of_engineIsNext h).trans (engineTurn_of_idle (s := dropTurn s) hb)
  simp [step, hf]

/-- The decoder and `microOp` agree on what a phase stands for (R40, R86). -/
theorem decode_phaseCode_eq_ok_iff (p : Phase) (i : Instr) :
    decode (.phase (phaseCode p)) = .ok i ↔ microOp p = some i := by
  cases p <;> simp [decode, decodePhase, phaseCode, microOp]

/-- Settles O4: the engine's turn runs `microOp` of the phase, which is what the phase's code decodes to. -/
theorem engineTurnRunsThePhasesMicroOp : Obligations.EngineTurnRunsThePhasesMicroOp := by
  intro s i hnext hb hd
  exact step_of_microOp hnext hb ((decode_phaseCode_eq_ok_iff s.phase i).mp hd)

/-- Settles O6: with BUSY = 0 the engine's turn is settled at once in the state it is given. -/
theorem idleEngineHasNoStep : Obligations.IdleEngineHasNoStep := fun _ => step_of_idle

/-! ### Refused reads -/

theorem admitted_eq_false_of_le (cfg : Platform) {a : Nat} (d : Dir) (h : 2 ^ 64 ≤ a) : admitted cfg a d = false :=
  Bool.eq_false_iff.mpr fun hA => absurd (lt_of_admitted hA) (Nat.not_lt.mpr h)

theorem mem_memSources_of_lt (a : Nat) {n k : Nat} (h : k < n) : .mem (a + k) ∈ memSources a n :=
  List.mem_map_of_mem (List.mem_range.mpr h)

theorem readSources_eq_none_of_le (cfg : Platform) (s : State) {xs : List ByteSource} {a : Nat}
    (hx : .mem a ∈ xs) (ha : 2 ^ 64 ≤ a) : readSources cfg s xs = none :=
  (readSources_eq_none_iff cfg s xs).mpr ⟨.mem a, hx, admitted_eq_false_of_le cfg .read ha⟩

theorem memRead_eq_none_of_le (cfg : Platform) (s : State) {a n k : Nat} (hk : k < n) (ha : 2 ^ 64 ≤ a + k) :
    memRead cfg s a n = none :=
  readSources_eq_none_of_le cfg s (mem_memSources_of_lt a hk) ha

/-- Byte `k` of the associated-data stream comes from memory exactly between the prefix and the padding (R132). -/
theorem adSource_of_data {s : State} {k : Nat} (hlo : (adPrefix (adLen s)).length ≤ k)
    (hhi : k < (adPrefix (adLen s)).length + adLen s) :
    adSource s k = .mem (adAddr s + (k - (adPrefix (adLen s)).length)) := by
  simp [adSource, Nat.not_lt.mpr hlo, hhi]

theorem adSource_mem_adBlockSources (s : State) {m : Nat} (h : m < 16) :
    adSource s (16 * s.dp.j + m) ∈ adBlockSources s :=
  List.mem_map_of_mem (f := fun m => adSource s (16 * s.dp.j + m)) (List.mem_range.mpr h)

theorem macAdOn_of_refused {cfg : Platform} {s : State} (h : readSources cfg s (adBlockSources s) = none) :
    macAdOn cfg s = raiseBusError s := by
  simp [macAdOn, h]

theorem textCtrOn_of_refused {cfg : Platform} {s : State}
    (h : memRead cfg s (inAddr s + textBase s) (textCount s) = none) : textCtrOn cfg s = raiseBusError s := by
  simp [textCtrOn, h]

theorem tagOpen_of_refused {cfg : Platform} {s : State}
    (h : memRead cfg s (inAddr s + payloadLen s) (tagLen s) = none) : tagOpen cfg s = raiseBusError s := by
  simp [tagOpen, h]

theorem exec_macAd (s : State) : exec .macAd s = .next (macAdOn Config.platform s) := rfl

theorem exec_textCtr (s : State) : exec .textCtr s = .next (textCtrOn Config.platform s) := rfl

theorem exec_tag_of_open {s : State} {l : BitVec 4} (h : commandOf s = .openCmd l) :
    exec .tag s = .next (tagOpen Config.platform s) := by
  simp [exec, execTag, tagOn, h]

theorem exec_macAd_of_le (s : State) {m : Nat} (hm : m < 16)
    (hlo : (adPrefix (adLen s)).length ≤ 16 * s.dp.j + m)
    (hhi : 16 * s.dp.j + m < (adPrefix (adLen s)).length + adLen s)
    (ha : 2 ^ 64 ≤ adAddr s + (16 * s.dp.j + m - (adPrefix (adLen s)).length)) :
    exec .macAd s = .next (raiseBusError s) := by
  have hsrc := adSource_mem_adBlockSources s hm
  rw [adSource_of_data hlo hhi] at hsrc
  rw [exec_macAd, macAdOn_of_refused (readSources_eq_none_of_le _ s hsrc ha)]

theorem exec_textCtr_of_le (s : State) {k : Nat} (hk : k < textCount s)
    (ha : 2 ^ 64 ≤ inAddr s + textBase s + k) : exec .textCtr s = .next (raiseBusError s) := by
  rw [exec_textCtr, textCtrOn_of_refused (memRead_eq_none_of_le _ s hk ha)]

theorem exec_tag_of_le {s : State} {l : BitVec 4} (hc : commandOf s = .openCmd l) {k : Nat} (hk : k < tagLen s)
    (ha : 2 ^ 64 ≤ inAddr s + payloadLen s + k) : exec .tag s = .next (raiseBusError s) := by
  rw [exec_tag_of_open hc, tagOpen_of_refused (memRead_eq_none_of_le _ s hk ha)]

/-- Settles O35: the byte named is one of the sources the micro-op reads, and a source at or above 2^64 refuses the
whole read. -/
theorem addressesDoNotWrap : Obligations.AddressesDoNotWrap := by
  intro s t ht
  have hbus : t = raiseBusError s := ht
  subst hbus
  refine ⟨?_, ?_, ?_⟩
  · rintro ⟨m, hm, hlo, hhi, ha⟩
    exact exec_macAd_of_le s hm hlo hhi ha
  · rintro _ _ ⟨k, hk, ha⟩
    exact exec_textCtr_of_le s hk ha
  · rintro l hc ⟨k, hk, ha⟩
    exact exec_tag_of_le hc hk ha

end Sys2Proof.Machine

/-! What the micro-ops leave alone, what a step can do, and the register invariant (R16, R26 to R31, R42, R43, R48). -/

namespace Sys2Proof.Machine

open Sys2Proof.Config (Platform Dir)
open Sys2Proof.Safety

/-! ### What a micro-op before FINISH leaves alone -/

/-- What every micro-op before FINISH keeps: the host's side, the latches, a phase with a micro-op in it and the
memory's canonical form. The configuration is not among it, because CHECK writes it (R122, R123). -/
structure MicroOpFrame (s t : State) : Prop where
  regs : t.regs = s.regs
  busy : t.busy = s.busy
  done : t.done = s.done
  ovr : t.ovr = s.ovr
  err : t.err = s.err
  outLen : t.outLen = s.outLen
  latch : t.latch = s.latch
  turns : t.turns = s.turns
  resp : t.resp = s.resp
  phase_ne_idle : t.phase ≠ .idle
  mem_wf : Memory.wf s.mem → Memory.wf t.mem

theorem afterFailure_ne_idle (s : State) : afterFailure s ≠ .idle := by
  unfold afterFailure; split <;> simp

theorem failCheck_frame (e : ErrCode) (s : State) : MicroOpFrame s (failCheck e s) := by constructor <;> simp

theorem beginText_frame (mc : Nat) (s : State) : MicroOpFrame s (beginText mc s) := by constructor <;> simp

theorem checkConfig_frame (cfg : Platform) (s : State) : MicroOpFrame s (checkConfig cfg s) := by
  constructor <;> simp

theorem raiseBusError_frame (s : State) : MicroOpFrame s (raiseBusError s) := by
  constructor <;> simp [afterFailure_ne_idle]

theorem macB0On_frame (cfg : Platform) (s : State) :
    MicroOpFrame s (macB0On cfg s) ∧ (macB0On cfg s).active = s.active := by
  unfold macB0On
  split <;> exact ⟨by constructor <;> simp, rfl⟩

theorem macAdOn_frame (cfg : Platform) (s : State) :
    MicroOpFrame s (macAdOn cfg s) ∧ (macAdOn cfg s).active = s.active := by
  unfold macAdOn
  split
  · exact ⟨raiseBusError_frame s, rfl⟩
  · refine ⟨?_, rfl⟩
    constructor <;> simp only [imp_self]
    split <;> simp

theorem ctrS0On_frame (cfg : Platform) (s : State) :
    MicroOpFrame s (ctrS0On cfg s) ∧ (ctrS0On cfg s).active = s.active := by
  unfold ctrS0On
  split <;> exact ⟨by constructor <;> simp, rfl⟩

theorem textMacOn_frame (cfg : Platform) (s : State) :
    MicroOpFrame s (textMacOn cfg s) ∧ (textMacOn cfg s).active = s.active := by
  unfold textMacOn
  split <;> exact ⟨by constructor <;> simp, rfl⟩

/-- A store followed by an update of the datapath, the phase and the draws, as TEXT_CTR, TAG and SCRUB end. -/
theorem storeBytes_update_frame (s : State) (a : Nat) (bs : List Byte) (dp : Datapath) {p : Phase} (d : Nat)
    (hp : p ≠ .idle) : MicroOpFrame s { storeBytes s a bs with dp := dp, phase := p, draws := d } := by
  constructor <;> simp [hp]
  exact fun h1 h2 => storeBytes_wf ⟨h1, by simpa using h2⟩ a bs

/-- A store whose next byte was refused, as TEXT_CTR and TAG raise it (R154, R178, R213). -/
theorem storeBytes_busError_frame (s : State) (a : Nat) (bs : List Byte) (dp : Datapath) (d : Nat) :
    MicroOpFrame s (raiseBusError { storeBytes s a bs with dp := dp, draws := d }) :=
  storeBytes_update_frame s a bs _ d (afterFailure_ne_idle { storeBytes s a bs with dp := dp, draws := d })

theorem textCtrOn_frame (cfg : Platform) (s : State) :
    MicroOpFrame s (textCtrOn cfg s) ∧ (textCtrOn cfg s).active = s.active := by
  unfold textCtrOn
  split
  · exact ⟨raiseBusError_frame s, rfl⟩
  · dsimp only
    split
    · exact ⟨storeBytes_update_frame _ _ _ _ _ (by simp), storeBytes_active ..⟩
    · exact ⟨storeBytes_busError_frame _ _ _ _ _, storeBytes_active ..⟩

theorem tagSeal_frame (cfg : Platform) (s : State) :
    MicroOpFrame s (tagSeal cfg s) ∧ (tagSeal cfg s).active = s.active := by
  unfold tagSeal
  dsimp only
  split
  · exact ⟨storeBytes_update_frame _ _ _ _ (storeBytes s _ _).draws (by simp), storeBytes_active ..⟩
  · exact ⟨storeBytes_busError_frame _ _ _ _ (storeBytes s _ _).draws, storeBytes_active ..⟩

theorem tagOpen_frame (cfg : Platform) (s : State) :
    MicroOpFrame s (tagOpen cfg s) ∧ (tagOpen cfg s).active = s.active := by
  unfold tagOpen
  split
  · exact ⟨raiseBusError_frame s, rfl⟩
  · dsimp only
    split <;> exact ⟨by constructor <;> simp [afterFailure_ne_idle], rfl⟩

theorem scrubStep_frame (s : State) : MicroOpFrame s (scrubStep s) ∧ (scrubStep s).active = s.active := by
  refine ⟨storeBytes_update_frame _ _ _ _ (storeBytes s _ _).draws ?_, storeBytes_active ..⟩
  split <;> simp

/-- What CHECK can answer (R120, R174, R176): a CONFIG writes the configuration, every other command keeps it and
either fails or begins. -/
theorem exec_check_cases {s t : State} (h : exec .check s = .next t) :
    (commandOf s = .config ∧ t = checkConfig Config.platform s)
      ∨ (commandOf s ≠ .config ∧ ((∃ e, t = failCheck e s) ∨ ∃ mc, t = beginText mc s)) := by
  have text_cases : ∀ isOpen nlen, checkText isOpen nlen s = .next t →
      (∃ e, t = failCheck e s) ∨ ∃ mc, t = beginText mc s := by
    intro isOpen nlen h
    unfold checkText at h
    split at h
    · cases h; exact .inl ⟨_, rfl⟩
    · split at h
      · cases h
      · cases h; exact .inr ⟨_, rfl⟩
  change checkOn Config.platform s = .next t at h
  unfold checkOn at h
  split at h <;> rename_i hc <;> rw [hc]
  · cases h; exact .inl ⟨rfl, rfl⟩
  · exact .inr ⟨by simp, text_cases _ _ h⟩
  · exact .inr ⟨by simp, text_cases _ _ h⟩
  · cases h; exact .inr ⟨by simp, .inl ⟨_, rfl⟩⟩

/-- What TAG can answer (R178, R179). -/
theorem exec_tag_cases {s t : State} (h : exec .tag s = .next t) :
    t = tagSeal Config.platform s ∨ t = tagOpen Config.platform s := by
  change tagOn Config.platform s = .next t at h
  unfold tagOn at h
  split at h <;> cases h
  · exact .inl rfl
  · exact .inr rfl

theorem exec_check_frame {s t : State} (h : exec .check s = .next t) : MicroOpFrame s t := by
  obtain ⟨_, rfl⟩ | ⟨_, ⟨e, rfl⟩ | ⟨mc, rfl⟩⟩ := exec_check_cases h
  · exact checkConfig_frame _ s
  · exact failCheck_frame e s
  · exact beginText_frame mc s

/-- A configuration that CHECK changes is changed by a CONFIG (R29). -/
theorem exec_check_active {s t : State} (h : exec .check s = .next t) (hc : commandOf s ≠ .config) :
    t.active = s.active := by
  obtain ⟨hc', _⟩ | ⟨_, ⟨e, rfl⟩ | ⟨mc, rfl⟩⟩ := exec_check_cases h
  · exact absurd hc' hc
  · rfl
  · rfl

/-- Every micro-op before FINISH keeps the frame, and every one but CHECK keeps the configuration. -/
theorem exec_microOp_frame {p : Phase} {i : Instr} (hi : microOp p = some i) (hp : p ≠ .finish) {s t : State}
    (h : exec i s = .next t) : MicroOpFrame s t ∧ (i ≠ .check → t.active = s.active) := by
  have keeps {u : State} (hu : MicroOpFrame s u ∧ u.active = s.active) (ht : t = u) :
      MicroOpFrame s t ∧ (i ≠ .check → t.active = s.active) := by
    subst ht; exact ⟨hu.1, fun _ => hu.2⟩
  cases p <;> simp only [microOp, Option.some.injEq, reduceCtorEq] at hi <;> subst hi
  case check => exact ⟨exec_check_frame h, fun hne => absurd rfl hne⟩
  case tag =>
    obtain ht | ht := exec_tag_cases h
    · exact keeps (tagSeal_frame _ s) ht
    · exact keeps (tagOpen_frame _ s) ht
  case finish => exact absurd rfl hp
  all_goals cases h
  case macB0 => exact keeps (macB0On_frame _ s) rfl
  case macAd => exact keeps (macAdOn_frame _ s) rfl
  case ctrS0 => exact keeps (ctrS0On_frame _ s) rfl
  case textCtr => exact keeps (textCtrOn_frame _ s) rfl
  case textMac => exact keeps (textMacOn_frame _ s) rfl
  case scrub => exact keeps (scrubStep_frame s) rfl

/-- Each micro-op before FINISH is the one of a phase other than FINISH. -/
theorem exists_phase_of_microOp {i : Instr}
    (h : i ∈ [Instr.check, .macB0, .macAd, .ctrS0, .textCtr, .textMac, .tag, .scrub]) :
    ∃ p, microOp p = some i ∧ p ≠ .finish := by
  simp only [List.mem_cons, List.not_mem_nil, or_false] at h
  rcases h with rfl | rfl | rfl | rfl | rfl | rfl | rfl | rfl
  exacts [⟨.check, rfl, by simp⟩, ⟨.macB0, rfl, by simp⟩, ⟨.macAd, rfl, by simp⟩, ⟨.ctrS0, rfl, by simp⟩,
    ⟨.textCtr, rfl, by simp⟩, ⟨.textMac, rfl, by simp⟩, ⟨.tag, rfl, by simp⟩, ⟨.scrub, rfl, by simp⟩]

/-- Settles O37: the frame of the micro-ops, one micro-op after the other. -/
theorem microOpsLeaveTheHostSide : Obligations.MicroOpsLeaveTheHostSide := by
  intro i hi s t h
  obtain ⟨p, hpi, hp⟩ := exists_phase_of_microOp hi
  obtain ⟨hf, hactive⟩ := exec_microOp_frame hpi hp h
  exact ⟨hf.regs, hf.busy, hf.done, hf.ovr, hf.err, hf.outLen, hf.latch, hf.turns, hf.resp, hactive⟩

/-! ### What a step can do -/

theorem mem_allRegs (r : Reg) : r ∈ allRegs := by cases r <;> decide

theorem regAt_regOffset (r : Reg) : regAt (regOffset r) = some r := by cases r <;> decide

theorem regAt_eq_some_iff {off : BitVec 8} {r : Reg} : regAt off = some r ↔ off = regOffset r :=
  ⟨fun h => (eq_of_beq (List.find?_some (p := fun r => regOffset r == off) h)).symm, fun h => h ▸ regAt_regOffset r⟩

/-- The unlisted offsets hold no register (R22, R39). -/
theorem regAt_eq_none_iff {off : BitVec 8} : regAt off = none ↔ ∀ r, regOffset r ≠ off := by
  simp [regAt, mem_allRegs]

theorem legalAccess_iff {off : BitVec 8} {size : Nat} :
    legalAccess off size = true ↔ size = 4 ∧ off.toNat % 4 = 0 := by
  simp [legalAccess, ← BitVec.toNat_inj]

theorem legalAccess_regOffset (r : Reg) : legalAccess (regOffset r) 4 = true := by cases r <;> decide

/-- A write to a register other than STATUS changes the host's registers only (R21 to R38). -/
theorem writeReg_of_ne_status (s : State) (v : Word) {r : Reg} (h : r ≠ .status) :
    writeReg s v r = { s with regs := (writeReg s v r).regs } := by
  cases r with
  | status => exact absurd rfl h
  | _ => rfl

/-- A host write to the window acknowledges, at STATUS, or changes the host's registers at most (R21, R25). -/
theorem hostRegWrite_cases (off : BitVec 8) (size : Nat) (v : Word) (s : State) :
    (off = 0x08 ∧ size = 4 ∧ hostRegWrite off size v s = { acknowledge v s with resp := .written })
      ∨ (¬(off = 0x08 ∧ size = 4)
          ∧ ∃ regs resp, hostRegWrite off size v s = { s with regs := regs, resp := resp }) := by
  by_cases hlegal : legalAccess off size = true
  · obtain ⟨rfl, -⟩ := legalAccess_iff.mp hlegal
    unfold hostRegWrite
    rw [if_pos hlegal]
    cases hr : regAt off with
    | none =>
      have hne : off ≠ 0x08 := fun h => regAt_eq_none_iff.mp hr .status h.symm
      exact .inr ⟨fun h => hne h.1, s.regs, .written, rfl⟩
    | some r =>
      have hoff := regAt_eq_some_iff.mp hr
      by_cases hstatus : r = .status
      · subst hstatus
        exact .inl ⟨hoff, rfl, rfl⟩
      · refine .inr ⟨fun h => hstatus ?_, (writeReg s v r).regs, .written, ?_⟩
        · have hr' := regAt_regOffset .status
          rw [show regOffset .status = off from h.1.symm, hr] at hr'
          exact Option.some.inj hr'
        · dsimp only
          rw [writeReg_of_ne_status s v hstatus]
  · refine .inr ⟨fun h => hlegal (legalAccess_iff.mpr (by simp [h.1, h.2])), s.regs, .error, ?_⟩
    simp [hostRegWrite, hlegal]

/-- What a host access that is no command can do: acknowledge (R25), or change the host's registers, the memory, the
older bytes, the draws and the answer (R21, R61, R73). -/
theorem hostTurn_settled_cases {cfg : Platform} {access : HostAccess} {s t : State}
    (h : hostTurn cfg access s = .settled t) :
    (∃ v, access = .regWrite 0x08 4 v ∧ t = { acknowledge v s with resp := .written })
      ∨ ((∀ v, access ≠ .regWrite 0x08 4 v) ∧ ∃ regs mem past draws resp,
          t = { s with regs := regs, mem := mem, past := past, draws := draws, resp := resp }
            ∧ (Memory.wf s.mem → Memory.wf mem) ∧ (s.busy = false → past = s.past)) := by
  cases access with
  | regRead off size =>
    cases h
    refine .inr ⟨by simp, s.regs, s.mem, s.past, s.draws, (hostRegRead off size s).resp, ?_, id, fun _ => rfl⟩
    unfold hostRegRead
    split <;> rfl
  | regWrite off size v =>
    have ht : t = hostRegWrite off size v s := by
      simp only [hostTurn] at h
      split at h <;> cases h
      rfl
    obtain ⟨rfl, rfl, hw⟩ | ⟨hne, regs, resp, hw⟩ := hostRegWrite_cases off size v s
    · exact .inl ⟨v, rfl, ht.trans hw⟩
    · exact .inr ⟨by simpa using hne, regs, s.mem, s.past, s.draws, resp, ht.trans hw, id, fun _ => rfl⟩
  | memRead a =>
    cases h
    refine .inr ⟨by simp, s.regs, s.mem, s.past, (hostMemRead cfg a s).draws, (hostMemRead cfg a s).resp, ?_, id,
      fun _ => rfl⟩
    unfold hostMemRead
    split <;> rfl
  | memWrite a v =>
    cases h
    unfold hostMemWrite
    split
    · exact .inr ⟨by simp, s.regs, writeByte s.mem a v, (storeByte s a v).past, s.draws, .written, rfl,
        fun hwf => writeByte_wf hwf a v, fun hb => by simp [hb]⟩
    · exact .inr ⟨by simp, s.regs, s.mem, s.past, s.draws, .error, rfl, id, fun _ => rfl⟩

/-- The meaning of a command row is the acceptance of its word (R173). -/
theorem exec_commandInstr (c : Command) (s : State) :
    exec (commandInstr c) s = .next (acceptCommand (commandWord (commandInstr c)) s) := by
  cases c <;> rfl

theorem hostTurn_cmd (cfg : Platform) (w : Word) (s : State) :
    hostTurn cfg (.regWrite 0x04 4 w) s = .run (decodeWord w) { s with resp := .written } := rfl

/-- Everything a step from `s` to `t` can be: the engine's micro-op, its FINISH or no engine step, the host's command
or another access of the host, or the platform's reset (R16, R40, R240). -/
inductive StepCase (s t : State) : Prop where
  | microOp (i : Instr) (next : EngineIsNext s) (busy : s.busy = true) (isOp : microOp s.phase = some i)
      (ne_finish : s.phase ≠ .finish) (run : exec i (dropTurn s) = .next t)
  | finish (next : EngineIsNext s) (busy : s.busy = true) (phase : s.phase = .finish)
      (eq : t = deliverOutcome (dropTurn s))
  | noStep (next : EngineIsNext s) (idle : s.busy = true → s.phase = .idle) (eq : t = dropTurn s)
  | command (w : Word) (ts : List Turn) (turns : s.turns = cmdWrite w :: ts)
      (eq : t = acceptCommand (commandWord (decodeWord w)) { s with turns := ts, resp := .written })
  | access (a : HostAccess) (ts : List Turn) (turns : s.turns = .host a :: ts)
      (not_cmd : ∀ w, a ≠ .regWrite 0x04 4 w)
      (settled : hostTurn Config.platform a { s with turns := ts } = .settled t)
  | reset (ts : List Turn) (turns : s.turns = .reset :: ts) (eq : t = platformReset { s with turns := ts })

theorem step_of_fetch_settled {s u : State} (h : fetch s = .settled u) : step s = .next u := by simp [step, h]

theorem step_of_fetch_run {s u : State} {i : Instr} (h : fetch s = .run i u) : step s = exec i u := by
  simp [step, h]

theorem stepCase_of_step {s t : State} (h : step s = .next t) : StepCase s t := by
  obtain ⟨hnext, hf⟩ | ⟨a, ts, hturns, hf⟩ | ⟨ts, hturns, hf⟩ := fetch_cases s
  · obtain ⟨hb, i, hi, he⟩ | ⟨hb, hp, he⟩ | ⟨hb, he⟩ := engineTurn_cases (dropTurn s)
    · rw [step_of_fetch_run (hf.trans he)] at h
      by_cases hp : s.phase = .finish
      · have hfin : i = .finish := by simpa [dropTurn, hp, microOp] using hi.symm
        subst hfin
        cases h
        exact .finish hnext hb hp rfl
      · exact .microOp i hnext hb hi hp h
    · rw [step_of_fetch_settled (hf.trans he)] at h
      cases h
      exact .noStep hnext (fun _ => hp) rfl
    · rw [step_of_fetch_settled (hf.trans he)] at h
      cases h
      exact .noStep hnext (fun hb' => by simp [show s.busy = false from hb] at hb') rfl
  · obtain ⟨w, rfl, he⟩ | ⟨u, he, _⟩ := hostTurn_cases Config.platform a { s with turns := ts }
    · rw [step_of_fetch_run (hf.trans he), decodeWord, exec_commandInstr] at h
      cases h
      exact .command w ts hturns rfl
    · rw [step_of_fetch_settled (hf.trans he)] at h
      cases h
      refine .access a ts hturns (fun w ha => ?_) he
      subst ha
      rw [hostTurn_cmd] at he
      cases he
  · rw [step_of_fetch_settled hf] at h
    cases h
    exact .reset ts hturns rfl

/-! ### The register invariant -/

/-- A CONFIG whose validation passes carries legal lengths (R121). -/
theorem legal_of_configOutcome_ok {cfg : Platform} {s : State} (h : configOutcome cfg s = .ok) :
    7 ≤ (cfgNonceLen s).toNat ∧ (cfgNonceLen s).toNat ≤ 13 ∧ (cfgTagLen s).toNat ∈ legalTagLens := by
  unfold configOutcome at h
  split at h
  · cases h
  · rename_i hn
    split at h
    · cases h
    · rename_i ht
      have hn := not_not.mp hn
      exact ⟨hn.1, hn.2, not_not.mp ht⟩

theorem configIsLegal_noConfig : ConfigIsLegal noConfig := by simp [ConfigIsLegal, noConfig]

theorem configIsLegal_checkConfig (cfg : Platform) (s : State) : ConfigIsLegal (checkConfig cfg s).active := by
  show ConfigIsLegal (if configOutcome cfg s = .ok then _ else noConfig)
  split
  · rename_i hok
    exact legal_of_configOutcome_ok hok
  · exact configIsLegal_noConfig

theorem exec_check_configIsLegal {s t : State} (hs : ConfigIsLegal s.active) (h : exec .check s = .next t) :
    ConfigIsLegal t.active := by
  obtain ⟨_, rfl⟩ | ⟨hc, _⟩ := exec_check_cases h
  · exact configIsLegal_checkConfig _ s
  · rw [exec_check_active h hc]; exact hs

theorem exec_microOp_registerInv {s t : State} {i : Instr} (hinv : RegisterInv s) (hb : s.busy = true)
    (hi : microOp s.phase = some i) (hp : s.phase ≠ .finish) (h : exec i s = .next t) : RegisterInv t := by
  obtain ⟨-, hconfig, hdone, hwf⟩ := hinv
  obtain ⟨hf, hactive⟩ := exec_microOp_frame hi hp h
  refine ⟨⟨fun hb' => ?_, fun _ => hf.phase_ne_idle⟩, ?_, ?_, hf.mem_wf hwf⟩
  · simp [hf.busy, hb] at hb'
  · by_cases hcheck : i = .check
    · subst hcheck; exact exec_check_configIsLegal hconfig h
    · rw [hactive hcheck]; exact hconfig
  · unfold DoneIsIdle
    rw [hf.done, hf.busy]
    exact hdone

theorem deliverOutcome_registerInv {s : State} (hinv : RegisterInv s) : RegisterInv (deliverOutcome s) := by
  obtain ⟨-, hconfig, -, hwf⟩ := hinv
  exact ⟨⟨fun _ => ⟨rfl, rfl, rfl, rfl⟩, by simp⟩, hconfig, by simp [DoneIsIdle], hwf⟩

theorem acceptCommand_registerInv {s : State} (w : Word) (hinv : RegisterInv s) :
    RegisterInv (acceptCommand w s) := by
  obtain ⟨hidle, hconfig, hdone, hwf⟩ := hinv
  cases hb : s.busy with
  | true =>
    rw [acceptCommand_busy w s hb]
    exact ⟨hidle, hconfig, hdone, hwf⟩
  | false =>
    rw [acceptCommand_idle w s hb]
    exact ⟨⟨by simp, by simp⟩, hconfig, by simp [DoneIsIdle], hwf⟩

theorem acknowledge_registerInv {s : State} (v : Word) (hinv : RegisterInv s) : RegisterInv (acknowledge v s) := by
  obtain ⟨hidle, hconfig, hdone, hwf⟩ := hinv
  refine ⟨hidle, hconfig, fun ⟨hd, hb⟩ => hdone ⟨?_, hb⟩, hwf⟩
  exact (Bool.and_eq_true_iff.mp hd).1

theorem hostTurn_registerInv {cfg : Platform} {access : HostAccess} {s t : State} (hinv : RegisterInv s)
    (h : hostTurn cfg access s = .settled t) : RegisterInv t := by
  obtain ⟨v, -, rfl⟩ | ⟨-, regs, mem, past, draws, resp, rfl, hmem, hpast⟩ := hostTurn_settled_cases h
  · exact acknowledge_registerInv v hinv
  · obtain ⟨⟨hclean, hbusy⟩, hconfig, hdone, hwf⟩ := hinv
    refine ⟨⟨fun hb => ?_, hbusy⟩, hconfig, hdone, hmem hwf⟩
    obtain ⟨hphase, hdp, hlatch, hnil⟩ := hclean hb
    exact ⟨hphase, hdp, hlatch, (hpast hb).trans hnil⟩

theorem platformReset_registerInv {s : State} (hwf : Memory.wf s.mem) : RegisterInv (platformReset s) :=
  ⟨⟨fun _ => ⟨rfl, rfl, rfl, rfl⟩, by simp⟩, configIsLegal_noConfig, by simp [DoneIsIdle], hwf⟩

/-- Settles O46: each case of a step keeps the invariant, the schedule and the host's answer being no part of it. -/
theorem stepKeepsRegisterInvariant : Obligations.StepKeepsRegisterInvariant := by
  intro s t hinv h
  have hdrop : RegisterInv (dropTurn s) := hinv
  cases stepCase_of_step h with
  | microOp i _ busy isOp ne_finish run => exact exec_microOp_registerInv hdrop busy isOp ne_finish run
  | finish _ _ _ eq => exact eq ▸ deliverOutcome_registerInv hdrop
  | noStep _ _ eq => exact eq ▸ hdrop
  | command w ts _ eq =>
    have hs : RegisterInv { s with turns := ts, resp := .written } := hinv
    exact eq ▸ acceptCommand_registerInv _ hs
  | access a ts _ _ settled =>
    have hs : RegisterInv { s with turns := ts } := hinv
    exact hostTurn_registerInv hs settled
  | reset ts _ eq =>
    obtain ⟨-, -, -, hwf⟩ := hinv
    exact eq ▸ platformReset_registerInv (s := { s with turns := ts }) hwf

/-- Settles O45: the machine after reset is one that the platform's reset leaves, and its phase is IDLE. -/
theorem resetMeetsTheInvariants : Obligations.ResetMeetsTheInvariants :=
  ⟨platformReset_registerInv (s := State.reset) ⟨.nil, by simp [State.reset]⟩, trivial⟩

end Sys2Proof.Machine

/-! The host's window: what the words of its registers hold, what a read and a write do, and the state after reset
(R20 to R39, R45, R46, R47). -/

namespace Sys2Proof.Machine

open Sys2Proof.Config (Platform)
open Sys2Proof.Safety

/-! ### Fields of a word -/

/-- A field at bit `k` shows nothing outside a mask that covers it. -/
theorem field_and_not_eq_zero {w : Nat} (x : BitVec w) (k : Nat) {mask : Word}
    (hmask : ∀ j < w, mask.getLsbD (k + j) = true) : (x.setWidth 32 <<< k) &&& ~~~mask = 0 := by
  apply BitVec.eq_of_getLsbD_eq
  intro i hi
  simp only [BitVec.getLsbD_and, BitVec.getLsbD_shiftLeft, BitVec.getLsbD_setWidth, BitVec.getLsbD_not, hi,
    decide_true, Bool.true_and]
  by_cases hk : i < k
  · simp [hk]
  · by_cases hw : i - k < w
    · have hbit := hmask (i - k) hw
      rw [show k + (i - k) = i by omega] at hbit
      simp [hbit]
    · simp [BitVec.getLsbD_of_ge x (i - k) (by omega)]

theorem or_and_not_eq_zero {x y mask : Word} (hx : x &&& ~~~mask = 0) (hy : y &&& ~~~mask = 0) :
    (x ||| y) &&& ~~~mask = 0 := by
  rw [BitVec.and_or_distrib_right, hx, hy]
  rfl

/-- A field put back where it was cut out is the word under the field's mask. -/
theorem extract_shiftLeft (v : Word) (k w : Nat) :
    (v.extractLsb' k w).setWidth 32 <<< k = v &&& ((BitVec.allOnes w).setWidth 32 <<< k) := by
  apply BitVec.eq_of_getLsbD_eq
  intro i hi
  simp only [BitVec.getLsbD_and, BitVec.getLsbD_shiftLeft, BitVec.getLsbD_setWidth, BitVec.getLsbD_extractLsb',
    BitVec.getLsbD_allOnes]
  by_cases hk : i < k
  · simp [hk]
  · rw [show k + (i - k) = i by omega]
    simp only [hi, hk, show i - k < 32 by omega, decide_true, decide_false, Bool.not_false, Bool.true_and]
    exact Bool.and_comm ..

/-- Two words that agree under a mask agree in each of its bits. -/
theorem getLsbD_of_agree {v v' mask : Word} (h : (v ^^^ v') &&& mask = 0) {i : Nat}
    (hi : mask.getLsbD i = true) : v.getLsbD i = v'.getLsbD i := by
  have hbit := congrArg (·.getLsbD i) h
  simpa [hi] using hbit

theorem extractLsb'_of_agree {v v' mask : Word} (h : (v ^^^ v') &&& mask = 0) {k w : Nat}
    (hmask : ∀ j < w, mask.getLsbD (k + j) = true) : v.extractLsb' k w = v'.extractLsb' k w := by
  apply BitVec.eq_of_getLsbD_eq
  intro j hj
  simp [hj, getLsbD_of_agree h (hmask j hj)]

theorem eq_of_agree {v v' : Word} (h : (v ^^^ v') &&& 0xFFFFFFFF = 0) : v = v' := by
  apply BitVec.eq_of_getLsbD_eq
  intro i hi
  refine getLsbD_of_agree h ?_
  rw [show (0xFFFFFFFF : Word) = BitVec.allOnes 32 from rfl, BitVec.getLsbD_allOnes, decide_eq_true hi]

/-! ### Halves of a 64-bit register -/

theorem highHalf_append_lowHalf (x : Dword) : highHalf x ++ lowHalf x = x :=
  (BitVec.extractLsb'_append_extractLsb'_eq_extractLsb' rfl).trans BitVec.extractLsb'_eq_self

@[simp] theorem lowHalf_withLow (x : Dword) (v : Word) : lowHalf (withLow x v) = v :=
  BitVec.extractLsb'_append_eq_right

@[simp] theorem highHalf_withLow (x : Dword) (v : Word) : highHalf (withLow x v) = highHalf x :=
  BitVec.extractLsb'_append_eq_left

@[simp] theorem lowHalf_withHigh (x : Dword) (v : Word) : lowHalf (withHigh x v) = lowHalf x :=
  BitVec.extractLsb'_append_eq_right

@[simp] theorem highHalf_withHigh (x : Dword) (v : Word) : highHalf (withHigh x v) = v :=
  BitVec.extractLsb'_append_eq_left

/-! ### The words of the registers -/

/-- R21: a reserved bit reads 0. -/
theorem readReg_reserved (s : State) (r : Reg) : readReg s r &&& ~~~definedBits r = 0 := by
  cases r with
  | ctrl => exact field_and_not_eq_zero (BitVec.ofBool s.regs.ie) 0 (by decide)
  | cmd => simp [readReg]
  | status =>
    refine or_and_not_eq_zero (or_and_not_eq_zero (or_and_not_eq_zero (or_and_not_eq_zero
      (or_and_not_eq_zero ?_ ?_) ?_) ?_) ?_) ?_
    all_goals exact field_and_not_eq_zero _ _ (by decide)
  | cfg =>
    have hn := field_and_not_eq_zero s.regs.cfgNonceLen 0 (mask := definedBits .cfg) (by decide)
    exact or_and_not_eq_zero (field_and_not_eq_zero _ _ (by decide)) (by simpa using hn)
  | active =>
    show activeWord s.active &&& _ = 0
    unfold activeWord
    split
    · have hl : BitVec.ofNat 32 (15 - s.active.n.toNat) = (BitVec.ofNat 4 (15 - s.active.n.toNat)).setWidth 32 := by
        apply BitVec.eq_of_toNat_eq
        simp
        omega
      have hn := field_and_not_eq_zero s.active.n 0 (mask := definedBits .active) (by decide)
      rw [hl]
      exact or_and_not_eq_zero (or_and_not_eq_zero (field_and_not_eq_zero _ _ (by decide))
        (field_and_not_eq_zero _ _ (by decide))) (by simpa using hn)
    · simp
  | _ => simp [definedBits]

theorem getLsbD_bitAt (b : Bool) (k : Nat) {i : Nat} (hi : i < 32) :
    (bitAt b k).getLsbD i = (decide (i = k) && b) := by
  simp only [bitAt, BitVec.getLsbD_shiftLeft, BitVec.getLsbD_setWidth, BitVec.getLsbD_ofBool, hi, decide_true,
    Bool.true_and]
  by_cases hk : i = k
  · simp [hk]
  · by_cases hlt : i < k
    · simp [hk, hlt]
    · simp [hk, show i - k ≠ 0 by omega]

/-- The flags of STATUS are its low four bits (R87). -/
theorem getLsbD_statusWord (s : State) {i : Nat} (hi : i < 4) :
    (statusWord s).getLsbD i =
      (decide (i = 3) && s.active.valid || decide (i = 2) && s.ovr || decide (i = 1) && s.done
        || decide (i = 0) && s.busy) := by
  have h32 : i < 32 := by omega
  simp only [statusWord, BitVec.getLsbD_or, getLsbD_bitAt _ _ h32, BitVec.getLsbD_shiftLeft]
  simp [show i < 8 by omega, hi]

/-- A register shows the host's registers, the words of STATUS and ACTIVE, or OUT_LEN, and nothing else (R45). -/
theorem readReg_congr_of_regs_eq {s t : State} (hregs : t.regs = s.regs) (hstatus : statusWord t = statusWord s)
    (hactive : t.active = s.active) (hlen : t.outLen = s.outLen) (r : Reg) : readReg t r = readReg s r := by
  cases r <;> simp only [readReg, hregs, hstatus, hactive, hlen]

/-- The schedule shows in no register. -/
theorem readReg_turns (s : State) (ts : List Turn) (r : Reg) : readReg { s with turns := ts } r = readReg s r :=
  readReg_congr_of_regs_eq rfl rfl rfl rfl r

/-- Settles O60: none of what is replaced is among what a register shows. -/
theorem internalsAreInvisible : Obligations.InternalsAreInvisible := fun _ _ _ _ _ _ r =>
  readReg_congr_of_regs_eq rfl rfl rfl rfl r

/-- Settles O11: IE is bit 0 of CTRL and DONE is bit 1 of STATUS. -/
theorem interruptIsEnabledDone : Obligations.InterruptIsEnabledDone := by
  intro s
  have hie : (readReg s .ctrl).getLsbD 0 = s.regs.ie := getLsbD_bitAt s.regs.ie 0 (by omega)
  have hdone : (readReg s .status).getLsbD 1 = s.done := (getLsbD_statusWord s (by omega)).trans (by simp)
  rw [hie, hdone]
  rfl

/-- Settles O10: a byte of the nonce block lies in one of the four words put together, a register's two halves give it
back. -/
theorem nonceAndAddressPacking : Obligations.NonceAndAddressPacking := by
  refine ⟨fun r m hm => ?_, fun s => ?_⟩
  · have hfirst : 8 * (15 - m) - 32 - 32 - 32 = 24 - 8 * m := by omega
    have hsecond : 8 * (15 - (4 + m)) - 32 - 32 = 24 - 8 * m := by omega
    have hthird : 8 * (15 - (8 + m)) - 32 = 24 - 8 * m := by omega
    have hfourth : 8 * (15 - (12 + m)) = 24 - 8 * m := by omega
    unfold byteOf nonceBlock
    refine ⟨?_, ?_, ?_, ?_⟩
    · rw [BitVec.extractLsb'_append_eq_of_le (by omega), BitVec.extractLsb'_append_eq_of_le (by omega),
        BitVec.extractLsb'_append_eq_of_le (by omega), hfirst]
    · rw [BitVec.extractLsb'_append_eq_of_le (by omega), BitVec.extractLsb'_append_eq_of_le (by omega),
        BitVec.extractLsb'_append_eq_of_add_le (by omega), hsecond]
    · rw [BitVec.extractLsb'_append_eq_of_le (by omega), BitVec.extractLsb'_append_eq_of_add_le (by omega), hthird]
    · rw [BitVec.extractLsb'_append_eq_of_add_le (by omega), hfourth]
  · refine ⟨?_, ?_, ?_, ?_, ?_, ?_⟩
    all_goals exact (highHalf_append_lowHalf _).symm

/-! ### Writes to the window -/

/-- A mask with every bit takes the whole word. -/
theorem merge_full (v x : Word) : (v &&& 0xFFFFFFFF) ||| (x &&& ~~~0xFFFFFFFF) = v := by
  rw [show (0xFFFFFFFF : Word) = BitVec.allOnes 32 from rfl, BitVec.and_allOnes, BitVec.not_allOnes,
    BitVec.and_zero, BitVec.or_zero]

/-- A mask with no bit leaves the word as it was. -/
theorem merge_none (v x : Word) : (v &&& 0) ||| (x &&& ~~~0) = x := by
  rw [show (~~~0 : Word) = BitVec.allOnes 32 from rfl, BitVec.and_allOnes]
  simp

/-- What a written register reads as: its writable bits as written, its others as before. -/
theorem readReg_writeReg_same (s : State) (v : Word) {r : Reg} (hcmd : r ≠ .cmd) (hstatus : r ≠ .status) :
    readReg (writeReg s v r) r = (v &&& writableBits r) ||| (readReg s r &&& ~~~writableBits r) := by
  cases r with
  | cmd => exact absurd rfl hcmd
  | status => exact absurd rfl hstatus
  | ctrl =>
    have hword : bitAt (v.getLsbD 0) 0 = v &&& writableBits .ctrl := by
      have hbit : BitVec.ofBool (v.getLsbD 0) = v.extractLsb' 0 1 := by
        apply BitVec.eq_of_getLsbD_eq
        intro i hi
        simp [show i = 0 by omega]
      rw [bitAt, hbit, extract_shiftLeft]
      rfl
    have hrest : readReg s .ctrl &&& ~~~writableBits .ctrl = 0 := readReg_reserved s .ctrl
    rw [hrest]
    exact hword.trans (BitVec.or_zero).symm
  | cfg =>
    have hword : (v.extractLsb' 8 5).setWidth 32 <<< 8 ||| (v.extractLsb' 0 4).setWidth 32
        = v &&& writableBits .cfg := by
      have hn := extract_shiftLeft v 0 4
      rw [BitVec.shiftLeft_zero] at hn
      rw [extract_shiftLeft, hn, ← BitVec.and_or_distrib_left]
      rfl
    have hrest : readReg s .cfg &&& ~~~writableBits .cfg = 0 := readReg_reserved s .cfg
    rw [hrest]
    exact hword.trans (BitVec.or_zero).symm
  | active | outLenLo | outLenHi => exact (merge_none v _).symm
  | nonce0 | nonce1 | nonce2 | nonce3 => exact (merge_full v _).symm
  | adAddrLo | adLenLo | inAddrLo | inLenLo | outAddrLo =>
    exact (lowHalf_withLow _ v).trans (merge_full v _).symm
  | adAddrHi | adLenHi | inAddrHi | inLenHi | outAddrHi =>
    exact (highHalf_withHigh _ v).trans (merge_full v _).symm

/-- A register other than the one written reads as before: it shows other fields, or the other half of the field. -/
theorem readReg_writeReg_other (s : State) (v : Word) {r r' : Reg} (hne : r' ≠ r) (hstatus : r ≠ .status) :
    readReg (writeReg s v r) r' = readReg s r' := by
  cases r <;> cases r' <;> try rfl
  -- left are the written register itself, a STATUS write, and the other half of a 64-bit register
  all_goals simp_all [readReg, writeReg]

/-- The register window takes nothing at a read-only register (R21). -/
theorem writeReg_of_readOnly (s : State) (v : Word) {r : Reg} (h : r ∈ [Reg.active, .outLenLo, .outLenHi]) :
    writeReg s v r = s := by
  simp only [List.mem_cons, List.not_mem_nil, or_false] at h
  obtain rfl | rfl | rfl := h <;> rfl

/-- What is written to a reserved bit or a read-only field makes no difference (R21). -/
theorem writeReg_of_agree (s : State) {v v' : Word} {r : Reg}
    (h : (v ^^^ v') &&& (if r = .status then 0x00000006 else writableBits r) = 0) :
    writeReg s v r = writeReg s v' r := by
  cases r with
  | cmd | active | outLenLo | outLenHi => rfl
  | ctrl =>
    have hie : v.getLsbD 0 = v'.getLsbD 0 := getLsbD_of_agree h rfl
    simp only [writeReg, hie]
  | status =>
    have hdone : v.getLsbD 1 = v'.getLsbD 1 := getLsbD_of_agree h rfl
    have hovr : v.getLsbD 2 = v'.getLsbD 2 := getLsbD_of_agree h rfl
    simp only [writeReg, acknowledge, hdone, hovr]
  | cfg =>
    have hn : v.extractLsb' 0 4 = v'.extractLsb' 0 4 := extractLsb'_of_agree h (by decide)
    have ht : v.extractLsb' 8 5 = v'.extractLsb' 8 5 := extractLsb'_of_agree h (by decide)
    simp only [writeReg, hn, ht]
  | _ => rw [eq_of_agree h]

/-! ### A host step at the window -/

theorem fetch_of_host {s : State} {a : HostAccess} {ts : List Turn} (h : s.turns = .host a :: ts) :
    fetch s = hostTurn Config.platform a { s with turns := ts } := by
  simp [fetch, fetchOn, h]

theorem step_of_regRead {s : State} {off : BitVec 8} {size : Nat} {ts : List Turn}
    (h : s.turns = .host (.regRead off size) :: ts) :
    step s = .next (hostRegRead off size { s with turns := ts }) :=
  step_of_fetch_settled (fetch_of_host h)

theorem step_of_regWrite {s : State} {off : BitVec 8} {size : Nat} {v : Word} {ts : List Turn}
    (h : s.turns = .host (.regWrite off size v) :: ts) (hc : ¬(legalAccess off size = true ∧ regAt off = some .cmd)) :
    step s = .next (hostRegWrite off size v { s with turns := ts }) :=
  step_of_fetch_settled ((fetch_of_host h).trans (by simp [hostTurn, hc]))

theorem step_of_cmdWrite {s : State} {w : Word} {ts : List Turn} (h : s.turns = cmdWrite w :: ts) :
    step s = exec (decodeWord w) { s with turns := ts, resp := .written } :=
  step_of_fetch_run ((fetch_of_host h).trans (hostTurn_cmd _ w _))

theorem hostRegRead_of_illegal {off : BitVec 8} {size : Nat} (s : State) (h : ¬legalAccess off size = true) :
    hostRegRead off size s = { s with resp := .error } := by
  simp [hostRegRead, h]

theorem hostRegWrite_of_illegal {off : BitVec 8} {size : Nat} (v : Word) (s : State)
    (h : ¬legalAccess off size = true) : hostRegWrite off size v s = { s with resp := .error } := by
  simp [hostRegWrite, h]

theorem hostRegRead_regOffset (s : State) (r : Reg) :
    hostRegRead (regOffset r) 4 s = { s with resp := .word (readReg s r) } := by
  simp [hostRegRead, legalAccess_regOffset, regAt_regOffset]

theorem hostRegWrite_regOffset (v : Word) (s : State) (r : Reg) :
    hostRegWrite (regOffset r) 4 v s = { writeReg s v r with resp := .written } := by
  simp [hostRegWrite, legalAccess_regOffset, regAt_regOffset]

theorem hostRegRead_of_unlisted {off : BitVec 8} (s : State) (hlegal : legalAccess off 4 = true)
    (h : regAt off = none) : hostRegRead off 4 s = { s with resp := .word 0 } := by
  simp [hostRegRead, hlegal, h]

theorem hostRegWrite_of_unlisted {off : BitVec 8} (v : Word) (s : State) (hlegal : legalAccess off 4 = true)
    (h : regAt off = none) : hostRegWrite off 4 v s = { s with resp := .written } := by
  simp [hostRegWrite, hlegal, h]

/-- A host write of a listed register other than CMD is `writeReg`. -/
theorem step_of_listed_regWrite {s : State} {r : Reg} {v : Word} {ts : List Turn} (hcmd : r ≠ .cmd)
    (h : s.turns = .host (.regWrite (regOffset r) 4 v) :: ts) :
    step s = .next { writeReg { s with turns := ts } v r with resp := .written } := by
  rw [step_of_regWrite h (by simp [regAt_regOffset, hcmd]), hostRegWrite_regOffset]

/-- Settles O5: the decoder of codes reads a command word as the host port does. -/
theorem commandWriteRunsTheDecodedWord : Obligations.CommandWriteRunsTheDecodedWord := by
  intro s ts w i hturns hdecode
  have hi : decodeWord w = i := Except.ok.inj hdecode
  rw [step_of_cmdWrite hturns, hi]

/-- Settles O8: the write sets the host's registers only, and each register reads back as `readReg_writeReg_same` and
`readReg_writeReg_other` say. -/
theorem registerWriteReadsBack : Obligations.RegisterWriteReadsBack := by
  intro s ts r v hcmd hstatus hturns
  refine ⟨(writeReg s v r).regs, ?_, fun r' => ?_⟩
  · rw [step_of_listed_regWrite hcmd hturns, writeReg_of_ne_status _ v hstatus]
    cases r <;> rfl
  · rw [← writeReg_of_ne_status s v hstatus]
    split
    · subst r'
      exact readReg_writeReg_same s v hcmd hstatus
    · exact readReg_writeReg_other s v ‹_› hstatus

/-- Settles O7: each clause is a host step at the window, by the kind of its offset and of its register. -/
theorem registerAccessRules : Obligations.RegisterAccessRules := by
  intro s ts off size v
  refine ⟨?_, ?_, ?_, ?_, ?_, ?_, readReg_reserved s, ?_⟩
  · intro hturns hillegal
    rw [step_of_regRead hturns, hostRegRead_of_illegal _ (legalAccess_iff.not.mpr hillegal)]
  · intro hturns hillegal
    have hlegal := legalAccess_iff.not.mpr hillegal
    rw [step_of_regWrite hturns (fun h => hlegal h.1), hostRegWrite_of_illegal _ _ hlegal]
  · intro hturns haligned hunlisted
    rw [step_of_regRead hturns,
      hostRegRead_of_unlisted _ (legalAccess_iff.mpr ⟨rfl, haligned⟩) (regAt_eq_none_iff.mpr hunlisted)]
  · intro hturns haligned hunlisted
    have hnone := regAt_eq_none_iff.mpr hunlisted
    rw [step_of_regWrite hturns (by simp [hnone]),
      hostRegWrite_of_unlisted _ _ (legalAccess_iff.mpr ⟨rfl, haligned⟩) hnone]
  · intro r hturns
    rw [step_of_regRead hturns, hostRegRead_regOffset, readReg_turns]
  · intro r hreadOnly hturns
    have hcmd : r ≠ .cmd := by rintro rfl; simp at hreadOnly
    rw [step_of_listed_regWrite hcmd hturns, writeReg_of_readOnly _ v hreadOnly]
  · intro r v' hcmd hagree hturns
    rw [step_of_listed_regWrite hcmd hturns, step_of_listed_regWrite hcmd (v := v') (ts := ts) rfl,
      writeReg_of_agree _ hagree]

/-! ### The state after reset -/

theorem readReg_reset (r : Reg) : readReg State.reset r = 0 := by cases r <;> decide

theorem readReg_platformReset (s : State) (r : Reg) : readReg (platformReset s) r = 0 :=
  (readReg_congr_of_regs_eq rfl rfl rfl rfl r).trans (readReg_reset r)

theorem step_of_reset {s : State} {ts : List Turn} (h : s.turns = .reset :: ts) :
    step s = .next (platformReset { s with turns := ts }) := by
  simp [step, fetch, fetchOn, h]

/-- Settles O13: the platform's reset leaves every register as the reset state shows it. -/
theorem resetState : Obligations.ResetState := by
  refine ⟨readReg_reset, rfl, rfl, rfl, rfl, rfl, rfl, ?_⟩
  rintro s ⟨ts, hturns⟩
  exact ⟨_, step_of_reset hturns, readReg_platformReset _, rfl, rfl, rfl, rfl, rfl, rfl, rfl⟩

end Sys2Proof.Machine

/-! Who writes BUSY, DONE, OVR, ERR, OUT_LEN and the configuration (R26 to R31, R38). -/

namespace Sys2Proof.Machine

open Sys2Proof.Safety

/-! ### A turn is one agent's -/

theorem ne_host_of_engineIsNext {s : State} (h : EngineIsNext s) (a : HostAccess) (ts : List Turn) :
    s.turns ≠ .host a :: ts := by
  obtain hs | ⟨ts', hs⟩ := h <;> simp [hs]

theorem not_commandIsNext_of_engine {s : State} (h : EngineIsNext s) : ¬CommandIsNext s :=
  fun ⟨_, ts, hs⟩ => ne_host_of_engineIsNext h _ ts hs

theorem not_resetIsNext_of_engine {s : State} (h : EngineIsNext s) : ¬ResetIsNext s := by
  rintro ⟨ts, hr⟩
  obtain hs | ⟨ts', hs⟩ := h <;> simp [hs] at hr

theorem not_engineIsNext_of_host {s : State} {a : HostAccess} {ts : List Turn} (h : s.turns = .host a :: ts) :
    ¬EngineIsNext s := fun he => ne_host_of_engineIsNext he a ts h

theorem not_resetIsNext_of_host {s : State} {a : HostAccess} {ts : List Turn} (h : s.turns = .host a :: ts) :
    ¬ResetIsNext s := by simp [ResetIsNext, h]

/-- An access other than a write to CMD issues no command. -/
theorem not_commandIsNext_of_access {s : State} {a : HostAccess} {ts : List Turn} (h : s.turns = .host a :: ts)
    (ha : ∀ w, a ≠ .regWrite 0x04 4 w) : ¬CommandIsNext s := by
  rintro ⟨w, ts', hs⟩
  rw [h] at hs
  simp only [cmdWrite, List.cons.injEq, Turn.host.injEq] at hs
  exact ha w hs.1

theorem not_engineIsNext_of_reset {s : State} {ts : List Turn} (h : s.turns = .reset :: ts) : ¬EngineIsNext s := by
  simp [EngineIsNext, h]

theorem not_commandIsNext_of_reset {s : State} {ts : List Turn} (h : s.turns = .reset :: ts) :
    ¬CommandIsNext s := by simp [CommandIsNext, cmdWrite, h]

/-- The next turn writes to STATUS a word with bit `k` set, which clears that bit of STATUS (R25). -/
def ClearIsNext (k : Nat) (s : State) : Prop :=
  ∃ v ts, s.turns = .host (.regWrite 0x08 4 v) :: ts ∧ v.getLsbD k = true

theorem clearIsNext_iff {k : Nat} {s : State} {a : HostAccess} {ts : List Turn} (h : s.turns = .host a :: ts) :
    ClearIsNext k s ↔ ∃ v, a = .regWrite 0x08 4 v ∧ v.getLsbD k = true := by
  simp only [ClearIsNext, h, List.cons.injEq, Turn.host.injEq]
  exact ⟨fun ⟨v, _, ⟨ha, _⟩, hv⟩ => ⟨v, ha, hv⟩, fun ⟨v, ha, hv⟩ => ⟨v, ts, ⟨ha, rfl⟩, hv⟩⟩

theorem not_clearIsNext_of_engine {s : State} (h : EngineIsNext s) (k : Nat) : ¬ClearIsNext k s :=
  fun ⟨_, ts, hs, _⟩ => ne_host_of_engineIsNext h _ ts hs

theorem not_clearIsNext_of_command {s : State} {w : Word} {ts : List Turn} (h : s.turns = cmdWrite w :: ts)
    (k : Nat) : ¬ClearIsNext k s := by
  rw [clearIsNext_iff h]
  simp

/-! ### What each case of a step does to the flags and the outcome -/

/-- What a host access that is no command keeps of the command in flight and its outcome. -/
theorem hostTurn_settled_keeps {cfg : Config.Platform} {access : HostAccess} {s t : State}
    (h : hostTurn cfg access s = .settled t) :
    t.busy = s.busy ∧ t.err = s.err ∧ t.outLen = s.outLen ∧ t.active = s.active := by
  obtain ⟨v, -, rfl⟩ | ⟨-, regs, mem, past, draws, resp, rfl, -⟩ := hostTurn_settled_cases h
  · exact ⟨rfl, rfl, rfl, rfl⟩
  · exact ⟨rfl, rfl, rfl, rfl⟩

/-- A host access that is no command clears DONE and OVR by a write of 1 to their bits of STATUS and leaves them alone
otherwise (R25). -/
theorem hostTurn_settled_flags {a : HostAccess} {ts : List Turn} {s t : State} (hturns : s.turns = .host a :: ts)
    (h : hostTurn Config.platform a { s with turns := ts } = .settled t) :
    (t.done = true ↔ s.done = true ∧ ¬ClearIsNext 1 s) ∧ (t.ovr = true ↔ s.ovr = true ∧ ¬ClearIsNext 2 s) := by
  rw [clearIsNext_iff hturns, clearIsNext_iff hturns]
  obtain ⟨v, rfl, rfl⟩ | ⟨hne, regs, mem, past, draws, resp, rfl, -⟩ := hostTurn_settled_cases h
  · simp [acknowledge]
  · exact ⟨⟨fun hd => ⟨hd, fun ⟨v, ha, _⟩ => hne v ha⟩, And.left⟩,
      ⟨fun ho => ⟨ho, fun ⟨v, ha, _⟩ => hne v ha⟩, And.left⟩⟩

theorem acceptCommand_done (w : Word) (s : State) : (acceptCommand w s).done = (s.done && s.busy) := by
  unfold acceptCommand
  split <;> simp_all

theorem acceptCommand_ovr (w : Word) (s : State) : (acceptCommand w s).ovr = (s.ovr || s.busy) := by
  unfold acceptCommand
  split <;> simp_all

/-- BUSY after a step (R26): set by a command, else kept but at FINISH and at reset. -/
theorem step_busy_iff {s t : State} (h : step s = .next t) :
    t.busy = true ↔
      CommandIsNext s ∨ s.busy = true ∧ ¬(EngineIsNext s ∧ s.phase = .finish) ∧ ¬ResetIsNext s := by
  cases stepCase_of_step h with
  | microOp i next busy isOp ne_finish run =>
    have hkeeps := (exec_microOp_frame isOp ne_finish run).1.busy
    simp [hkeeps, dropTurn, busy, ne_finish, not_resetIsNext_of_engine next]
  | finish next _ phase eq => simp [eq, next, phase, not_commandIsNext_of_engine next]
  | noStep next idle eq =>
    have hne : s.busy = true → s.phase ≠ .finish := fun hb => by simp [idle hb]
    simpa [eq, dropTurn, next, not_commandIsNext_of_engine next, not_resetIsNext_of_engine next] using hne
  | command w ts turns eq => simp [eq, show CommandIsNext s from ⟨w, ts, turns⟩]
  | access a ts turns not_cmd settled =>
    obtain ⟨hkeeps, -⟩ := hostTurn_settled_keeps settled
    simp [hkeeps, not_commandIsNext_of_access turns not_cmd, not_engineIsNext_of_host turns,
      not_resetIsNext_of_host turns]
  | reset ts turns eq => simp [eq, not_commandIsNext_of_reset turns, show ResetIsNext s from ⟨ts, turns⟩]

/-- Settles O16, from BUSY after a step; a busy engine is in no IDLE by the invariant. -/
theorem busyHasThreeWriters : Obligations.BusyHasThreeWriters := by
  intro s t h
  have hbusy := step_busy_iff h
  refine ⟨fun hidle => ?_, fun hb => ?_, fun hinv hb => ?_⟩
  · simpa [hidle] using hbusy
  · rw [← Bool.not_eq_true, hbusy]
    have hengine : EngineIsNext s → ¬CommandIsNext s := not_commandIsNext_of_engine
    have hreset : ResetIsNext s → ¬CommandIsNext s := fun ⟨_, hs⟩ => not_commandIsNext_of_reset hs
    tauto
  · obtain ⟨⟨-, hne⟩, -⟩ := hinv
    cases hp : s.phase
    case idle => exact absurd hp (hne hb)
    all_goals exact ⟨_, rfl⟩

/-- Settles O17, case by case of the step. -/
theorem doneHasFourWriters : Obligations.DoneHasFourWriters := by
  intro s t h
  change t.done = true ↔ s.busy = true ∧ s.phase = .finish ∧ EngineIsNext s
    ∨ s.done = true ∧ ¬(s.busy = false ∧ CommandIsNext s) ∧ ¬ResetIsNext s ∧ ¬ClearIsNext 1 s
  cases stepCase_of_step h with
  | microOp i next busy isOp ne_finish run =>
    have hkeeps := (exec_microOp_frame isOp ne_finish run).1.done
    simp [hkeeps, dropTurn, busy, ne_finish, not_resetIsNext_of_engine next, not_clearIsNext_of_engine next]
  | finish next busy phase eq => simp [eq, next, busy, phase]
  | noStep next idle eq =>
    have hne : ¬(s.busy = true ∧ s.phase = .finish) := fun ⟨hb, hp⟩ => by simp [idle hb] at hp
    simp [eq, dropTurn, not_commandIsNext_of_engine next, not_resetIsNext_of_engine next,
      not_clearIsNext_of_engine next, ← and_assoc, hne]
  | command w ts turns eq =>
    simp [eq, acceptCommand_done, show CommandIsNext s from ⟨w, ts, turns⟩, not_engineIsNext_of_host turns,
      not_resetIsNext_of_host turns, not_clearIsNext_of_command turns]
  | access a ts turns not_cmd settled =>
    rw [(hostTurn_settled_flags turns settled).1]
    simp [not_commandIsNext_of_access turns not_cmd, not_engineIsNext_of_host turns,
      not_resetIsNext_of_host turns]
  | reset ts turns eq => simp [eq, not_engineIsNext_of_reset turns, show ResetIsNext s from ⟨ts, turns⟩]

/-- OVR after a step (R28), case by case. -/
theorem step_ovr_iff {s t : State} (h : step s = .next t) :
    t.ovr = true ↔
      s.busy = true ∧ CommandIsNext s ∨ s.ovr = true ∧ ¬ResetIsNext s ∧ ¬ClearIsNext 2 s := by
  have engine_keeps (next : EngineIsNext s) (hkeeps : t.ovr = s.ovr) : t.ovr = true ↔
      s.busy = true ∧ CommandIsNext s ∨ s.ovr = true ∧ ¬ResetIsNext s ∧ ¬ClearIsNext 2 s := by
    simp [hkeeps, not_commandIsNext_of_engine next, not_resetIsNext_of_engine next,
      not_clearIsNext_of_engine next]
  cases stepCase_of_step h with
  | microOp i next busy isOp ne_finish run =>
    exact engine_keeps next (exec_microOp_frame isOp ne_finish run).1.ovr
  | finish next _ _ eq => exact engine_keeps next (by rw [eq]; rfl)
  | noStep next _ eq => exact engine_keeps next (by rw [eq]; rfl)
  | command w ts turns eq =>
    simp [eq, acceptCommand_ovr, show CommandIsNext s from ⟨w, ts, turns⟩, not_resetIsNext_of_host turns,
      not_clearIsNext_of_command turns, or_comm]
  | access a ts turns not_cmd settled =>
    rw [(hostTurn_settled_flags turns settled).2]
    simp [not_commandIsNext_of_access turns not_cmd, not_resetIsNext_of_host turns]
  | reset ts turns eq =>
    simp [eq, not_commandIsNext_of_reset turns, show ResetIsNext s from ⟨ts, turns⟩]

theorem step_of_command {s : State} {w : Word} {ts : List Turn} (h : s.turns = cmdWrite w :: ts) :
    step s = .next (acceptCommand (commandWord (decodeWord w)) { s with turns := ts, resp := .written }) := by
  rw [step_of_cmdWrite h, decodeWord, exec_commandInstr]

/-- Settles O18: the dropped word of R24, and OVR after a step. -/
theorem overrunIsSticky : Obligations.OverrunIsSticky := by
  refine ⟨fun s ts w hb hturns => ?_, fun s t h => step_ovr_iff h⟩
  rw [step_of_command hturns, acceptCommand_busy _ { s with turns := ts, resp := .written } hb]

/-- Settles O19: a step that changes the configuration is CHECK's micro-op or a reset. -/
theorem configurationHasTwoWriters : Obligations.ConfigurationHasTwoWriters := by
  refine ⟨fun s => (getLsbD_statusWord s (by omega)).trans (by simp), fun s t h hne => ?_⟩
  cases stepCase_of_step h with
  | microOp i next busy isOp ne_finish run =>
    have hcheck : i = .check := by
      by_contra hi
      exact hne ((exec_microOp_frame isOp ne_finish run).2 hi)
    subst hcheck
    have hphase : s.phase = .check := by cases hp : s.phase <;> simp [hp, microOp] at isOp ⊢
    have hconfig : commandOf (dropTurn s) = .config := by
      by_contra hc
      have hkeeps := exec_check_active run hc
      exact hne hkeeps
    exact .inl ⟨next, busy, hphase, hconfig⟩
  | finish _ _ _ eq => exact absurd (by rw [eq]; rfl) hne
  | noStep _ _ eq => exact absurd (by rw [eq]; rfl) hne
  | command w ts turns eq => exact absurd (by simp [eq]) hne
  | access a ts turns not_cmd settled =>
    obtain ⟨-, -, -, hkeeps⟩ := hostTurn_settled_keeps settled
    exact absurd hkeeps hne
  | reset ts turns eq => exact .inr ⟨ts, turns⟩

/-- ERR and OUT_LEN after a step that is neither an acceptance nor FINISH nor reset (R31, R38). -/
theorem step_keeps_outcome {s t : State} (h : step s = .next t) (hcmd : ¬(s.busy = false ∧ CommandIsNext s))
    (hfinish : ¬(s.busy = true ∧ s.phase = .finish ∧ EngineIsNext s)) (hreset : ¬ResetIsNext s) :
    t.err = s.err ∧ t.outLen = s.outLen := by
  cases stepCase_of_step h with
  | microOp i _ _ isOp ne_finish run =>
    have hf := (exec_microOp_frame isOp ne_finish run).1
    exact ⟨hf.err, hf.outLen⟩
  | finish next busy phase _ => exact absurd ⟨busy, phase, next⟩ hfinish
  | noStep _ _ eq => exact eq ▸ ⟨rfl, rfl⟩
  | command w ts turns eq =>
    have hb : s.busy = true := by
      by_contra hb
      exact hcmd ⟨by simpa using hb, w, ts, turns⟩
    rw [eq, acceptCommand_busy _ { s with turns := ts, resp := .written } hb]
    exact ⟨rfl, rfl⟩
  | access a ts _ _ settled =>
    obtain ⟨-, herr, hlen, -⟩ := hostTurn_settled_keeps settled
    exact ⟨herr, hlen⟩
  | reset ts turns _ => exact absurd ⟨ts, turns⟩ hreset

theorem step_of_finish {s : State} (h : EngineIsNext s) (hb : s.busy = true) (hp : s.phase = .finish) :
    step s = .next (deliverOutcome (dropTurn s)) :=
  (step_of_microOp h hb (i := .finish) (by rw [hp]; rfl)).trans rfl

/-- OUT_LEN of a FINISH that reports a failure (R38). -/
theorem deliverOutcome_outLen_of_failure {s : State} (h : s.dp.pendErr ≠ .ok) : (deliverOutcome s).outLen = 0 := by
  simp [h]

theorem deliverOutcome_outLen_of_ok {s : State} (h : s.dp.pendErr = .ok) : (deliverOutcome s).outLen = outLenOf s := by
  simp [h]

theorem outLenOf_config {s : State} (h : commandOf s = .config) : outLenOf s = 0 := by simp [outLenOf, h]

theorem outLenOf_seal {s : State} {n : BitVec 4} (h : commandOf s = .seal n) :
    (outLenOf s).toNat = (s.dp.m.toNat + s.active.t.toNat) % 2 ^ 64 := by
  simp [outLenOf, h, payloadLen, tagLen]

theorem outLenOf_open {s : State} {n : BitVec 4} (h : commandOf s = .openCmd n) : outLenOf s = s.dp.m := by
  simp [outLenOf, h]

/-- Settles O20: the three writers one by one, and every other step. -/
theorem outcomeRegistersHaveTheirWriters : Obligations.OutcomeRegistersHaveTheirWriters := by
  intro s t h
  refine ⟨?_, ?_, ?_, step_keeps_outcome h⟩
  · rintro hb ⟨w, ts, hturns⟩
    rw [step_of_command hturns, acceptCommand_idle _ { s with turns := ts, resp := .written } hb] at h
    cases h
    exact ⟨rfl, rfl⟩
  · intro hb hp hnext
    rw [step_of_finish hnext hb hp] at h
    cases h
    exact ⟨rfl, fun hfail => deliverOutcome_outLen_of_failure (s := dropTurn s) hfail,
      fun hok hc => (deliverOutcome_outLen_of_ok (s := dropTurn s) hok).trans (outLenOf_config hc),
      fun n hok hc => (congrArg BitVec.toNat (deliverOutcome_outLen_of_ok (s := dropTurn s) hok)).trans
        (outLenOf_seal hc),
      fun n hok hc => (deliverOutcome_outLen_of_ok (s := dropTurn s) hok).trans (outLenOf_open hc)⟩
  · rintro ⟨ts, hturns⟩
    rw [step_of_reset hturns] at h
    cases h
    exact ⟨rfl, rfl⟩

end Sys2Proof.Machine

/-! No micro-op reads a host-visible register (R42, R75). -/

namespace Sys2Proof.Machine

open Sys2Proof.Config (Platform Dir)

/-- The state with other values in the host's registers. -/
def withRegs (regs : HostRegs) (s : State) : State := { s with regs := regs }

/-- An outcome with its next state changed by `f`; a fault or a refusal stays. -/
def mapNext (f : State → State) : Host.Outcome State Fault Refusal → Host.Outcome State Fault Refusal
  | .next s => .next (f s)
  | .fault r => .fault r
  | .refused r => .refused r

section

variable (cfg : Platform) (regs : HostRegs) (s : State)

/-! ### Operands -/

@[simp] theorem commandOf_withRegs : commandOf (withRegs regs s) = commandOf s := rfl

@[simp] theorem adLen_withRegs : adLen (withRegs regs s) = adLen s := rfl

@[simp] theorem inAddr_withRegs : inAddr (withRegs regs s) = inAddr s := rfl

@[simp] theorem outAddr_withRegs : outAddr (withRegs regs s) = outAddr s := rfl

@[simp] theorem payloadLen_withRegs : payloadLen (withRegs regs s) = payloadLen s := rfl

@[simp] theorem tagLen_withRegs : tagLen (withRegs regs s) = tagLen s := rfl

@[simp] theorem textBase_withRegs : textBase (withRegs regs s) = textBase s := rfl

@[simp] theorem textCount_withRegs : textCount (withRegs regs s) = textCount s := rfl

@[simp] theorem scrubCount_withRegs : scrubCount (withRegs regs s) = scrubCount s := rfl

@[simp] theorem maskedTag_withRegs : maskedTag (withRegs regs s) = maskedTag s := rfl

@[simp] theorem adBlockSources_withRegs : adBlockSources (withRegs regs s) = adBlockSources s := rfl

@[simp] theorem textOutput_withRegs (data : List Byte) :
    textOutput cfg (withRegs regs s) data = textOutput cfg s data := rfl

@[simp] theorem validateText_withRegs (isOpen : Bool) (nlen : BitVec 4) :
    validateText isOpen nlen (withRegs regs s) = validateText isOpen nlen s := rfl

@[simp] theorem overlapUndefined_beginText_withRegs (mc : Nat) :
    overlapUndefined (beginText mc (withRegs regs s)) = overlapUndefined (beginText mc s) := rfl

@[simp] theorem withRegs_dp : (withRegs regs s).dp = s.dp := rfl

/-! ### Reads and stores -/

theorem storeBytes_withRegs (a : Nat) (bs : List Byte) :
    storeBytes (withRegs regs s) a bs = withRegs regs (storeBytes s a bs) := by
  induction bs generalizing s a with
  | nil => rfl
  | cons b bs ih => exact ih (storeByte s a b) (a + 1)

theorem drawSources_withRegs (d : Nat) (xs : List ByteSource) :
    drawSources cfg (withRegs regs s) d xs = drawSources cfg s d xs := by
  induction xs generalizing d with
  | nil => rfl
  | cons x xs ih =>
    cases x with
    | const b => simp only [drawSources, ih]
    | mem a => simp only [drawSources, ih]; rfl

theorem readSources_withRegs (xs : List ByteSource) :
    readSources cfg (withRegs regs s) xs = readSources cfg s xs := by
  simp only [readSources, drawSources_withRegs]
  rfl

theorem memRead_withRegs (a n : Nat) : memRead cfg (withRegs regs s) a n = memRead cfg s a n :=
  readSources_withRegs cfg regs s _

/-! ### The micro-ops -/

theorem checkText_withRegs (isOpen : Bool) (nlen : BitVec 4) :
    checkText isOpen nlen (withRegs regs s) = mapNext (withRegs regs) (checkText isOpen nlen s) := by
  unfold checkText
  rw [validateText_withRegs]
  cases validateText isOpen nlen s with
  | error e => rfl
  | ok mc =>
    dsimp only
    rw [overlapUndefined_beginText_withRegs]
    split <;> rfl

theorem checkOn_withRegs : checkOn cfg (withRegs regs s) = mapNext (withRegs regs) (checkOn cfg s) := by
  simp only [checkOn, commandOf_withRegs]
  generalize commandOf s = command
  match command with
  | .config => rfl
  | .seal nlen => exact checkText_withRegs regs s false nlen
  | .openCmd nlen => exact checkText_withRegs regs s true nlen
  | .bad _ => rfl

theorem macB0On_withRegs : macB0On cfg (withRegs regs s) = withRegs regs (macB0On cfg s) := by
  unfold macB0On
  rw [adLen_withRegs]
  split <;> rfl

theorem macAdOn_withRegs : macAdOn cfg (withRegs regs s) = withRegs regs (macAdOn cfg s) := by
  unfold macAdOn
  rw [adBlockSources_withRegs, readSources_withRegs]
  cases readSources cfg s (adBlockSources s) <;> rfl

theorem ctrS0On_withRegs : ctrS0On cfg (withRegs regs s) = withRegs regs (ctrS0On cfg s) := by
  unfold ctrS0On
  rw [withRegs_dp]
  split <;> rfl

theorem textMacOn_withRegs : textMacOn cfg (withRegs regs s) = withRegs regs (textMacOn cfg s) := by
  unfold textMacOn
  rw [withRegs_dp]
  split <;> rfl

theorem textCtrOn_withRegs : textCtrOn cfg (withRegs regs s) = withRegs regs (textCtrOn cfg s) := by
  unfold textCtrOn
  rw [inAddr_withRegs, outAddr_withRegs, textBase_withRegs, textCount_withRegs, memRead_withRegs]
  cases memRead cfg s (inAddr s + textBase s) (textCount s) with
  | none => rfl
  | some read =>
    simp only [textOutput_withRegs, storeBytes_withRegs]
    split <;> rfl

theorem tagSeal_withRegs : tagSeal cfg (withRegs regs s) = withRegs regs (tagSeal cfg s) := by
  simp only [tagSeal, outAddr_withRegs, payloadLen_withRegs, tagLen_withRegs, maskedTag_withRegs,
    storeBytes_withRegs]
  split <;> rfl

theorem tagOpen_withRegs : tagOpen cfg (withRegs regs s) = withRegs regs (tagOpen cfg s) := by
  unfold tagOpen
  rw [inAddr_withRegs, payloadLen_withRegs, tagLen_withRegs, memRead_withRegs]
  cases memRead cfg s (inAddr s + payloadLen s) (tagLen s) with
  | none => rfl
  | some read =>
    simp only [maskedTag_withRegs, apply_ite (withRegs regs)]
    rfl

theorem tagOn_withRegs : tagOn cfg (withRegs regs s) = mapNext (withRegs regs) (tagOn cfg s) := by
  simp only [tagOn, commandOf_withRegs]
  generalize commandOf s = command
  match command with
  | .config => rfl
  | .seal nlen => exact congrArg Host.Outcome.next (tagSeal_withRegs cfg regs s)
  | .openCmd nlen => exact congrArg Host.Outcome.next (tagOpen_withRegs cfg regs s)
  | .bad _ => rfl

theorem scrubStep_withRegs : scrubStep (withRegs regs s) = withRegs regs (scrubStep s) := by
  simp only [scrubStep, outAddr_withRegs, withRegs_dp, scrubCount_withRegs, storeBytes_withRegs]
  rfl

/-- Every micro-op does the same whatever the host's registers hold: the same outcome, with those values left in
them. -/
theorem exec_withRegs {p : Phase} {i : Instr} (hi : microOp p = some i) :
    exec i (withRegs regs s) = mapNext (withRegs regs) (exec i s) := by
  cases p <;> simp only [microOp, Option.some.injEq, reduceCtorEq] at hi <;> subst hi
  case check => exact checkOn_withRegs _ regs s
  case macB0 => exact congrArg Host.Outcome.next (macB0On_withRegs _ regs s)
  case macAd => exact congrArg Host.Outcome.next (macAdOn_withRegs _ regs s)
  case ctrS0 => exact congrArg Host.Outcome.next (ctrS0On_withRegs _ regs s)
  case textCtr => exact congrArg Host.Outcome.next (textCtrOn_withRegs _ regs s)
  case textMac => exact congrArg Host.Outcome.next (textMacOn_withRegs _ regs s)
  case tag => exact tagOn_withRegs _ regs s
  case scrub => exact congrArg Host.Outcome.next (scrubStep_withRegs regs s)
  case finish => rfl

end

/-- Settles O59: `exec_withRegs` where the micro-op answers a next state. -/
theorem latchesShieldTheCommand : Obligations.LatchesShieldTheCommand := by
  intro i hi s t regs h
  obtain ⟨p, hp⟩ : ∃ p, microOp p = some i := by
    have hsplit : i ∈ [Instr.check, .macB0, .macAd, .ctrS0, .textCtr, .textMac, .tag, .scrub] ∨ i = .finish := by
      simpa [or_assoc] using hi
    obtain hearly | rfl := hsplit
    · obtain ⟨p, hp, -⟩ := exists_phase_of_microOp hearly
      exact ⟨p, hp⟩
    · exact ⟨.finish, rfl⟩
  exact (exec_withRegs regs s hp).trans (congrArg (mapNext (withRegs regs)) h)

end Sys2Proof.Machine

/-! The data memory: what racing reads answer, and the host's own accesses (R61, R66, R73). -/

namespace Sys2Proof.Machine

open Sys2Proof.Config (Platform)
open Sys2Proof.Safety

/-! ### What a read answers -/

/-- What a source may answer: a constant itself, an address any byte that R73 allows there. -/
def MayAnswer (s : State) : ByteSource → Byte → Prop
  | .const c, b => b = c
  | .mem a, b => MayRead s a b

theorem mayRead_iff_mem {s : State} {a : Nat} {b : Byte} :
    MayRead s a b ↔ b ∈ readByte s.mem a :: olderBytes s.past a := by
  rw [List.mem_cons, mem_olderBytes]
  rfl

theorem drawByte_mayRead (cfg : Platform) (s : State) (a d : Nat) :
    MayRead s a (drawByte cfg (readByte s.mem a) (olderBytes s.past a) d).1 :=
  mayRead_iff_mem.mpr (List.mem_cons.mpr (drawByte_mem ..))

/-- Every source of a read is answered by a byte it may answer (R73). -/
theorem drawSources_mayAnswer (cfg : Platform) (s : State) (d : Nat) (xs : List ByteSource) :
    List.Forall₂ (MayAnswer s) xs (drawSources cfg s d xs).1 := by
  induction xs generalizing d with
  | nil => exact .nil
  | cons x xs ih =>
    cases x with
    | const c => exact .cons rfl (ih d)
    | mem a => exact .cons (drawByte_mayRead cfg s a d) (ih _)

/-- The draw counter never goes back. -/
theorem drawSources_le (cfg : Platform) (s : State) (d : Nat) (xs : List ByteSource) :
    d ≤ (drawSources cfg s d xs).2 := by
  induction xs generalizing d with
  | nil => exact Nat.le_refl d
  | cons x xs ih =>
    cases x with
    | const c => exact ih d
    | mem a => exact (drawByte_le ..).trans (ih _)

theorem mayAnswer_getD {s : State} {xs : List ByteSource} {bs : List Byte} (h : List.Forall₂ (MayAnswer s) xs bs)
    {k : Nat} {x : ByteSource} (hx : xs[k]? = some x) : MayAnswer s x (bs.getD k 0) := by
  obtain ⟨hk, rfl⟩ := List.getElem?_eq_some_iff.mp hx
  have hb : k < bs.length := h.length_eq ▸ hk
  rw [List.getD_eq_getElem _ _ hb]
  exact h.get hk hb

/-- Each candidate of a racing access is what it sees under some draw. -/
theorem exists_draw_of_mem (cfg : Platform) {cur b : Byte} {older : List Byte} (d : Nat) (h : b ∈ cur :: older) :
    ∃ draw, (drawByte { cfg with raceDraw := draw } cur older d).1 = b := by
  cases older with
  | nil => exact ⟨cfg.raceDraw, (List.mem_singleton.mp h).symm⟩
  | cons o os =>
    obtain ⟨k, hk, rfl⟩ := List.getElem_of_mem h
    refine ⟨fun _ => k, ?_⟩
    have hmod : k % (os.length + 2) = k := Nat.mod_eq_of_lt hk
    simp only [drawByte, hmod]
    exact List.getD_eq_getElem _ _ hk

/-- Settles O36: a read answers source by source, and the draw that names a candidate's place gives that candidate. -/
theorem racedBytesAreOldOrNew : Obligations.RacedBytesAreOldOrNew := by
  refine ⟨fun cfg s xs bs d hread => ?_, fun cfg s a b hadmitted hb => ?_⟩
  · obtain ⟨-, hr⟩ := (readSources_eq_some_iff cfg s xs _).mp hread
    obtain ⟨rfl, rfl⟩ := Prod.mk.inj hr
    have hanswer := drawSources_mayAnswer cfg s s.draws xs
    exact ⟨drawSources_length .., drawSources_le ..,
      fun k a c => ⟨fun hx => mayAnswer_getD hanswer hx, fun hx => mayAnswer_getD hanswer hx⟩⟩
  · obtain ⟨draw, rfl⟩ := exists_draw_of_mem cfg s.draws (mayRead_iff_mem.mp hb)
    exact ⟨draw, _, (readSources_eq_some_iff ..).mpr ⟨List.forall_mem_singleton.mpr hadmitted, rfl⟩⟩

/-! ### The host's accesses -/

theorem step_of_memRead {s : State} {a : Nat} {ts : List Turn} (h : s.turns = .host (.memRead a) :: ts) :
    step s = .next (hostMemRead Config.platform a { s with turns := ts }) :=
  step_of_fetch_settled (fetch_of_host h)

theorem step_of_memWrite {s : State} {a : Nat} {v : Byte} {ts : List Turn}
    (h : s.turns = .host (.memWrite a v) :: ts) : step s = .next (hostMemWrite a v { s with turns := ts }) :=
  step_of_fetch_settled (fetch_of_host h)

theorem hostMemRead_of_le (cfg : Platform) {a : Nat} (s : State) (h : 2 ^ 64 ≤ a) :
    hostMemRead cfg a s = { s with resp := .error } := if_neg (Nat.not_lt.mpr h)

theorem hostMemRead_of_lt (cfg : Platform) {a : Nat} (s : State) (h : a < 2 ^ 64) :
    hostMemRead cfg a s =
      { s with
        resp := .byte (drawByte cfg (readByte s.mem a) (hostOlderBytes s a) s.draws).1
        draws := (drawByte cfg (readByte s.mem a) (hostOlderBytes s a) s.draws).2 } := if_pos h

theorem hostMemWrite_of_le {a : Nat} (v : Byte) (s : State) (h : 2 ^ 64 ≤ a) :
    hostMemWrite a v s = { s with resp := .error } := if_neg (Nat.not_lt.mpr h)

theorem hostMemWrite_of_lt {a : Nat} (v : Byte) (s : State) (h : a < 2 ^ 64) :
    hostMemWrite a v s = { storeByte s a v with resp := .written } := if_pos h

theorem inOutRegion_iff (s : State) (a : Nat) :
    inOutRegion s a = true ↔ outAddr s ≤ a ∧ a < outAddr s + outSize s := decide_eq_true_iff

/-- A host read races only in the output region of a busy engine (item 6 of 93_implementation_defined.md). -/
theorem hostOlderBytes_of_not_region {s : State} {a : Nat}
    (h : ¬(s.busy = true ∧ outAddr s ≤ a ∧ a < outAddr s + outSize s)) : hostOlderBytes s a = [] := by
  rw [← inOutRegion_iff, ← Bool.and_eq_true] at h
  exact if_neg h

theorem hostOlderBytes_of_quiet {s : State} {a : Nat} (h : Quiet s a 1) : hostOlderBytes s a = [] := by
  have hnil : olderBytes s.past a = [] := olderBytes_of_quiet h Nat.zero_lt_one
  rw [hostOlderBytes, hnil, ite_self]

theorem mem_past_of_mem_hostOlderBytes {s : State} {a : Nat} {b : Byte} (h : b ∈ hostOlderBytes s a) :
    (a, b) ∈ s.past := by
  unfold hostOlderBytes at h
  split at h
  · exact mem_olderBytes.mp h
  · simp at h

/-- A host read that races with nothing answers the byte there and draws nothing. -/
theorem hostMemRead_of_no_race (cfg : Platform) {a : Nat} {s : State} (ha : a < 2 ^ 64)
    (h : hostOlderBytes s a = []) : hostMemRead cfg a s = { s with resp := .byte (readByte s.mem a) } := by
  rw [hostMemRead_of_lt cfg s ha, h]
  rfl

/-- Settles O12: each clause is one host step, by the address and by whether the read races. -/
theorem hostMemoryAccesses : Obligations.HostMemoryAccesses := by
  intro s ts a v
  refine ⟨fun hturns ha => ?_, fun hturns ha => ?_, fun hturns ha hwf => ?_, fun hturns ha => ?_,
    fun hturns ha hwf hidle => ?_⟩
  · rw [step_of_memWrite hturns, hostMemWrite_of_le _ _ ha]
  · rw [step_of_memRead hturns, hostMemRead_of_le _ _ ha]
  · refine ⟨writeByte s.mem a v, _, ?_, writeByte_wf hwf a v, readByte_writeByte hwf a v, rfl⟩
    rw [step_of_memWrite hturns, hostMemWrite_of_lt _ _ ha]
    rfl
  · refine ⟨_, _, (step_of_memRead hturns).trans (congrArg _ (hostMemRead_of_lt _ _ ha)), drawByte_le .., ?_,
      fun hquiet => ?_⟩
    · exact (drawByte_mem ..).imp_right mem_past_of_mem_hostOlderBytes
    · have hnil : hostOlderBytes { s with turns := ts } a = [] :=
        hquiet.elim hostOlderBytes_of_not_region hostOlderBytes_of_quiet
      rw [hnil]
      exact ⟨rfl, rfl⟩
  · refine ⟨_, (step_of_memWrite hturns).trans (congrArg _ (hostMemWrite_of_lt _ _ ha)), ?_⟩
    rw [step_of_memRead rfl, hostMemRead_of_no_race _ ha (hostOlderBytes_of_not_region (by simp [hidle]))]
    simp [readByte_writeByte_same hwf]

end Sys2Proof.Machine

/-! The overlaps that CHECK refuses (R69, R174). -/

namespace Sys2Proof.Machine

/-! ### Overlapping regions -/

theorem regionsMeet_iff (a n b m : Nat) :
    regionsMeet a n b m = true ↔ ∃ x, a ≤ x ∧ x < a + n ∧ b ≤ x ∧ x < b + m := by
  rw [regionsMeet, decide_eq_true_iff]
  constructor
  · intro h
    exact ⟨max a b, by omega⟩
  · rintro ⟨x, hx⟩
    omega

/-- The overlaps that R69 leaves undefined, address by address. -/
theorem overlapUndefined_iff (s : State) :
    overlapUndefined s = true ↔
      ∃ x, outAddr s ≤ x ∧ x < outAddr s + outSize s
        ∧ (adAddr s ≤ x ∧ x < adAddr s + adLen s
          ∨ s.latch.outAddr ≠ s.latch.inAddr ∧ inAddr s ≤ x ∧ x < inAddr s + payloadLen s
          ∨ inAddr s + payloadLen s ≤ x ∧ x < inAddr s + payloadLen s + tagInSize s) := by
  have hplace : outAddr s ≠ inAddr s ↔ s.latch.outAddr ≠ s.latch.inAddr := BitVec.toNat_inj.not
  simp only [overlapUndefined, Bool.or_eq_true, Bool.and_eq_true, bne_iff_ne, hplace, regionsMeet_iff,
    ← exists_and_left, ← exists_or]
  exact exists_congr fun x => by tauto

/-! ### CHECK of SEAL and OPEN -/

/-- What passes the validation of SEAL and OPEN, and with which payload length (R174). -/
theorem validateText_eq_ok_iff (isOpen : Bool) (nlen : BitVec 4) (s : State) (mc : Nat) :
    validateText isOpen nlen s = .ok mc ↔
      s.active.valid = true ∧ nlen = s.active.n ∧ (isOpen = true → tagLen s ≤ inLen s)
        ∧ mc = (if isOpen then inLen s - tagLen s else inLen s) ∧ mc < 2 ^ (8 * lenField s) := by
  unfold validateText
  generalize (if isOpen then inLen s - tagLen s else inLen s) = payload
  split
  next hinvalid => simp [hinvalid]
  next hvalid =>
    split
    next hne => simp [hne]
    next heq =>
      split
      next hshort => simp [hshort.1, hshort.2]
      next hlong =>
        have hfits : isOpen = true → tagLen s ≤ inLen s := fun ho => Nat.not_lt.mp fun hlt => hlong ⟨ho, hlt⟩
        rw [Bool.not_eq_false] at hvalid
        rw [not_not] at heq
        simp only [hvalid, heq, true_and]
        split
        next hbig =>
          simp only [reduceCtorEq, false_iff, not_and, not_lt]
          rintro - rfl
          exact hbig
        next hsmall =>
          rw [Except.ok.injEq, eq_comm]
          exact ⟨fun he => ⟨hfits, he, he ▸ Nat.not_le.mp hsmall⟩, fun h => h.2.1⟩

/-- A command that passes its validation is refused exactly for its buffers (R69, log 8). -/
theorem checkText_eq_refused_iff {isOpen : Bool} {nlen : BitVec 4} {s : State} {mc : Nat}
    (h : validateText isOpen nlen s = .ok mc) :
    checkText isOpen nlen s = .refused .overlappingBuffers ↔ overlapUndefined (beginText mc s) = true := by
  simp only [checkText, h]
  split <;> simp [*]

theorem exec_check_of_seal {s : State} {n : BitVec 4} (h : commandOf s = .seal n) :
    exec .check s = checkText false n s := by
  simp [exec, execCheck, checkOn, h]

theorem exec_check_of_open {s : State} {n : BitVec 4} (h : commandOf s = .openCmd n) :
    exec .check s = checkText true n s := by
  simp [exec, execCheck, checkOn, h]

theorem payloadLen_beginText {s : State} {mc : Nat} (h : mc ≤ inLen s) : payloadLen (beginText mc s) = mc :=
  BitVec.toNat_ofNat .. |>.trans (Nat.mod_eq_of_lt (h.trans_lt s.latch.inLen.isLt))

theorem outSize_of_seal {s : State} {n : BitVec 4} (h : commandOf s = .seal n) :
    outSize s = payloadLen s + tagLen s := by simp [outSize, h]

theorem outSize_of_open {s : State} {n : BitVec 4} (h : commandOf s = .openCmd n) : outSize s = payloadLen s := by
  simp [outSize, h]

theorem tagInSize_of_seal {s : State} {n : BitVec 4} (h : commandOf s = .seal n) : tagInSize s = 0 := by
  simp [tagInSize, h]

theorem tagInSize_of_open {s : State} {n : BitVec 4} (h : commandOf s = .openCmd n) : tagInSize s = tagLen s := by
  simp [tagInSize, h]

/-- The refusal of a command that passes its validation with payload length `mc`, address by address. -/
theorem checkText_eq_refused_iff_exists {isOpen : Bool} {nlen : BitVec 4} {s : State} {mc : Nat}
    (h : validateText isOpen nlen s = .ok mc) (hmc : mc ≤ inLen s) :
    checkText isOpen nlen s = .refused .overlappingBuffers ↔
      ∃ x, outAddr s ≤ x ∧ x < outAddr s + outSize (beginText mc s)
        ∧ (adAddr s ≤ x ∧ x < adAddr s + adLen s
          ∨ s.latch.outAddr ≠ s.latch.inAddr ∧ inAddr s ≤ x ∧ x < inAddr s + mc
          ∨ inAddr s + mc ≤ x ∧ x < inAddr s + mc + tagInSize (beginText mc s)) := by
  rw [checkText_eq_refused_iff h, overlapUndefined_iff, payloadLen_beginText hmc]
  rfl

/-- Settles O25: the command passes its validation, and its regions of R62 are those the statement names. -/
theorem checkRefusesUndefinedOverlap : Obligations.CheckRefusesUndefinedOverlap := by
  rintro s M T out tagIn ⟨n, ⟨hc, hn, rfl, rfl, rfl⟩ | ⟨hc, hn, hlen, hout, rfl⟩⟩ hT hvalid hM
  · have hok : validateText false n s = .ok (inLen s) :=
      (validateText_eq_ok_iff ..).mpr ⟨hvalid, hn, by simp, rfl, hM⟩
    have hcommand : commandOf (beginText (inLen s) s) = .seal n := hc
    rw [exec_check_of_seal hc, checkText_eq_refused_iff_exists hok le_rfl, outSize_of_seal hcommand,
      tagInSize_of_seal hcommand, payloadLen_beginText le_rfl, hT]
    rfl
  · have hM_le : M ≤ inLen s := by unfold inLen; omega
    have hfits : tagLen s ≤ inLen s ∧ M = inLen s - tagLen s := by unfold inLen tagLen; omega
    have hok : validateText true n s = .ok M :=
      (validateText_eq_ok_iff ..).mpr ⟨hvalid, hn, fun _ => hfits.1, hfits.2, hM⟩
    have hcommand : commandOf (beginText M s) = .openCmd n := hc
    rw [exec_check_of_open hc, checkText_eq_refused_iff_exists hok hM_le, outSize_of_open hcommand,
      tagInSize_of_open hcommand, payloadLen_beginText hM_le, hT, hout]
    rfl

end Sys2Proof.Machine

/-! Which bytes of memory an instruction can change (R62, R154, R178, R180). -/

namespace Sys2Proof.Machine

open Sys2Proof.Config (Platform Dir)
open Sys2Proof.Safety

/-! ### What each micro-op stores -/

/-- From `s` to `t` the memory takes a run of at most `n` bytes from address `a` on, and nothing else. -/
def StoresWithin (s t : State) (a n : Nat) : Prop :=
  ∃ bs : List Byte, bs.length ≤ n ∧ t.mem = (storeBytes s a bs).mem

theorem StoresWithin.readByte_eq {s t : State} {a n x : Nat} (h : StoresWithin s t a n)
    (hx : ¬(a ≤ x ∧ x < a + n)) : readByte t.mem x = readByte s.mem x := by
  obtain ⟨bs, hlen, hmem⟩ := h
  rw [hmem, readByte_storeBytes_outside s a bs (by omega)]

theorem storesWithin_of_mem_eq {s t : State} (h : t.mem = s.mem) (a n : Nat) : StoresWithin s t a n :=
  ⟨[], Nat.zero_le n, h⟩

theorem length_take_admittedCount_le (cfg : Platform) (d : Dir) (a n : Nat) (bs : List Byte) :
    (bs.take (admittedCount cfg d a n)).length ≤ n := (List.length_take_le ..).trans (admittedCount_le ..)

theorem textCtrOn_storesWithin (cfg : Platform) (s : State) :
    StoresWithin s (textCtrOn cfg s) (outAddr s + textBase s) (textCount s) := by
  unfold textCtrOn
  split
  · exact storesWithin_of_mem_eq (raiseBusError_mem s) _ _
  · dsimp only
    split <;> exact ⟨_, length_take_admittedCount_le .., rfl⟩

theorem tagSeal_storesWithin (cfg : Platform) (s : State) :
    StoresWithin s (tagSeal cfg s) (outAddr s + payloadLen s) (tagLen s) := by
  unfold tagSeal
  dsimp only
  split <;> exact ⟨_, length_take_admittedCount_le .., rfl⟩

theorem scrubStep_storesWithin (s : State) :
    StoresWithin s (scrubStep s) (outAddr s + s.dp.scrubPos) (scrubCount s) :=
  ⟨_, List.length_replicate.le, rfl⟩

theorem macB0On_mem (cfg : Platform) (s : State) : (macB0On cfg s).mem = s.mem := by
  unfold macB0On
  split <;> rfl

theorem macAdOn_mem (cfg : Platform) (s : State) : (macAdOn cfg s).mem = s.mem := by
  unfold macAdOn
  split <;> rfl

theorem ctrS0On_mem (cfg : Platform) (s : State) : (ctrS0On cfg s).mem = s.mem := by
  unfold ctrS0On
  split <;> rfl

theorem textMacOn_mem (cfg : Platform) (s : State) : (textMacOn cfg s).mem = s.mem := by
  unfold textMacOn
  split <;> rfl

theorem tagOpen_mem (cfg : Platform) (s : State) : (tagOpen cfg s).mem = s.mem := by
  unfold tagOpen
  split
  · rfl
  · dsimp only
    split <;> rfl

theorem exec_check_mem {s t : State} (h : exec .check s = .next t) : t.mem = s.mem := by
  obtain ⟨-, rfl⟩ | ⟨-, ⟨e, rfl⟩ | ⟨mc, rfl⟩⟩ := exec_check_cases h <;> rfl

theorem exec_tag_of_seal {s : State} {l : BitVec 4} (h : commandOf s = .seal l) :
    exec .tag s = .next (tagSeal Config.platform s) := by
  simp [exec, execTag, tagOn, h]

/-! ### The frames -/

/-- Every instruction but TEXT_CTR, TAG and SCRUB leaves the memory as it is. -/
theorem exec_mem_of_no_store {i : Instr} (htext : i ≠ .textCtr) (htag : i ≠ .tag) (hscrub : i ≠ .scrub)
    {s t : State} (h : exec i s = .next t) : t.mem = s.mem := by
  cases i
  case textCtr => exact absurd rfl htext
  case tag => exact absurd rfl htag
  case scrub => exact absurd rfl hscrub
  case check => exact exec_check_mem h
  all_goals cases h
  case macB0 => exact macB0On_mem _ s
  case macAd => exact macAdOn_mem _ s
  case ctrS0 => exact ctrS0On_mem _ s
  case textMac => exact textMacOn_mem _ s
  case finish => exact deliverOutcome_mem s
  all_goals exact acceptCommand_mem _ s

theorem exec_textCtr_storesWithin {s t : State} (h : exec .textCtr s = .next t) :
    StoresWithin s t (outAddr s + textBase s) (textCount s) := by
  cases h
  exact textCtrOn_storesWithin _ s

theorem exec_scrub_storesWithin {s t : State} (h : exec .scrub s = .next t) :
    StoresWithin s t (outAddr s + s.dp.scrubPos) (scrubCount s) := by
  cases h
  exact scrubStep_storesWithin s

theorem exec_tag_storesWithin_of_seal {s t : State} {l : BitVec 4} (hc : commandOf s = .seal l)
    (h : exec .tag s = .next t) : StoresWithin s t (outAddr s + payloadLen s) (tagLen s) := by
  rw [exec_tag_of_seal hc] at h
  cases h
  exact tagSeal_storesWithin _ s

theorem exec_tag_mem_of_open {s t : State} {l : BitVec 4} (hc : commandOf s = .openCmd l)
    (h : exec .tag s = .next t) : t.mem = s.mem := by
  rw [exec_tag_of_open hc] at h
  cases h
  exact tagOpen_mem _ s

/-- Settles O38: the three micro-ops that store, and all others. -/
theorem memoryFrames : Obligations.MemoryFrames :=
  ⟨fun _ htext htag hscrub _ _ h _ => by rw [exec_mem_of_no_store htext htag hscrub h],
    fun _ _ _ hc h _ => by rw [exec_tag_mem_of_open hc h],
    fun _ _ h _ => (exec_textCtr_storesWithin h).readByte_eq,
    fun _ _ _ hc h _ => (exec_tag_storesWithin_of_seal hc h).readByte_eq,
    fun _ _ h _ => (exec_scrub_storesWithin h).readByte_eq⟩

/-! ### The output region -/

/-- The command of an accepted text command is a SEAL or an OPEN (R174). -/
theorem commandOf_of_textAccepted {s : State} (h : TextAccepted s) :
    commandOf s = .seal s.active.n ∨ commandOf s = .openCmd s.active.n := by
  obtain ⟨-, hc, -⟩ := h
  exact hc.imp And.left And.left

theorem payloadLen_le_outSize {s : State} (h : TextAccepted s) : payloadLen s ≤ outSize s := by
  obtain hc | hc := commandOf_of_textAccepted h
  · rw [outSize_of_seal hc]
    exact Nat.le_add_right ..
  · rw [outSize_of_open hc]

/-- A run of stores that lies in the output region changes no byte outside it. -/
theorem StoresWithin.readByte_eq_of_region {s t : State} {p n x : Nat} (h : StoresWithin s t (outAddr s + p) n)
    (hn : n = 0 ∨ p + n ≤ outSize s) (hx : ¬(outAddr s ≤ x ∧ x < outAddr s + outSize s)) :
    readByte t.mem x = readByte s.mem x :=
  h.readByte_eq (by omega)

theorem textCount_fits (s : State) : textCount s = 0 ∨ textBase s + textCount s ≤ payloadLen s := by
  unfold textCount
  omega

theorem scrubCount_fits (s : State) : scrubCount s = 0 ∨ s.dp.scrubPos + scrubCount s ≤ s.dp.written := by
  unfold scrubCount
  omega

/-- A micro-op of a command in flight changes no byte outside the command's output region (R62). -/
theorem exec_microOp_writes_output_only {cfg : Platform} {s t : State} {i : Instr} (hinv : FlightInv cfg s)
    (hi : microOp s.phase = some i) (h : exec i s = .next t) {x : Nat}
    (hx : ¬(outAddr s ≤ x ∧ x < outAddr s + outSize s)) : readByte t.mem x = readByte s.mem x := by
  unfold FlightInv at hinv
  cases hp : s.phase <;> simp only [hp, microOp, Option.some.injEq, reduceCtorEq] at hi hinv <;> subst hi
  case textCtr =>
    obtain ⟨haccepted, -⟩ := hinv
    have hsize := payloadLen_le_outSize haccepted
    exact (exec_textCtr_storesWithin h).readByte_eq_of_region
      ((textCount_fits s).imp_right fun hfits => hfits.trans hsize) hx
  case tag =>
    obtain ⟨haccepted, -⟩ := hinv
    obtain hc | hc := commandOf_of_textAccepted haccepted
    · exact (exec_tag_storesWithin_of_seal hc h).readByte_eq_of_region (.inr (outSize_of_seal hc).ge) hx
    · rw [exec_tag_mem_of_open hc h]
  case scrub =>
    obtain ⟨-, -, -, hwritten⟩ := hinv
    exact (exec_scrub_storesWithin h).readByte_eq_of_region
      ((scrubCount_fits s).imp_right fun hfits => hfits.trans hwritten) hx
  all_goals rw [exec_mem_of_no_store (by simp) (by simp) (by simp) h]

/-- Settles O53: the engine's step is a micro-op, FINISH, or no step, and the last two leave the memory as it is. -/
theorem engineWritesOnlyTheOutputRegion : Obligations.EngineWritesOnlyTheOutputRegion := by
  intro s t hinv hnext h x hx
  cases stepCase_of_step h with
  | microOp i _ _ isOp _ run =>
    exact exec_microOp_writes_output_only (s := dropTurn s) hinv isOp run hx
  | finish _ _ _ eq => rw [eq]; rfl
  | noStep _ _ eq => rw [eq]; rfl
  | command w ts turns _ => exact absurd hnext (not_engineIsNext_of_host turns)
  | access a ts turns _ _ => exact absurd hnext (not_engineIsNext_of_host turns)
  | reset ts turns _ => exact absurd hnext (not_engineIsNext_of_reset turns)

end Sys2Proof.Machine

/-! The codes of the two code spaces and the decoder that reads them (R80 to R86; log 3). -/

namespace Sys2Proof

open Sys2Proof.Machine

/-! ### Words put together from fields -/

theorem toNat_field_lt {w : Nat} (x : BitVec w) (k : Nat) : 2 ^ k * x.toNat < 2 ^ (k + w) := by
  rw [Nat.pow_add]
  exact Nat.mul_lt_mul_of_pos_left x.isLt (Nat.two_pow_pos k)

/-- A field that fits at bit `k`, as a number. -/
theorem toNat_field {w : Nat} (x : BitVec w) {k : Nat} (h : k + w ≤ 32) :
    (x.setWidth 32 <<< k).toNat = 2 ^ k * x.toNat := by
  have hlt : 2 ^ k * x.toNat < 2 ^ 32 := (toNat_field_lt x k).trans_le (Nat.pow_le_pow_right (by omega) h)
  rw [BitVec.toNat_shiftLeft, BitVec.toNat_setWidth_of_le (by omega), Nat.shiftLeft_eq, Nat.mul_comm,
    Nat.mod_eq_of_lt hlt]

/-- A field put below the fields that a word already holds. -/
theorem toNat_or_field {x : Word} {w k n : Nat} (y : BitVec w) (h : k + w ≤ 32) (hx : x.toNat = 2 ^ (k + w) * n) :
    (x ||| y.setWidth 32 <<< k).toNat = 2 ^ k * (2 ^ w * n + y.toNat) := by
  rw [BitVec.toNat_or, hx, toNat_field y h, ← Nat.two_pow_add_eq_or_of_lt (toNat_field_lt y k)]
  ring

/-- The same for a field at bit 0. -/
theorem toNat_or_lowField {x : Word} {w n : Nat} (y : BitVec w) (h : w ≤ 32) (hx : x.toNat = 2 ^ w * n) :
    (x ||| y.setWidth 32).toNat = 2 ^ w * n + y.toNat := by
  rw [BitVec.toNat_or, hx, BitVec.toNat_setWidth_of_le h, Nat.two_pow_add_eq_or_of_lt y.isLt]

theorem toNat_textWord (op n : BitVec 4) : (textWord (op.setWidth 32) n).toNat = 256 * n.toNat + op.toNat := by
  have hn : ((n.setWidth 32 : Word) <<< 8).toNat = 2 ^ 8 * n.toNat := toNat_field n (by omega)
  rw [textWord, BitVec.or_comm, toNat_or_lowField (n := 16 * n.toNat) op (by omega) (by omega)]
  omega

/-- A word holds OP and NLEN alone exactly when its reserved fields are 0 (R80, R84). -/
theorem eq_textWord_iff (w : Word) (op n : BitVec 4) :
    w = textWord (op.setWidth 32) n ↔ fieldRes1 w = 0 ∧ fieldRes0 w = 0 ∧ fieldOp w = op ∧ fieldNlen w = n := by
  simp only [fieldOp, fieldRes0, fieldNlen, fieldRes1, BitVec.toNat_eq, toNat_textWord, BitVec.extractLsb'_toNat,
    BitVec.ofNat_eq_ofNat, BitVec.toNat_ofNat, Nat.shiftRight_eq_div_pow]
  omega

/-- The mask of SEAL's and OPEN's rows leaves NLEN free. -/
theorem and_mask_eq_iff (w : Word) (op : BitVec 4) :
    w &&& 0xFFFFF0FF = op.setWidth 32 ↔ ∃ n, w = textWord (op.setWidth 32) n := by
  have hop : op.setWidth 32 = textWord (op.setWidth 32) 0 := by simp [textWord]
  have hres1 : fieldRes1 (w &&& 0xFFFFF0FF) = fieldRes1 w :=
    BitVec.extractLsb'_and.trans (BitVec.and_allOnes (x := fieldRes1 w))
  have hres0 : fieldRes0 (w &&& 0xFFFFF0FF) = fieldRes0 w :=
    BitVec.extractLsb'_and.trans (BitVec.and_allOnes (x := fieldRes0 w))
  have hlow : fieldOp (w &&& 0xFFFFF0FF) = fieldOp w :=
    BitVec.extractLsb'_and.trans (BitVec.and_allOnes (x := fieldOp w))
  have hnlen : fieldNlen (w &&& 0xFFFFF0FF) = 0 :=
    BitVec.extractLsb'_and.trans (BitVec.and_zero (x := fieldNlen w))
  conv_lhs => rw [hop, eq_textWord_iff, hres1, hres0, hlow, hnlen]
  simp [eq_textWord_iff]

/-! ### The words that spell a command -/

/-- `spellsCommand` is the list of R84: CONFIG's one word, and SEAL's and OPEN's sixteen each. -/
theorem spellsCommand_iff (w : Word) :
    spellsCommand w = true ↔ w = 1 ∨ (∃ n, w = textWord 2 n) ∨ ∃ n, w = textWord 3 n := by
  have hseal : w &&& 0xFFFFF0FF = 2 ↔ ∃ n, w = textWord 2 n := and_mask_eq_iff w 2
  have hopen : w &&& 0xFFFFF0FF = 3 ↔ ∃ n, w = textWord 3 n := and_mask_eq_iff w 3
  rw [← hseal, ← hopen]
  simp [spellsCommand, or_assoc]

/-- With the reserved fields 0, OP alone chooses among the commands, and CONFIG asks for NLEN 0 (R84). -/
theorem decodeCommand_of_reserved_zero {w : Word} (hres1 : fieldRes1 w = 0) (hres0 : fieldRes0 w = 0) :
    decodeCommand w =
      if fieldOp w = 0x1 then (if fieldNlen w = 0 then .config else .bad w)
      else if fieldOp w = 0x2 then .seal (fieldNlen w)
      else if fieldOp w = 0x3 then .openCmd (fieldNlen w)
      else .bad w :=
  if_neg fun h => h.elim (· hres1) (· hres0)

theorem decodeCommand_config : decodeCommand 1 = .config := by decide

theorem decodeCommand_seal (n : BitVec 4) : decodeCommand (textWord 2 n) = .seal n := by
  obtain ⟨hres1, hres0, hop, hnlen⟩ := (eq_textWord_iff (textWord 2 n) 2 n).mp rfl
  rw [decodeCommand_of_reserved_zero hres1 hres0, hop, hnlen]
  rfl

theorem decodeCommand_open (n : BitVec 4) : decodeCommand (textWord 3 n) = .openCmd n := by
  obtain ⟨hres1, hres0, hop, hnlen⟩ := (eq_textWord_iff (textWord 3 n) 3 n).mp rfl
  rw [decodeCommand_of_reserved_zero hres1 hres0, hop, hnlen]
  rfl

/-- Every word that spells no command is BAD (R84). -/
theorem decodeCommand_bad {w : Word} (h : spellsCommand w = false) : decodeCommand w = .bad w := by
  by_cases hreserved : fieldRes1 w ≠ 0 ∨ fieldRes0 w ≠ 0
  · exact if_pos hreserved
  · obtain ⟨hres1, hres0⟩ : fieldRes1 w = 0 ∧ fieldRes0 w = 0 := by simpa using hreserved
    have hword (op n : BitVec 4) (hop : fieldOp w = op) (hnlen : fieldNlen w = n) :
        w = textWord (op.setWidth 32) n := (eq_textWord_iff w op n).mpr ⟨hres1, hres0, hop, hnlen⟩
    have hnot := (spellsCommand_iff w).not.mp (Bool.eq_false_iff.mp h)
    rw [decodeCommand_of_reserved_zero hres1 hres0]
    split
    · exact if_neg fun hnlen => hnot (.inl (hword 1 0 ‹_› hnlen))
    · rw [if_neg fun hop => hnot (.inr (.inl ⟨_, hword 2 _ hop rfl⟩)),
        if_neg fun hop => hnot (.inr (.inr ⟨_, hword 3 _ hop rfl⟩))]

/-! ### The decoder and the encoder -/

/-- The row a command word stands for is well formed, and its code is the word. -/
theorem code_decodeCommand (w : Word) :
    (commandInstr (decodeCommand w)).wellFormed = true ∧ encode (commandInstr (decodeCommand w)) = .cmd w := by
  cases h : spellsCommand w with
  | false =>
    rw [decodeCommand_bad h]
    exact ⟨by simp [commandInstr, Instr.wellFormed, h], rfl⟩
  | true =>
    obtain rfl | ⟨n, rfl⟩ | ⟨n, rfl⟩ := (spellsCommand_iff w).mp h
    · decide
    · rw [decodeCommand_seal]
      exact ⟨rfl, rfl⟩
    · rw [decodeCommand_open]
      exact ⟨rfl, rfl⟩

/-- On command words the decoder inverts the encoder (R84). -/
theorem decodeCommand_eq_iff (w : Word) (c : Command) :
    decodeCommand w = c ↔ (commandInstr c).wellFormed = true ∧ encode (commandInstr c) = .cmd w := by
  constructor
  · rintro rfl
    exact code_decodeCommand w
  · rintro ⟨hwf, hcode⟩
    match c, hcode with
    | .config, rfl => exact decodeCommand_config
    | .seal n, rfl => exact decodeCommand_seal n
    | .openCmd n, rfl => exact decodeCommand_open n
    | .bad _, rfl => exact decodeCommand_bad (by simpa [commandInstr, Instr.wellFormed] using hwf)

/-- A command whose row is well formed is decoded from the word of its code and from no other. -/
theorem decodeCommand_eq_iff_of_code {c : Command} {v : Word} (hwf : (commandInstr c).wellFormed = true)
    (hcode : encode (commandInstr c) = .cmd v) (w : Word) : decodeCommand w = c ↔ w = v := by
  rw [decodeCommand_eq_iff, hcode, Code.cmd.injEq, eq_comm (a := v)]
  exact and_iff_right hwf

theorem decodeCommand_eq_bad_iff (w : Word) : decodeCommand w = .bad w ↔ spellsCommand w = false := by
  rw [decodeCommand_eq_iff]
  simp [commandInstr, Instr.wellFormed, encode]

/-- Settles O3: CONFIG, SEAL and OPEN are decoded from the words of their codes; BAD's words are those that
`spellsCommand_iff` leaves. -/
theorem commandWordsAreExactlyThese : Obligations.CommandWordsAreExactlyThese := by
  intro w
  have hbad : decodeCommand w = .bad w ↔ w ≠ 1 ∧ ∀ n, w ≠ textWord 2 n ∧ w ≠ textWord 3 n := by
    rw [decodeCommand_eq_bad_iff, Bool.eq_false_iff, ne_eq, spellsCommand_iff]
    push Not
    rw [forall_and]
  exact ⟨decodeCommand_eq_iff_of_code rfl rfl w, fun _ => decodeCommand_eq_iff_of_code rfl rfl w,
    fun _ => decodeCommand_eq_iff_of_code rfl rfl w, hbad⟩

theorem phaseCode_of_phaseOfCode {c : BitVec 4} {p : Phase} (h : phaseOfCode c = some p) : phaseCode p = c := by
  simpa using List.find?_some h

/-- A code that no phase has is a reserved one (R86). -/
theorem decodePhase_of_no_phase :
    ∀ {c : BitVec 4}, phaseOfCode c = none → decodePhase c = .error (.reservedPhase c) := by
  decide

/-- The micro-op of a phase has the phase's code (R86). -/
theorem code_of_microOp {p : Phase} {i : Instr} (h : microOp p = some i) :
    i.wellFormed = true ∧ encode i = .phase (phaseCode p) := by
  cases p with
  | idle => cases h
  | _ =>
    cases h
    exact ⟨rfl, rfl⟩

theorem code_of_decodePhase {c : BitVec 4} {i : Instr} (h : decodePhase c = .ok i) :
    i.wellFormed = true ∧ encode i = .phase c := by
  cases hphase : phaseOfCode c with
  | none =>
    rw [decodePhase_of_no_phase hphase] at h
    cases h
  | some p =>
    obtain rfl := phaseCode_of_phaseOfCode hphase
    exact code_of_microOp ((decode_phaseCode_eq_ok_iff p i).mp h)

theorem code_of_decode {c : Code} {i : Instr} (h : decode c = .ok i) : i.wellFormed = true ∧ encode i = c := by
  cases c with
  | cmd w =>
    obtain rfl : decodeWord w = i := Except.ok.inj h
    exact code_decodeCommand w
  | phase c => exact code_of_decodePhase h

/-- `decodeCommand_eq_iff` as a fact about codes. -/
theorem decode_cmd_of_code {c : Command} {w : Word} (hwf : (commandInstr c).wellFormed = true)
    (hcode : encode (commandInstr c) = .cmd w) : decode (.cmd w) = .ok (commandInstr c) := by
  rw [decode, decodeWord, (decodeCommand_eq_iff w c).mpr ⟨hwf, hcode⟩]

theorem decode_encode : ∀ {i : Instr}, i.wellFormed = true → decode (encode i) = .ok i
  | .config, h => decode_cmd_of_code (c := .config) h rfl
  | .seal n, h => decode_cmd_of_code (c := .seal n) h rfl
  | .openCmd n, h => decode_cmd_of_code (c := .openCmd n) h rfl
  | .bad w, h => decode_cmd_of_code (c := .bad w) h rfl
  | .check, _ | .macB0, _ | .macAd, _ | .ctrS0, _ | .textCtr, _ | .textMac, _ | .tag, _ | .scrub, _ | .finish, _ => rfl

/-- Settles O1: what a code decodes to has that code, and a well-formed instruction is what its code decodes to. -/
theorem decoderInvertsEncoder : Obligations.DecoderInvertsEncoder := by
  intro c i
  constructor
  · exact code_of_decode
  · rintro ⟨hwf, rfl⟩
    exact decode_encode hwf

/-! ### The rows of the opcode table -/

/-- Bits that the table reads as the code of a well-formed instruction stand for that instruction. -/
theorem decodeTableWord_of_code {nbits w : Nat} {i : Instr} (hwf : i.wellFormed = true)
    (h : tableCode nbits w = some (encode i)) : decodeTableWord nbits w = some i := by
  simp [decodeTableWord, h, decode_encode hwf, Except.toOption]

/-- Settles O2: each sample that decodes is its row's code; IDLE's code and a reserved one are no micro-op's. -/
theorem sampleWordsDecode : Obligations.SampleWordsDecode := by
  refine ⟨?_, ?_, ?_, ?_, ?_, ?_, ?_, ?_, ?idle, ?reserved⟩
  case idle | reserved => rfl
  all_goals exact decodeTableWord_of_code (by decide) (by decide)

end Sys2Proof

/-! The words of STATUS and ACTIVE as numbers, and the write that clears DONE and OVR (R25, R33, R87). -/

namespace Sys2Proof.Machine

/-- The fields of STATUS lie one below the other, with no gap between them (R87). -/
theorem toNat_statusWord (s : State) :
    (statusWord s).toNat
      = 256 * (errCode s.err).toNat + 16 * (phaseCode s.phase).toNat + 8 * s.active.valid.toNat
          + 4 * s.ovr.toNat + 2 * s.done.toNat + s.busy.toNat := by
  have herr := toNat_field (errCode s.err) (k := 8) (by omega)
  have hphase := toNat_or_field (phaseCode s.phase) (k := 4) (by omega) herr
  have hvalid := toNat_or_field (BitVec.ofBool s.active.valid) (k := 3) (by omega) hphase
  have hovr := toNat_or_field (BitVec.ofBool s.ovr) (k := 2) (by omega) hvalid
  have hdone := toNat_or_field (BitVec.ofBool s.done) (k := 1) (by omega) hovr
  have hbusy := toNat_or_field (BitVec.ofBool s.busy) (k := 0) (by omega) hdone
  simp only [BitVec.toNat_ofBool] at hbusy
  exact hbusy.trans (by ring)

theorem activeWord_of_not_valid {c : Active} (h : c.valid = false) : activeWord c = 0 := by
  simp [activeWord, h]

/-- While a configuration is valid, ACTIVE shows L, T and N (R33). -/
theorem toNat_activeWord {c : Active} (h : c.valid = true) :
    (activeWord c).toNat = 65536 * (15 - c.n.toNat) + 256 * c.t.toNat + c.n.toNat := by
  have hl : (BitVec.ofNat 32 (15 - c.n.toNat) <<< 16).toNat = 2 ^ 16 * (15 - c.n.toNat) := by
    rw [BitVec.toNat_shiftLeft, BitVec.toNat_ofNat, Nat.shiftLeft_eq]
    omega
  have ht := toNat_or_field (n := 8 * (15 - c.n.toNat)) c.t (k := 8) (by omega) (hl.trans (by ring))
  have hn := toNat_or_lowField (n := 16 * (2 ^ 5 * (8 * (15 - c.n.toNat)) + c.t.toNat)) c.n (by omega)
    (ht.trans (by ring))
  rw [activeWord, if_pos h, hn]
  ring

/-- Settles O9: the two words as numbers, and STATUS written as `acknowledge` says. -/
theorem statusAndActiveWords : Obligations.StatusAndActiveWords := by
  intro s
  refine ⟨toNat_statusWord s, ?_, fun ts v hturns => step_of_listed_regWrite (r := .status) nofun hturns⟩
  show (activeWord s.active).toNat = _
  split
  · exact toNat_activeWord ‹_›
  · rw [activeWord_of_not_valid (Bool.eq_false_iff.mpr ‹_›)]
    rfl

end Sys2Proof.Machine

/-! The formats of CCM byte by byte: B0, the counter blocks and the encoded length of the associated data
(R88 to R93; log 16). -/

namespace Sys2Proof.Machine

/-! ### B0 and the counter blocks -/

theorem bytesNat_bigEndian_of_lt {L v : Nat} (h : v < 256 ^ L) : bytesNat (bigEndian L v) = v := by
  rw [bytesNat_bigEndian, Nat.mod_eq_of_lt h]

/-- A flag byte, the nonce and a value in the bytes that remain fill a block (R89, R91). -/
theorem blockBytes_format (flags : Byte) {nonce : List Byte} (v : Nat) (hn : nonce.length ≤ 15) :
    blockBytes (blockOfBytes (flags :: nonce ++ bigEndian (15 - nonce.length) v))
      = flags :: nonce ++ bigEndian (15 - nonce.length) v := by
  apply blockBytes_blockOfBytes
  simp only [List.length_append, List.length_cons, bigEndian_length]
  omega

/-- Each part of such a block is read back at its place. -/
theorem format_layout (flags : Byte) {nonce : List Byte} {v : Nat} (hn : nonce.length ≤ 15)
    (hv : v < 2 ^ (8 * (15 - nonce.length))) {x : Block}
    (hx : x = blockOfBytes (flags :: nonce ++ bigEndian (15 - nonce.length) v)) :
    byteOf x 0 = flags ∧ (blockBytes x).extract 1 (nonce.length + 1) = nonce
      ∧ bytesNat ((blockBytes x).drop (nonce.length + 1)) = v := by
  have hdrop : (flags :: nonce ++ bigEndian (15 - nonce.length) v).drop (nonce.length + 1)
      = bigEndian (15 - nonce.length) v := List.drop_left
  subst hx
  refine ⟨byteOf_blockOfBytes _ (by omega), ?_, ?_⟩
  · rw [blockBytes_format flags v hn]
    simp
  · rw [blockBytes_format flags v hn, hdrop]
    exact bytesNat_bigEndian_of_lt (by rwa [Nat.pow_mul] at hv)

theorem toNat_flagsA {L : Nat} (h : L ≤ 15) : (flagsA L).toNat = L - 1 := by
  rw [flagsA, BitVec.toNat_ofNat]
  omega

theorem toNat_flagsB0 (hasAD : Bool) {t L : Nat} (ht : t ≤ 17) (hL : L ≤ 8) :
    (flagsB0 hasAD t L).toNat = 64 * hasAD.toNat + 8 * ((t - 2) / 2) + (L - 1) := by
  have := hasAD.toNat_le
  rw [flagsB0, BitVec.toNat_ofNat]
  omega

/-- The fields of B0's flag byte: bit 7 zero, Adata, `(t-2)/2` and `L-1` (R88). -/
theorem flagsB0_fields (hasAD : Bool) {t L : Nat} (ht : t ≤ 17) (hL : L ≤ 8) :
    (flagsB0 hasAD t L).getLsbD 7 = false ∧ (flagsB0 hasAD t L).getLsbD 6 = hasAD
      ∧ ((flagsB0 hasAD t L).extractLsb' 3 3).toNat = (t - 2) / 2
      ∧ ((flagsB0 hasAD t L).extractLsb' 0 3).toNat = L - 1 := by
  simp only [BitVec.getLsbD, BitVec.extractLsb'_toNat, toNat_flagsB0 hasAD ht hL, Nat.testBit_eq_decide_div_mod_eq,
    Nat.shiftRight_eq_div_pow, decide_eq_false_iff_not]
  refine ⟨?_, ?_, ?_, ?_⟩
  · have := hasAD.toNat_le
    omega
  · cases hasAD with
    | false =>
      simp only [Bool.toNat_false, decide_eq_false_iff_not]
      omega
    | true =>
      simp only [Bool.toNat_true, decide_eq_true_iff]
      omega
  · omega
  · omega

/-- Settles O41: both formats are laid out as `format_layout` says, B0 with the flag byte of `flagsB0_fields`. -/
theorem blockLayouts : Obligations.BlockLayouts := by
  rintro nonce L hn7 hn13 rfl
  refine ⟨fun hasAD t m ht hm => ?_, fun i hi => ?_⟩
  · have ht17 : t ≤ 17 := by
      simp only [List.mem_cons, List.not_mem_nil, or_false] at ht
      omega
    obtain ⟨hflags, hnonce, hlen⟩ := format_layout (flagsB0 hasAD t (15 - nonce.length)) (by omega) hm rfl
    obtain ⟨hbit7, hadata, hM, hL⟩ := flagsB0_fields hasAD ht17 (show 15 - nonce.length ≤ 8 by omega)
    rw [fmtB0, hflags]
    exact ⟨hbit7, hadata, hM, hL, hnonce, hlen⟩
  · obtain ⟨hflags, hnonce, hctr⟩ := format_layout (flagsA (15 - nonce.length)) (by omega) hi rfl
    rw [ctrBlock, hflags]
    exact ⟨toNat_flagsA (by omega), hnonce, hctr⟩

/-! ### The encoded length of the associated data -/

theorem adPrefix_of_short {a : Nat} (hpos : 0 < a) (h : a < 65280) : adPrefix a = bigEndian 2 a := by
  rw [adPrefix, if_neg (by omega), if_pos (by omega)]

theorem adPrefix_of_medium {a : Nat} (hlo : 65280 ≤ a) (hhi : a < 2 ^ 32) :
    adPrefix a = 0xFF :: 0xFE :: bigEndian 4 a := by
  rw [adPrefix, if_neg (by omega), if_neg (by omega), if_pos hhi]

theorem adPrefix_of_long {a : Nat} (h : 2 ^ 32 ≤ a) : adPrefix a = 0xFF :: 0xFF :: bigEndian 8 a := by
  rw [adPrefix, if_neg (by omega), if_neg (by omega), if_neg (by omega)]

/-- The last of `ceil16 n` blocks is not all padding (R12). -/
theorem ceil16_sub_one_mul_lt {n : Nat} (h : 0 < n) : 16 * (ceil16 n - 1) < n := by
  unfold ceil16
  omega

theorem adBlockCount_of_pos {a : Nat} (h : 0 < a) : adBlockCount a = ceil16 ((adPrefix a).length + a) :=
  if_neg (by omega)

/-- Settles O42: the encoded length of each class by its equation, and `ceil16` blocks hold it and the data. -/
theorem adPrefixClasses : Obligations.AdPrefixClasses := by
  intro a hpos h64
  refine ⟨fun h => ?_, fun hlo hhi => ?_, fun h => ?_, ?_, ?_⟩
  · rw [adPrefix_of_short hpos h]
    exact ⟨bigEndian_length 2 a, bytesNat_bigEndian_of_lt (by omega)⟩
  · rw [adPrefix_of_medium hlo hhi]
    exact ⟨by simp, rfl, bytesNat_bigEndian_of_lt (by omega)⟩
  · rw [adPrefix_of_long h]
    exact ⟨by simp, rfl, bytesNat_bigEndian_of_lt (by omega)⟩
  · rw [adBlockCount_of_pos hpos]
    exact ceil16_sub_one_mul_lt (by omega)
  · rw [adBlockCount_of_pos hpos]
    exact ceil16_mul_ge _

end Sys2Proof.Machine

/-! CHECK of CONFIG: its validation in R121's order, the configuration set or discarded (R120 to R123). -/

namespace Sys2Proof.Machine

open Sys2Proof.Config (Platform)

/-- A cipher is refused unless both halves of R112 hold: 16-byte blocks and an accepted key. -/
theorem cipherOk_eq_false_iff (cfg : Platform) :
    cipherOk cfg = false ↔ ¬(cfg.cipher.blockBytes = 16 ∧ cfg.cipher.keyOk = true) := by
  rw [← Bool.not_eq_true, cipherOk, Bool.and_eq_true, beq_iff_eq]

theorem exec_check_of_config {s : State} (h : commandOf s = .config) :
    exec .check s = .next (checkConfig Config.platform s) := by
  simp [exec, execCheck, checkOn, h]

/-- Settles O21: the outcome named is `configOutcome`'s, and `checkConfig` stores it with the configuration. -/
theorem checkOfConfig : Obligations.CheckOfConfig := by
  intro s e hcommand he
  have houtcome : e = configOutcome Config.platform s := by
    simp only [he, configOutcome, cipherOk_eq_false_iff]
    rfl
  rw [exec_check_of_config hcommand, houtcome]
  rfl

end Sys2Proof.Machine

/-! The micro-ops of the CBC_MAC_core: MAC_B0, MAC_AD and TEXT_MAC (R131, R132, R136, R137). -/

namespace Sys2Proof.Machine

open Sys2Proof.Config (Platform)
open Sys2Proof.Safety

/-! ### MAC_B0 and TEXT_MAC -/

theorem exec_macB0 (s : State) : exec .macB0 s = .next (macB0On Config.platform s) := rfl

theorem exec_textMac (s : State) : exec .textMac s = .next (textMacOn Config.platform s) := rfl

theorem macB0On_of_ad (cfg : Platform) {s : State} (h : 0 < adLen s) :
    macB0On cfg s =
      { s with
        dp := { s.dp with y := enc cfg (blockB0 s), nAD := adBlockCount (adLen s), j := 0 }
        phase := .macAd } := if_pos h

theorem macB0On_of_no_ad (cfg : Platform) {s : State} (h : ¬0 < adLen s) :
    macB0On cfg s = { s with dp := { s.dp with y := enc cfg (blockB0 s), nAD := 0 }, phase := .ctrS0 } := if_neg h

theorem textMacOn_of_last (cfg : Platform) {s : State} (h : s.dp.i = s.dp.nTxt) :
    textMacOn cfg s = { s with dp := { s.dp with y := enc cfg (s.dp.y ^^^ s.dp.p), p := 0 }, phase := .tag } :=
  if_pos h

theorem textMacOn_of_more (cfg : Platform) {s : State} (h : s.dp.i ≠ s.dp.nTxt) :
    textMacOn cfg s =
      { s with
        dp := { s.dp with y := enc cfg (s.dp.y ^^^ s.dp.p), p := 0, i := s.dp.i + 1 }
        phase := .textCtr } := if_neg h

/-- Settles O26, by whether there is associated data. -/
theorem macB0Step : Obligations.MacB0Step := by
  intro s
  rw [exec_macB0]
  by_cases h : 0 < adLen s
  · rw [macB0On_of_ad _ h, adBlockCount_of_pos h]
    simp only [if_pos h]
    rfl
  · rw [macB0On_of_no_ad _ h]
    simp only [if_neg h]
    rfl

/-- Settles O28, by whether the block absorbed is the last one. -/
theorem textMacStep : Obligations.TextMacStep := by
  intro s
  rw [exec_textMac]
  by_cases h : s.dp.i = s.dp.nTxt
  · rw [textMacOn_of_last _ h]
    simp only [if_pos h]
    rfl
  · rw [textMacOn_of_more _ h]
    simp only [if_neg h]
    rfl

/-! ### The stream of associated-data blocks -/

theorem adSource_of_prefix {s : State} {k : Nat} (h : k < (adPrefix (adLen s)).length) :
    adSource s k = .const ((adPrefix (adLen s)).getD k 0) := if_pos h

theorem adSource_of_padding {s : State} {k : Nat} (h : (adPrefix (adLen s)).length + adLen s ≤ k) :
    adSource s k = .const 0 := by
  rw [adSource, if_neg (by omega), if_neg (by omega)]

/-- A byte of the stream is refused only where it is one of the associated data (R132, R213). -/
theorem sourceAdmitted_adSource_iff (cfg : Platform) (s : State) (k : Nat) :
    sourceAdmitted cfg (adSource s k) = true ↔
      k < (adPrefix (adLen s)).length ∨ (adPrefix (adLen s)).length + adLen s ≤ k
        ∨ admitted cfg (adAddr s + (k - (adPrefix (adLen s)).length)) .read = true := by
  by_cases hprefix : k < (adPrefix (adLen s)).length
  · simp [adSource_of_prefix hprefix, sourceAdmitted, hprefix]
  · by_cases hpadding : (adPrefix (adLen s)).length + adLen s ≤ k
    · simp [adSource_of_padding hpadding, sourceAdmitted, hpadding]
    · rw [adSource_of_data (by omega) (by omega)]
      simp [sourceAdmitted, hprefix, hpadding]

theorem forall_mem_adBlockSources {s : State} {P : ByteSource → Prop} :
    (∀ x ∈ adBlockSources s, P x) ↔ ∀ m < 16, P (adSource s (16 * s.dp.j + m)) := by
  simp [adBlockSources]

@[simp] theorem adBlockSources_length (s : State) : (adBlockSources s).length = 16 := by simp [adBlockSources]

theorem adBlockSources_getElem? (s : State) {m : Nat} (h : m < 16) :
    (adBlockSources s)[m]? = some (adSource s (16 * s.dp.j + m)) := by
  simp [adBlockSources, h]

/-- MAC_AD where every access happens, with the block read and the draws after it (R136). -/
theorem macAdOn_of_read {cfg : Platform} {s : State} {x : List Byte} {d : Nat}
    (h : readSources cfg s (adBlockSources s) = some (x, d)) :
    macAdOn cfg s =
      { s with
        dp := { s.dp with y := enc cfg (s.dp.y ^^^ blockOfBytes x), j := s.dp.j + 1 }
        phase := if s.dp.j + 1 = s.dp.nAD then .ctrS0 else .macAd
        draws := d } := by
  simp [macAdOn, h]

/-! ### A block of associated data that may have raced -/

/-- Byte `k` of the associated data as the block `x` that MAC_AD read saw it; the memory's byte where `k` is none of
that block. -/
def adByteSeen (s : State) (x : List Byte) (k : Nat) : Byte :=
  if 16 * s.dp.j ≤ (adPrefix (adLen s)).length + k ∧ (adPrefix (adLen s)).length + k < 16 * s.dp.j + 16 then
    x.getD ((adPrefix (adLen s)).length + k - 16 * s.dp.j) 0
  else readByte s.mem (adAddr s + k)

section

variable {s : State} {x : List Byte} (hx : List.Forall₂ (MayAnswer s) (adBlockSources s) x)

include hx

theorem mayAnswer_adBlock {m : Nat} (hm : m < 16) : MayAnswer s (adSource s (16 * s.dp.j + m)) (x.getD m 0) :=
  mayAnswer_getD hx (adBlockSources_getElem? s hm)

/-- Each byte of the associated data is seen as R73 allows. -/
theorem adByteSeen_mayRead {k : Nat} (hk : k < adLen s) : MayRead s (adAddr s + k) (adByteSeen s x k) := by
  unfold adByteSeen
  split
  next hblock =>
    have hanswer := mayAnswer_adBlock hx
      (show (adPrefix (adLen s)).length + k - 16 * s.dp.j < 16 by omega)
    rw [show 16 * s.dp.j + ((adPrefix (adLen s)).length + k - 16 * s.dp.j) = (adPrefix (adLen s)).length + k by omega,
      adSource_of_data (by omega) (by omega), Nat.add_sub_cancel_left] at hanswer
    exact hanswer
  next => exact .inl rfl

/-- The block read, byte by byte: the encoded length, the associated data as seen, padding (R132). -/
theorem adBlock_eq :
    x = (List.range 16).map fun m =>
      if 16 * s.dp.j + m < (adPrefix (adLen s)).length then (adPrefix (adLen s)).getD (16 * s.dp.j + m) 0
      else if 16 * s.dp.j + m < (adPrefix (adLen s)).length + adLen s then
        adByteSeen s x (16 * s.dp.j + m - (adPrefix (adLen s)).length)
      else 0 := by
  have hlen : x.length = 16 := hx.length_eq.symm.trans (adBlockSources_length s)
  apply List.ext_getElem (by simp [hlen])
  intro m hm _
  have hm16 : m < 16 := hlen ▸ hm
  have hanswer := mayAnswer_adBlock hx hm16
  rw [← List.getD_eq_getElem x 0 hm, List.getElem_map, List.getElem_range]
  by_cases hprefix : 16 * s.dp.j + m < (adPrefix (adLen s)).length
  · rw [if_pos hprefix]
    rwa [adSource_of_prefix hprefix] at hanswer
  · rw [if_neg hprefix]
    by_cases hdata : 16 * s.dp.j + m < (adPrefix (adLen s)).length + adLen s
    · rw [if_pos hdata, adByteSeen, if_pos (by omega)]
      congr 1
      omega
    · rw [if_neg hdata]
      rwa [adSource_of_padding (by omega)] at hanswer

end

/-- A block of the stream over associated data that nothing raced draws nothing. -/
theorem drawSources_adBlock_quiet (cfg : Platform) {s : State} (h : Quiet s (adAddr s) (adLen s)) (d : Nat) :
    drawSources cfg s d (adBlockSources s) = ((adBlockSources s).map (sourceByte s.mem), d) := by
  refine drawSources_quiet cfg s d fun a ha => ?_
  obtain ⟨m, -, hm⟩ := List.mem_map.mp ha
  unfold adSource at hm
  split at hm
  · cases hm
  · split at hm
    · cases hm
      exact olderBytes_of_quiet h (by omega)
    · cases hm

/-- Settles O27: the block is read source by source, or one of its sources is refused. -/
theorem macAdStep : Obligations.MacAdStep := by
  rintro s pl rfl hpos
  refine ⟨_, exec_macAd s, ?_⟩
  have hall : (∀ m < 16, 16 * s.dp.j + m < (adPrefix (adLen s)).length
        ∨ (adPrefix (adLen s)).length + adLen s ≤ 16 * s.dp.j + m
        ∨ admitted Config.platform (adAddr s + (16 * s.dp.j + m - (adPrefix (adLen s)).length)) .read = true) ↔
      ∀ x ∈ adBlockSources s, sourceAdmitted Config.platform x = true := by
    simp only [forall_mem_adBlockSources, sourceAdmitted_adSource_iff]
  split
  next hadmitted =>
    obtain ⟨x, d, hr⟩ : ∃ x d, drawSources Config.platform s s.draws (adBlockSources s) = (x, d) := ⟨_, _, rfl⟩
    have hread : readSources Config.platform s (adBlockSources s) = some (x, d) :=
      (readSources_eq_some_iff ..).mpr ⟨hall.mp hadmitted, hr.symm⟩
    have hanswer : List.Forall₂ (MayAnswer s) (adBlockSources s) x := by
      simpa [hr] using drawSources_mayAnswer Config.platform s s.draws (adBlockSources s)
    have hdraws : s.draws ≤ d := by simpa [hr] using drawSources_le Config.platform s s.draws (adBlockSources s)
    refine ⟨adByteSeen s x, d, hdraws, fun k => adByteSeen_mayRead hanswer, fun hquiet => ⟨?_, fun k hk => ?_⟩, ?_⟩
    · rw [drawSources_adBlock_quiet _ hquiet] at hr
      exact (Prod.mk.inj hr).2.symm
    · exact mayRead_of_quiet hquiet hk (adByteSeen_mayRead hanswer hk)
    · rw [macAdOn_of_read hread, ← adBlock_eq hanswer]
      rfl
  next hrefused =>
    have hnone : readSources Config.platform s (adBlockSources s) = none := by
      rw [readSources_eq_none_iff]
      simpa [hall] using hrefused
    rw [macAdOn_of_refused hnone]
    rfl

end Sys2Proof.Machine

/-! The MAC's chain value and the counter manager's registers stay apart (R140). -/

namespace Sys2Proof.Machine

open Sys2Proof.Config (Platform)
open Sys2Proof.Safety

/-! ### A state with another datapath -/

/-- The state with other values in the datapath registers. -/
def withDp (dp : Datapath) (s : State) : State := { s with dp := dp }

/-- The state with another chain value. -/
def withY (y : Block) (s : State) : State := withDp { s.dp with y := y } s

/-- The state with another counter block and tag mask. -/
def withCounter (a s0 : Block) (s : State) : State := withDp { s.dp with a := a, s0 := s0 } s

theorem storeBytes_withDp (dp : Datapath) (s : State) (a : Nat) (bs : List Byte) :
    storeBytes (withDp dp s) a bs = withDp dp (storeBytes s a bs) := by
  induction bs generalizing s a with
  | nil => rfl
  | cons b bs ih => exact ih (storeByte s a b) (a + 1)

theorem drawSources_withDp (cfg : Platform) (dp : Datapath) (s : State) (d : Nat) (xs : List ByteSource) :
    drawSources cfg (withDp dp s) d xs = drawSources cfg s d xs := by
  induction xs generalizing d with
  | nil => rfl
  | cons x xs ih =>
    cases x with
    | const b => simp only [drawSources, ih]
    | mem a => simp only [drawSources, ih]; rfl

/-- A read depends on no datapath register but through its addresses. -/
theorem readSources_withDp (cfg : Platform) (dp : Datapath) (s : State) (xs : List ByteSource) :
    readSources cfg (withDp dp s) xs = readSources cfg s xs := by
  simp only [readSources, drawSources_withDp]
  rfl

/-! ### The CTR micro-ops do not read the chain value -/

section

variable (cfg : Platform) (y : Block) (s : State)

theorem ctrS0On_withY : ctrS0On cfg (withY y s) = withY y (ctrS0On cfg s) := by
  unfold ctrS0On
  rw [show (withY y s).dp.nTxt = s.dp.nTxt from rfl]
  split <;> rfl

theorem memRead_withY (a n : Nat) : memRead cfg (withY y s) a n = memRead cfg s a n :=
  readSources_withDp cfg _ s _

@[simp] theorem inAddr_withY : inAddr (withY y s) = inAddr s := rfl

@[simp] theorem outAddr_withY : outAddr (withY y s) = outAddr s := rfl

@[simp] theorem textBase_withY : textBase (withY y s) = textBase s := rfl

@[simp] theorem textCount_withY : textCount (withY y s) = textCount s := rfl

@[simp] theorem textOutput_withY (data : List Byte) : textOutput cfg (withY y s) data = textOutput cfg s data := rfl

theorem textCtrOn_withY : textCtrOn cfg (withY y s) = withY y (textCtrOn cfg s) := by
  unfold textCtrOn
  rw [inAddr_withY, outAddr_withY, textBase_withY, textCount_withY, memRead_withY]
  cases memRead cfg s (inAddr s + textBase s) (textCount s) with
  | none => rfl
  | some read =>
    simp only [textOutput_withY]
    rw [withY, storeBytes_withDp]
    split <;> rfl

theorem ctrS0On_y : (ctrS0On cfg s).dp.y = s.dp.y := by
  unfold ctrS0On
  split <;> rfl

theorem textCtrOn_y : (textCtrOn cfg s).dp.y = s.dp.y := by
  unfold textCtrOn
  split
  · rfl
  · dsimp only
    split <;> rfl

end

/-! ### The MAC micro-ops do not read the counter block and the tag mask -/

section

variable (cfg : Platform) (a s0 : Block) (s : State)

theorem macB0On_withCounter : macB0On cfg (withCounter a s0 s) = withCounter a s0 (macB0On cfg s) := by
  unfold macB0On
  rw [show adLen (withCounter a s0 s) = adLen s from rfl]
  split <;> rfl

theorem macAdOn_withCounter : macAdOn cfg (withCounter a s0 s) = withCounter a s0 (macAdOn cfg s) := by
  have hread : readSources cfg (withCounter a s0 s) (adBlockSources (withCounter a s0 s))
      = readSources cfg s (adBlockSources s) := readSources_withDp cfg _ s _
  unfold macAdOn
  rw [hread]
  cases readSources cfg s (adBlockSources s) <;> rfl

theorem textMacOn_withCounter : textMacOn cfg (withCounter a s0 s) = withCounter a s0 (textMacOn cfg s) := by
  unfold textMacOn
  rw [show (withCounter a s0 s).dp.i = s.dp.i from rfl, show (withCounter a s0 s).dp.nTxt = s.dp.nTxt from rfl]
  split <;> rfl

theorem macB0On_counter : (macB0On cfg s).dp.a = s.dp.a ∧ (macB0On cfg s).dp.s0 = s.dp.s0 := by
  unfold macB0On
  split <;> exact ⟨rfl, rfl⟩

theorem macAdOn_counter : (macAdOn cfg s).dp.a = s.dp.a ∧ (macAdOn cfg s).dp.s0 = s.dp.s0 := by
  unfold macAdOn
  split <;> exact ⟨rfl, rfl⟩

theorem textMacOn_counter : (textMacOn cfg s).dp.a = s.dp.a ∧ (textMacOn cfg s).dp.s0 = s.dp.s0 := by
  unfold textMacOn
  split <;> exact ⟨rfl, rfl⟩

end

/-! ### Who writes the chain value -/

theorem tagSeal_y (cfg : Platform) (s : State) : (tagSeal cfg s).dp.y = s.dp.y := by
  unfold tagSeal
  dsimp only
  split <;> rfl

theorem tagOpen_y (cfg : Platform) (s : State) : (tagOpen cfg s).dp.y = s.dp.y := by
  unfold tagOpen
  split
  · rfl
  · dsimp only
    split <;> rfl

theorem exec_check_y {s t : State} (h : exec .check s = .next t) : t.dp.y = s.dp.y := by
  obtain ⟨-, rfl⟩ | ⟨-, ⟨e, rfl⟩ | ⟨mc, rfl⟩⟩ := exec_check_cases h <;> rfl

theorem exec_tag_y {s t : State} (h : exec .tag s = .next t) : t.dp.y = s.dp.y := by
  obtain rfl | rfl := exec_tag_cases h
  · exact tagSeal_y _ s
  · exact tagOpen_y _ s

/-- A micro-op before FINISH that is none of the MAC's leaves the chain value alone. -/
theorem exec_microOp_y {p : Phase} {i : Instr} (hi : microOp p = some i)
    (hp : p ∉ [Phase.macB0, .macAd, .textMac, .finish]) {s t : State} (h : exec i s = .next t) :
    t.dp.y = s.dp.y := by
  cases p <;> simp only [microOp, Option.some.injEq, reduceCtorEq] at hi <;> subst hi
  case macB0 | macAd | textMac | finish => exact absurd (by simp) hp
  case check => exact exec_check_y h
  case tag => exact exec_tag_y h
  all_goals cases h
  case ctrS0 => exact ctrS0On_y _ s
  case textCtr => exact textCtrOn_y _ s
  case scrub => rfl

/-- A step that changes the chain value is the engine's in a phase of the MAC or in FINISH, or a reset. -/
theorem step_writes_y {s t : State} (h : step s = .next t) (hne : t.dp.y ≠ s.dp.y) :
    EngineIsNext s ∧ s.busy = true ∧ s.phase ∈ [Phase.macB0, .macAd, .textMac, .finish] ∨ ResetIsNext s := by
  cases stepCase_of_step h with
  | microOp i next busy isOp ne_finish run =>
    refine .inl ⟨next, busy, ?_⟩
    by_contra hp
    have hkeeps := exec_microOp_y isOp hp run
    exact hne hkeeps
  | finish next busy phase eq => exact .inl ⟨next, busy, by simp [phase]⟩
  | noStep _ _ eq => exact absurd (by rw [eq]; rfl) hne
  | command w ts turns eq => exact absurd (by simp [eq]) hne
  | access a ts turns not_cmd settled =>
    obtain ⟨v, -, rfl⟩ | ⟨-, regs, mem, past, draws, resp, rfl, -⟩ := hostTurn_settled_cases settled <;>
      exact absurd rfl hne
  | reset ts turns eq => exact .inr ⟨ts, turns⟩

/-- Settles O39: the writers of `Y`, then each CTR micro-op with another `Y` and each MAC micro-op with another `A` and
`S0`. -/
theorem macAndCtrKeepApart : Obligations.MacAndCtrKeepApart := by
  refine ⟨fun s t => step_writes_y, fun i hi s t y h => ?_, fun i hi s t a s0 h => ?_⟩
  · simp only [List.mem_cons, List.not_mem_nil, or_false] at hi
    obtain rfl | rfl := hi <;> cases h
    · exact ⟨ctrS0On_y _ s, congrArg Host.Outcome.next (ctrS0On_withY _ y s)⟩
    · exact ⟨textCtrOn_y _ s, congrArg Host.Outcome.next (textCtrOn_withY _ y s)⟩
  · simp only [List.mem_cons, List.not_mem_nil, or_false] at hi
    rw [← and_assoc]
    obtain rfl | rfl | rfl := hi <;> cases h
    · exact ⟨macB0On_counter _ s, congrArg Host.Outcome.next (macB0On_withCounter _ a s0 s)⟩
    · exact ⟨macAdOn_counter _ s, congrArg Host.Outcome.next (macAdOn_withCounter _ a s0 s)⟩
    · exact ⟨textMacOn_counter _ s, congrArg Host.Outcome.next (textMacOn_withCounter _ a s0 s)⟩

end Sys2Proof.Machine

/-! What a command has computed so far, carried one block on: the memory, the MAC's chain, the text blocks and the
tag (R130, R139, R151, R156, R170). -/

namespace Sys2Proof.Machine

open Sys2Proof.Config (Platform)
open Sys2Proof.Safety

/-! ### The memory of a command in flight -/

section

variable {m m0 : Memory} {s : State} {a b n k p : Nat} {out bs : List Byte}

theorem memHolds_zero_iff : MemHolds m m0 a 0 out ↔ ∀ x, readByte m x = readByte m0 x := by
  have hempty : ∀ x, ¬(a ≤ x ∧ x < a + 0) := fun _ => by omega
  simp only [MemHolds, hempty, if_false]

theorem memKeeps_of_memHolds (h : MemHolds m m0 a n out) : MemKeeps m m0 a n := fun x hx => (h x).trans (if_neg hx)

theorem memZero_zero : MemZero m a 0 := fun _ hlo hhi => absurd hhi (Nat.not_lt.mpr hlo)

/-- Bytes beyond the first `n` do not matter to what the first `n` are. -/
theorem memHolds_append (h : MemHolds m m0 a n out) (hn : n ≤ out.length) (more : List Byte) :
    MemHolds m m0 a n (out ++ more) := by
  intro x
  rw [h x]
  split
  next hx =>
    simp only [List.getD]
    rw [List.getElem?_append_left (by omega)]
  next => rfl

/-- A region apart from the bytes that changed holds what it held. -/
theorem readRegion_of_memKeeps (h : MemKeeps m m0 a n)
    (hapart : ∀ x, b ≤ x → x < b + k → ¬(a ≤ x ∧ x < a + n)) : readRegion m b k = readRegion m0 b k :=
  readRegion_congr fun q hq => h _ (hapart _ (by omega) (by omega))

/-- Storing the next bytes of the output. -/
theorem memHolds_storeBytes (hwf : Memory.wf s.mem) (h : MemHolds s.mem m0 a n out) (hbs : bs <+: out.drop n) :
    MemHolds (storeBytes s (a + n) bs).mem m0 a (n + bs.length) out := by
  obtain ⟨rest, hrest⟩ := hbs
  intro x
  rw [readByte_storeBytes hwf, h x]
  by_cases hnew : a + n ≤ x ∧ x < a + n + bs.length
  · rw [if_pos hnew, if_pos (by omega)]
    have hget : out.getD (n + (x - (a + n))) 0 = bs.getD (x - (a + n)) 0 := by
      simp only [List.getD]
      rw [← List.getElem?_drop, ← hrest, List.getElem?_append_left (by omega)]
    rw [← hget]
    congr 1
    omega
  · rw [if_neg hnew]
    by_cases hold : a ≤ x ∧ x < a + n
    · rw [if_pos hold, if_pos (by omega)]
    · rw [if_neg hold, if_neg (by omega)]

theorem memKeeps_storeBytes (h : MemKeeps s.mem m0 a n) (hn : n ≤ k) (hp : p + bs.length ≤ k) :
    MemKeeps (storeBytes s (a + p) bs).mem m0 a k := by
  intro x hx
  rw [readByte_storeBytes_outside s (a + p) bs (by omega)]
  exact h x (by omega)

theorem memZero_storeBytes (hwf : Memory.wf s.mem) (h : MemZero s.mem a p) (n : Nat) :
    MemZero (storeBytes s (a + p) (List.replicate n 0)).mem a (p + n) := by
  intro x hlo hhi
  rw [readByte_storeBytes hwf, List.length_replicate]
  split
  next hnew => rw [List.getD_eq_getElem _ _ (by rw [List.length_replicate]; omega), List.getElem_replicate]
  next hold => exact h x hlo (by omega)

end

/-- A run of stores as an update of the two fields it changes, which leaves the others in sight. -/
theorem storeBytes_eq_update (s : State) (a : Nat) (bs : List Byte) :
    storeBytes s a bs = { s with mem := (storeBytes s a bs).mem, past := (storeBytes s a bs).past } := by
  induction bs generalizing s a with
  | nil => rfl
  | cons b bs ih =>
    rw [storeBytes_cons, ih]
    rfl

/-! ### The sequences of a command -/

section

variable (cfg : Platform) (m0 : Memory) (s : State)

@[simp] theorem adOf_length : (adOf m0 s).length = adLen s := readRegion_length ..

@[simp] theorem textIn_length : (textIn m0 s).length = payloadLen s := readRegion_length ..

@[simp] theorem textOut_length : (textOut cfg m0 s).length = payloadLen s :=
  (ctrXor_length ..).trans (textIn_length m0 s)

theorem plainOf_of_seal {n : BitVec 4} (h : commandOf s = .seal n) : plainOf cfg m0 s = textIn m0 s := by
  simp [plainOf, h]

theorem plainOf_of_open {n : BitVec 4} (h : commandOf s = .openCmd n) : plainOf cfg m0 s = textOut cfg m0 s := by
  simp [plainOf, h]

@[simp] theorem plainOf_length : (plainOf cfg m0 s).length = payloadLen s := by
  unfold plainOf
  split <;> simp

/-! ### The MAC's chain -/

theorem macChain_append (y : Block) (xs ys : List Block) :
    macChain cfg y (xs ++ ys) = macChain cfg (macChain cfg y xs) ys := List.foldl_append

theorem macChain_take_succ (y : Block) {xs : List Block} {k : Nat} (h : k < xs.length) :
    macChain cfg y (xs.take (k + 1)) = enc cfg (macChain cfg y (xs.take k) ^^^ xs[k]) := by
  rw [List.take_succ_eq_append_getElem h, macChain_append]
  rfl

/-- The chain starts at B0 of the command (R131). -/
theorem chainAfter_zero : chainAfter cfg m0 s 0 0 = enc cfg (blockB0 s) := by
  simp [chainAfter, macChain, macStart, blockB0]

theorem chainAfter_ad_succ {j : Nat} (h : j < (adStreamBlocks (adOf m0 s)).length) :
    chainAfter cfg m0 s (j + 1) 0 = enc cfg (chainAfter cfg m0 s j 0 ^^^ (adStreamBlocks (adOf m0 s))[j]) := by
  simp only [chainAfter, List.take_zero, List.append_nil, macChain_take_succ cfg _ h]

theorem chainAfter_text_succ (j : Nat) {i : Nat} (h : i < (blocksOf (plainOf cfg m0 s)).length) :
    chainAfter cfg m0 s j (i + 1)
      = enc cfg (chainAfter cfg m0 s j i ^^^ (blocksOf (plainOf cfg m0 s)).getD i 0) := by
  simp only [chainAfter, macChain_append, macChain_take_succ cfg _ h, List.getD_eq_getElem _ _ h]

/-- After all blocks the chain value is the message's (R130). -/
theorem chainAfter_all :
    chainAfter cfg m0 s (adBlockCount (adLen s)) (ceil16 (payloadLen s))
      = macY cfg (tagLen s) (nonceOf s) (adOf m0 s) (plainOf cfg m0 s) := by
  rw [chainAfter, macY, List.take_of_length_le (by simp [adStreamBlocks_length]), List.take_of_length_le (by simp)]

/-! ### The associated-data blocks -/

theorem byteOf_adStreamBlocks {ad : List Byte} {j m : Nat} (h : j < (adStreamBlocks ad).length) (hm : m < 16) :
    byteOf (adStreamBlocks ad)[j] m = (adPrefix ad.length ++ ad).getD (16 * j + m) 0 := by
  have hne : ad.length ≠ 0 := by
    intro h0
    simp [adStreamBlocks, h0] at h
  have hblocks : adStreamBlocks ad = blocksOf (adPrefix ad.length ++ ad) := if_neg hne
  simp only [hblocks] at h ⊢
  exact byteOf_blocksOf _ j h hm

/-- Byte `k` of the associated-data stream where nothing raced: encoded length, associated data, padding (R132). -/
theorem sourceByte_adSource (k : Nat) :
    sourceByte m0 (adSource s k) = (adPrefix (adLen s) ++ adOf m0 s).getD k 0 := by
  by_cases hprefix : k < (adPrefix (adLen s)).length
  · rw [adSource_of_prefix hprefix]
    simp only [sourceByte, List.getD]
    rw [List.getElem?_append_left hprefix]
  · by_cases hdata : k < (adPrefix (adLen s)).length + adLen s
    · rw [adSource_of_data (by omega) hdata, List.getD_eq_getElem _ _ (by simpa using hdata),
        List.getElem_append_right (by omega)]
      exact (readRegion_getElem ..).symm
    · rw [adSource_of_padding (by omega), List.getD_eq_default _ _ (by simpa using hdata)]
      rfl

/-- The block that MAC_AD reads where nothing raced is the stream's block `j` (R136). -/
theorem blockOfBytes_adBlockSources (h : s.dp.j < (adStreamBlocks (adOf m0 s)).length) :
    blockOfBytes ((adBlockSources s).map (sourceByte m0)) = (adStreamBlocks (adOf m0 s))[s.dp.j] := by
  apply block_ext
  intro k hk
  rw [byteOf_blockOfBytes _ hk, byteOf_adStreamBlocks h hk, adOf_length, ← sourceByte_adSource,
    List.getD_eq_getElem?_getD, List.getElem?_map, adBlockSources_getElem? s hk]
  rfl

/-! ### The text blocks -/

/-- The real bytes of text block `i` are those of the text-in region that fall into it (R154). -/
theorem readRegion_textBlock (h : textBase s < payloadLen s) :
    readRegion m0 (inAddr s + textBase s) (textCount s)
      = ((textIn m0 s).drop (16 * (s.dp.i - 1))).take 16 := by
  have hfit : textBase s + textCount s ≤ payloadLen s := by unfold textCount; omega
  have hcount : textCount s = min 16 ((textIn m0 s).drop (textBase s)).length := by simp [textCount]
  rw [← readRegion_block m0 (inAddr s) (payloadLen s) _ _ hfit]
  change ((textIn m0 s).drop (textBase s)).take (textCount s) = ((textIn m0 s).drop (textBase s)).take 16
  rw [hcount, ← List.take_eq_take_min]

theorem xorBytes_take_right {x y : List Byte} {n : Nat} (h : x.length ≤ n) :
    xorBytes x (y.take n) = xorBytes x y := by
  apply List.ext_getElem
  · simp only [xorBytes_length, List.length_take]
    omega
  · intro k hk _
    simp only [xorBytes_getElem, List.getElem_take]

variable {cfg m0 s}

/-- What TEXT_CTR computes for text block `i` is that block of the CTR pass (R151, R154). -/
theorem textOutput_eq_block {data : List Byte} (hi : 1 ≤ s.dp.i) (hctr : CounterAt cfg s s.dp.i)
    (hdata : data = ((textIn m0 s).drop (16 * (s.dp.i - 1))).take 16) :
    textOutput cfg s data = ((textOut cfg m0 s).drop (16 * (s.dp.i - 1))).take 16 := by
  obtain ⟨ha, -⟩ := hctr
  have hlen : data.length ≤ textCount s := by
    simp [hdata, textCount, textBase]
  have hblock : ctrXorBlock cfg (nonceOf s) (textIn m0 s) (s.dp.i - 1)
      = xorBytes data (blockBytes (enc cfg s.dp.a)) := by
    rw [ctrXorBlock, ← hdata, Nat.sub_add_cancel hi, ← ha]
  rw [textOut, ctrXor_block, hblock]
  exact xorBytes_take_right hlen

/-- The plaintext block that TEXT_CTR keeps is that of the message, of SEAL and of OPEN (R154, R156). -/
theorem textPlain_eq_block {data : List Byte} (hacc : TextAccepted s) (hi : s.dp.i - 1 < ceil16 (payloadLen s))
    (hdata : data = ((textIn m0 s).drop (16 * (s.dp.i - 1))).take 16)
    (hout : textOutput cfg s data = ((textOut cfg m0 s).drop (16 * (s.dp.i - 1))).take 16) :
    textPlain cfg s data = (blocksOf (plainOf cfg m0 s)).getD (s.dp.i - 1) 0 := by
  rw [List.getD_eq_getElem _ _ (by simpa using hi), blocksOf_getElem]
  obtain hc | hc := commandOf_of_textAccepted hacc
  · simp only [textPlain, hc, plainOf_of_seal cfg m0 s hc, hdata]
  · simp only [textPlain, hc, plainOf_of_open cfg m0 s hc, hout]

/-! ### The tag -/

theorem maskedTag_eq_messageTag {c : Nat} (hctr : CounterAt cfg s c)
    (hy : s.dp.y = macY cfg (tagLen s) (nonceOf s) (adOf m0 s) (plainOf cfg m0 s)) :
    maskedTag s = messageTag cfg (tagLen s) (nonceOf s) (adOf m0 s) (plainOf cfg m0 s) := by
  obtain ⟨-, hs0⟩ := hctr
  rw [maskedTag, hy, hs0]
  rfl

theorem maskedTag_length (h : tagLen s ≤ 16) : (maskedTag s).length = tagLen s := by
  simp [maskedTag, h]

/-- A configured tag is no longer than a block (R8, R43). -/
theorem tagLen_le_of_registerInv (hreg : RegisterInv s) (hacc : TextAccepted s) : tagLen s ≤ 16 := by
  obtain ⟨-, hlegal, -⟩ := hreg
  obtain ⟨hvalid, -⟩ := hacc
  rw [ConfigIsLegal, if_pos hvalid] at hlegal
  obtain ⟨-, -, ht⟩ := hlegal
  have hle : ∀ t ∈ legalTagLens, t ≤ 16 := by decide
  exact hle _ ht

/-! ### Reads that the command's own output cannot race -/

/-- No address of a region is among the output bytes written so far. -/
def ApartFromOutput (s : State) (a n : Nat) : Prop :=
  ∀ x, a ≤ x → x < a + n → ¬(outAddr s ≤ x ∧ x < outAddr s + s.dp.written)

/-- A read apart from the output sees the memory the command started with. -/
theorem eq_of_memRead {a n : Nat} {r : List Byte × Nat} (hmem : MemKeeps s.mem m0 (outAddr s) s.dp.written)
    (hpast : PastIsOutput s) (hapart : ApartFromOutput s a n) (h : memRead cfg s a n = some r) :
    r.1 = readRegion m0 a n := by
  have hquiet : Quiet s a n := fun c hc hrange => hapart c.1 hrange.1 hrange.2 (hpast c hc)
  rw [memRead_quiet cfg s hquiet] at h
  split at h
  · cases h
    exact readRegion_of_memKeeps hmem hapart
  · cases h

/-- The text block that is due has not been written over, in place or not (R69, R182). -/
theorem textBlock_apart (hacc : TextAccepted s) (hw : s.dp.written = textBase s) (hb : textBase s < payloadLen s) :
    ApartFromOutput s (inAddr s + textBase s) (textCount s) := by
  have hsize := payloadLen_le_outSize hacc
  obtain ⟨-, -, -, -, hoverlap⟩ := hacc
  intro x hlo hhi hout
  by_cases hplace : s.latch.outAddr = s.latch.inAddr
  · have hsame : outAddr s = inAddr s := congrArg BitVec.toNat hplace
    omega
  · rw [← Bool.not_eq_true, overlapUndefined_iff] at hoverlap
    have hcount : textCount s ≤ payloadLen s - textBase s := by unfold textCount; omega
    exact hoverlap ⟨x, by omega, by omega, .inr (.inl ⟨hplace, by omega, by omega⟩)⟩

/-- The received tag lies apart from the plaintext written (R69). -/
theorem tagIn_apart {l : BitVec 4} (hacc : TextAccepted s) (hc : commandOf s = .openCmd l)
    (hw : s.dp.written = payloadLen s) : ApartFromOutput s (inAddr s + payloadLen s) (tagLen s) := by
  obtain ⟨-, -, -, -, hoverlap⟩ := hacc
  rw [← Bool.not_eq_true, overlapUndefined_iff, outSize_of_open hc, tagInSize_of_open hc] at hoverlap
  intro x hlo hhi hout
  exact hoverlap ⟨x, by omega, by omega, .inr (.inr ⟨hlo, hhi⟩)⟩

end

end Sys2Proof.Machine

/-! Every micro-op keeps the command's progress (R139, R156, R170, R171, R180, R182). -/

namespace Sys2Proof.Machine

open Sys2Proof.Config (Platform)
open Sys2Proof.Safety

/-- What OPEN answers for the command in flight, from the memory it started with (R171). -/
def openResult (cfg : Platform) (m0 : Memory) (s : State) : Except ErrCode (List Byte) :=
  openOutput cfg (tagLen s) (nonceOf s) (adOf m0 s) (textIn m0 s) (tagIn m0 s)

section

variable {cfg : Platform} {m0 : Memory} {s : State}

/-! ### Progress after a failure, and at FINISH -/

theorem progressInv_scrub (h : s.phase = .scrub) (hkeeps : MemKeeps s.mem m0 (outAddr s) s.dp.written)
    (hzero : MemZero s.mem (outAddr s) s.dp.scrubPos)
    (hauth : s.dp.pendErr = .authenticationFailed → openResult cfg m0 s = .error .authenticationFailed) :
    ProgressInv cfg m0 s := by
  unfold ProgressInv
  rw [h]
  exact ⟨hkeeps, hzero, hauth⟩

theorem progressInv_finish_of_failure (h : s.phase = .finish) (herr : s.dp.pendErr ≠ .ok)
    (hkeeps : MemKeeps s.mem m0 (outAddr s) s.dp.written) (hzero : MemZero s.mem (outAddr s) s.dp.written)
    (hauth : s.dp.pendErr = .authenticationFailed → openResult cfg m0 s = .error .authenticationFailed) :
    ProgressInv cfg m0 s := by
  unfold ProgressInv
  rw [h]
  exact ⟨fun _ => ⟨hkeeps, hzero, hauth⟩, fun hok => absurd hok herr⟩

theorem progressInv_finish_of_ok (h : s.phase = .finish) (hok : s.dp.pendErr = .ok)
    (hmem : MemHolds s.mem m0 (outAddr s) s.dp.written (wholeOutput cfg m0 s))
    (hopen : ∀ n, commandOf s = .openCmd n → openResult cfg m0 s = .ok (textOut cfg m0 s)) :
    ProgressInv cfg m0 s := by
  unfold ProgressInv
  rw [h]
  exact ⟨fun hne => absurd hok hne, fun _ => ⟨hmem, hopen⟩⟩

/-- A command that failed and has scrubbed nothing yet, whether it goes to SCRUB or to FINISH (R179, R213). -/
theorem progressInv_of_failure (hphase : s.phase = afterFailure s) (hscrub : s.dp.scrubPos = 0)
    (herr : s.dp.pendErr ≠ .ok) (hkeeps : MemKeeps s.mem m0 (outAddr s) s.dp.written)
    (hauth : s.dp.pendErr = .authenticationFailed → openResult cfg m0 s = .error .authenticationFailed) :
    ProgressInv cfg m0 s := by
  unfold afterFailure at hphase
  split at hphase
  next => exact progressInv_scrub hphase hkeeps (hscrub ▸ memZero_zero) hauth
  next hw =>
    have hw0 : s.dp.written = 0 := Nat.eq_zero_of_not_pos hw
    exact progressInv_finish_of_failure hphase herr hkeeps (hw0 ▸ memZero_zero) hauth

theorem raiseBusError_progress (hkeeps : MemKeeps s.mem m0 (outAddr s) s.dp.written) :
    ProgressInv cfg m0 (raiseBusError s) :=
  progressInv_of_failure rfl rfl (by simp) hkeeps (by simp)

/-! ### CHECK -/

/-- No validation of SEAL or OPEN fails with OK or AuthenticationFailed (R174). -/
theorem ne_of_validateText_error {isOpen : Bool} {nlen : BitVec 4} {e : ErrCode}
    (h : validateText isOpen nlen s = .error e) : e ≠ .ok ∧ e ≠ .authenticationFailed := by
  unfold validateText at h
  repeat' split at h
  all_goals cases h
  all_goals exact ⟨by simp, by simp⟩

theorem configOutcome_ne_authenticationFailed : configOutcome cfg s ≠ .authenticationFailed := by
  unfold configOutcome
  repeat' split
  all_goals simp

/-- A command that fails before it has written anything has left the memory as it was (R175). -/
theorem progressInv_finish_of_unwritten (h : s.phase = .finish) (hw : s.dp.written = 0)
    (hmem : MemHolds s.mem m0 (outAddr s) 0 [])
    (he : s.dp.pendErr ≠ .ok ∧ s.dp.pendErr ≠ .authenticationFailed) : ProgressInv cfg m0 s :=
  progressInv_finish_of_failure h he.1 (hw ▸ memKeeps_of_memHolds hmem) (hw ▸ memZero_zero)
    fun hauth => absurd hauth he.2

theorem failCheck_progress {e : ErrCode} (hw : s.dp.written = 0) (hmem : MemHolds s.mem m0 (outAddr s) 0 [])
    (he : e ≠ .ok ∧ e ≠ .authenticationFailed) : ProgressInv cfg m0 (failCheck e s) :=
  progressInv_finish_of_unwritten rfl hw hmem he

theorem checkConfig_progress (hc : commandOf s = .config) (hw : s.dp.written = 0)
    (hmem : MemHolds s.mem m0 (outAddr s) 0 []) : ProgressInv cfg m0 (checkConfig cfg s) := by
  have hw' : (checkConfig cfg s).dp.written = 0 := hw
  by_cases hok : configOutcome cfg s = .ok
  · refine progressInv_finish_of_ok rfl hok ?_ fun n hopen => ?_
    · rw [hw']
      exact memHolds_zero_iff.mpr (memHolds_zero_iff.mp hmem)
    · cases hc.symm.trans hopen
  · exact progressInv_finish_of_unwritten rfl hw' hmem ⟨hok, configOutcome_ne_authenticationFailed⟩

theorem checkText_progress {t : State} {isOpen : Bool} {nlen : BitVec 4} (hw : s.dp.written = 0)
    (hmem : MemHolds s.mem m0 (outAddr s) 0 []) (hpast : s.past = [])
    (h : checkText isOpen nlen s = .next t) : ProgressInv cfg m0 t := by
  unfold checkText at h
  split at h
  next e he =>
    cases h
    exact failCheck_progress hw hmem (ne_of_validateText_error he)
  next mc _ =>
    split at h
    · cases h
    · cases h
      exact ⟨hmem, hpast⟩

theorem checkOn_progress {t : State} (hw : s.dp.written = 0) (hmem : MemHolds s.mem m0 (outAddr s) 0 [])
    (hpast : s.past = []) (h : checkOn cfg s = .next t) : ProgressInv cfg m0 t := by
  unfold checkOn at h
  split at h
  next hc =>
    cases h
    exact checkConfig_progress hc hw hmem
  next => exact checkText_progress hw hmem hpast h
  next => exact checkText_progress hw hmem hpast h
  next =>
    cases h
    exact failCheck_progress hw hmem ⟨by simp, by simp⟩

/-! ### The MAC micro-ops -/

theorem macB0On_progress (hmem : MemHolds s.mem m0 (outAddr s) 0 []) (hpast : s.past = []) :
    ProgressInv cfg m0 (macB0On cfg s) := by
  by_cases had : 0 < adLen s
  · rw [macB0On_of_ad cfg had]
    exact ⟨hmem, hpast, (chainAfter_zero cfg m0 s).symm⟩
  · have hcount : adBlockCount (adLen s) = 0 := if_pos (Nat.eq_zero_of_not_pos had)
    have hchain : enc cfg (blockB0 s) = chainAfter cfg m0 s (adBlockCount (adLen s)) 0 := by
      rw [hcount, chainAfter_zero]
    rw [macB0On_of_no_ad cfg had]
    exact ⟨hmem, hpast, hchain⟩

theorem macAdOn_progress (hw : s.dp.written = 0) (hnAD : s.dp.nAD = adBlockCount (adLen s))
    (hj : s.dp.j < s.dp.nAD) (hmem : MemHolds s.mem m0 (outAddr s) 0 []) (hpast : s.past = [])
    (hy : s.dp.y = chainAfter cfg m0 s s.dp.j 0) : ProgressInv cfg m0 (macAdOn cfg s) := by
  cases hread : readSources cfg s (adBlockSources s) with
  | none =>
    rw [macAdOn_of_refused hread]
    exact raiseBusError_progress (hw ▸ memKeeps_of_memHolds hmem)
  | some r =>
    obtain ⟨x, d⟩ := r
    have hblock : s.dp.j < (adStreamBlocks (adOf m0 s)).length := by
      rwa [adStreamBlocks_length, adOf_length, ← hnAD]
    have hx : blockOfBytes x = (adStreamBlocks (adOf m0 s))[s.dp.j] := by
      obtain ⟨-, hr⟩ := (readSources_eq_some_iff ..).mp hread
      rw [drawSources_adBlock_quiet cfg (by simp [Quiet, hpast])] at hr
      have hbytes : sourceByte s.mem = sourceByte m0 := by
        funext source
        cases source with
        | const b => rfl
        | mem a => exact memHolds_zero_iff.mp hmem a
      rw [← blockOfBytes_adBlockSources m0 s hblock, (Prod.mk.inj hr).1, hbytes]
    have hy' : enc cfg (s.dp.y ^^^ blockOfBytes x) = chainAfter cfg m0 s (s.dp.j + 1) 0 := by
      rw [chainAfter_ad_succ cfg m0 s hblock, hx, hy]
    rw [macAdOn_of_read hread]
    by_cases hlast : s.dp.j + 1 = s.dp.nAD
    · rw [hlast, hnAD] at hy'
      simp only [if_pos hlast]
      exact ⟨hmem, hpast, hy'⟩
    · simp only [if_neg hlast]
      exact ⟨hmem, hpast, hy'⟩

theorem textMacOn_progress (hacc : TextAccepted s) (hi1 : 1 ≤ s.dp.i) (hi : s.dp.i ≤ s.dp.nTxt)
    (hmem : MemHolds s.mem m0 (outAddr s) s.dp.written (textOut cfg m0 s)) (hpast : PastIsOutput s)
    (hy : s.dp.y = chainAfter cfg m0 s (adBlockCount (adLen s)) (s.dp.i - 1))
    (hp : s.dp.p = (blocksOf (plainOf cfg m0 s)).getD (s.dp.i - 1) 0) : ProgressInv cfg m0 (textMacOn cfg s) := by
  obtain ⟨-, -, -, hnTxt, -⟩ := hacc
  have hy' : enc cfg (s.dp.y ^^^ s.dp.p) = chainAfter cfg m0 s (adBlockCount (adLen s)) s.dp.i := by
    have hblock : s.dp.i - 1 < (blocksOf (plainOf cfg m0 s)).length := by
      rw [blocksOf_length, plainOf_length, ← hnTxt]
      omega
    rw [hy, hp, ← chainAfter_text_succ cfg m0 s _ hblock, Nat.sub_add_cancel hi1]
  by_cases hlast : s.dp.i = s.dp.nTxt
  · rw [hlast, hnTxt, chainAfter_all] at hy'
    rw [textMacOn_of_last cfg hlast]
    exact ⟨hmem, hpast, hy'⟩
  · rw [textMacOn_of_more cfg hlast]
    exact ⟨hmem, hpast, hy'⟩

/-! ### The CTR micro-ops -/

theorem ctrS0On_progress (hw : s.dp.written = 0) (hnTxt : s.dp.nTxt = ceil16 (payloadLen s))
    (hmem : MemHolds s.mem m0 (outAddr s) 0 []) (hpast : s.past = [])
    (hy : s.dp.y = chainAfter cfg m0 s (adBlockCount (adLen s)) 0) : ProgressInv cfg m0 (ctrS0On cfg s) := by
  have hmem' : MemHolds s.mem m0 (outAddr s) s.dp.written (textOut cfg m0 s) := by
    rw [hw]
    exact memHolds_zero_iff.mpr (memHolds_zero_iff.mp hmem)
  have hpast' : PastIsOutput s := by simp [PastIsOutput, hpast]
  unfold ctrS0On
  split
  next => exact ⟨hmem', hpast', hy⟩
  next hnone =>
    have hempty : 0 = ceil16 (payloadLen s) := by omega
    rw [hempty, chainAfter_all] at hy
    exact ⟨hmem', hpast', hy⟩

/-- The older bytes that the next stores of the output add are the output's. -/
theorem mem_past_of_storeBytes {bs : List Byte} (hpast : PastIsOutput s) {c : Host.Cell}
    (h : c ∈ (storeBytes s (outAddr s + s.dp.written) bs).past) :
    outAddr s ≤ c.1 ∧ c.1 < outAddr s + (s.dp.written + bs.length) := by
  obtain hold | hnew := mem_storeBytes_past h
  · have := hpast c hold
    omega
  · omega

theorem textCtrOn_progress (hwf : Memory.wf s.mem) (hacc : TextAccepted s) (hi1 : 1 ≤ s.dp.i)
    (hi : s.dp.i ≤ s.dp.nTxt) (hctr : CounterAt cfg s s.dp.i) (hw : s.dp.written = textBase s)
    (hmem : MemHolds s.mem m0 (outAddr s) s.dp.written (textOut cfg m0 s)) (hpast : PastIsOutput s)
    (hy : s.dp.y = chainAfter cfg m0 s (adBlockCount (adLen s)) (s.dp.i - 1)) :
    ProgressInv cfg m0 (textCtrOn cfg s) := by
  have hblocks : s.dp.i ≤ ceil16 (payloadLen s) := by
    obtain ⟨-, -, -, hnTxt, -⟩ := hacc
    omega
  have hbase : textBase s < payloadLen s := by
    unfold ceil16 at hblocks
    unfold textBase
    omega
  have hkeeps := memKeeps_of_memHolds hmem
  cases hread : memRead cfg s (inAddr s + textBase s) (textCount s) with
  | none =>
    rw [textCtrOn_of_refused hread]
    exact raiseBusError_progress hkeeps
  | some r =>
    obtain ⟨data, d⟩ := r
    have hdata : data = ((textIn m0 s).drop (16 * (s.dp.i - 1))).take 16 :=
      (eq_of_memRead hkeeps hpast (textBlock_apart hacc hw hbase) hread).trans (readRegion_textBlock m0 s hbase)
    have hout := textOutput_eq_block hi1 hctr hdata
    have hlen : (textOutput cfg s data).length = textCount s := by
      simp [hout, textCount, textBase]
    simp only [textCtrOn, hread]
    generalize admittedCount cfg .write (outAddr s + textBase s) (textCount s) = k
    split
    next hall =>
      have hprefix : textOutput cfg s data <+: (textOut cfg m0 s).drop s.dp.written := by
        rw [hout, hw]
        exact List.take_prefix ..
      rw [hall, ← hlen, List.take_length, hlen, ← hw, storeBytes_eq_update]
      refine ⟨?_, fun c hc => ?_, hy, textPlain_eq_block hacc (by omega) hdata hout⟩
      · have hstored := memHolds_storeBytes hwf hmem hprefix
        rw [hlen] at hstored
        exact hstored
      · have hrange := mem_past_of_storeBytes hpast hc
        rw [hlen] at hrange
        exact hrange
    next =>
      have hstored : MemKeeps (storeBytes s (outAddr s + textBase s) ((textOutput cfg s data).take k)).mem m0
          (outAddr s) (textBase s + k) := memKeeps_storeBytes hkeeps (by omega) (by simp)
      rw [storeBytes_eq_update]
      exact raiseBusError_progress hstored

/-! ### TAG and SCRUB -/

theorem tagSeal_progress (hwf : Memory.wf s.mem) {l : BitVec 4} (hc : commandOf s = .seal l) (hT : tagLen s ≤ 16)
    {c : Nat} (hctr : CounterAt cfg s c) (hw : s.dp.written = payloadLen s)
    (hmem : MemHolds s.mem m0 (outAddr s) s.dp.written (textOut cfg m0 s))
    (hy : s.dp.y = macY cfg (tagLen s) (nonceOf s) (adOf m0 s) (plainOf cfg m0 s)) :
    ProgressInv cfg m0 (tagSeal cfg s) := by
  have htag := maskedTag_eq_messageTag hctr hy
  rw [plainOf_of_seal cfg m0 s hc] at htag
  have hlen := maskedTag_length hT
  rw [hw] at hmem
  simp only [tagSeal]
  generalize admittedCount cfg .write (outAddr s + payloadLen s) (tagLen s) = k
  split
  next hall =>
    have hwhole : wholeOutput cfg m0 s = textOut cfg m0 s ++ maskedTag s := by
      simp only [wholeOutput, hc, sealOutput, htag]
      rfl
    have hprefix : maskedTag s <+: (wholeOutput cfg m0 s).drop (payloadLen s) := by
      rw [hwhole, List.drop_left' (textOut_length cfg m0 s)]
    have hmem' : MemHolds s.mem m0 (outAddr s) (payloadLen s) (wholeOutput cfg m0 s) := by
      rw [hwhole]
      exact memHolds_append hmem (textOut_length cfg m0 s).ge _
    have hstored := memHolds_storeBytes hwf hmem' hprefix
    rw [hlen] at hstored
    rw [hall, ← hlen, List.take_length, hlen, storeBytes_eq_update]
    refine progressInv_finish_of_ok rfl rfl hstored fun n hopen => ?_
    cases hc.symm.trans hopen
  next =>
    have hstored : MemKeeps (storeBytes s (outAddr s + payloadLen s) ((maskedTag s).take k)).mem m0
        (outAddr s) (payloadLen s + k) := memKeeps_storeBytes (memKeeps_of_memHolds hmem) (by omega) (by simp)
    rw [storeBytes_eq_update]
    exact raiseBusError_progress hstored

theorem tagOpen_progress {l : BitVec 4} (hacc : TextAccepted s) (hc : commandOf s = .openCmd l) {c : Nat}
    (hctr : CounterAt cfg s c) (hw : s.dp.written = payloadLen s)
    (hmem : MemHolds s.mem m0 (outAddr s) s.dp.written (textOut cfg m0 s)) (hpast : PastIsOutput s)
    (hy : s.dp.y = macY cfg (tagLen s) (nonceOf s) (adOf m0 s) (plainOf cfg m0 s)) :
    ProgressInv cfg m0 (tagOpen cfg s) := by
  have hkeeps := memKeeps_of_memHolds hmem
  have htag := maskedTag_eq_messageTag hctr hy
  rw [plainOf_of_open cfg m0 s hc] at htag
  cases hread : memRead cfg s (inAddr s + payloadLen s) (tagLen s) with
  | none =>
    rw [tagOpen_of_refused hread]
    exact raiseBusError_progress hkeeps
  | some r =>
    obtain ⟨received, d⟩ := r
    have hreceived : received = tagIn m0 s := eq_of_memRead hkeeps hpast (tagIn_apart hacc hc hw) hread
    have hresult : openResult cfg m0 s =
        if tagDiff (maskedTag s) received = 0 then .ok (textOut cfg m0 s) else .error .authenticationFailed := by
      simp only [htag, hreceived, openResult, openOutput, ctEq, beq_iff_eq]
      rfl
    simp only [tagOpen, hread]
    split
    next hmatch =>
      rw [if_pos hmatch] at hresult
      have hwhole : wholeOutput cfg m0 s = textOut cfg m0 s := by simp [wholeOutput, hc]
      exact progressInv_finish_of_ok rfl rfl (hwhole ▸ hmem) fun _ _ => hresult
    next hdiffer =>
      rw [if_neg hdiffer] at hresult
      exact progressInv_of_failure rfl rfl (by simp) hkeeps fun _ => hresult

theorem tagOn_progress {t : State} (hreg : RegisterInv s) (hacc : TextAccepted s) {c : Nat}
    (hctr : CounterAt cfg s c) (hw : s.dp.written = payloadLen s)
    (hmem : MemHolds s.mem m0 (outAddr s) s.dp.written (textOut cfg m0 s)) (hpast : PastIsOutput s)
    (hy : s.dp.y = macY cfg (tagLen s) (nonceOf s) (adOf m0 s) (plainOf cfg m0 s))
    (h : tagOn cfg s = .next t) : ProgressInv cfg m0 t := by
  obtain hc | hc := commandOf_of_textAccepted hacc <;> simp only [tagOn, hc, Host.Outcome.next.injEq] at h <;> subst h
  · have hT := tagLen_le_of_registerInv hreg hacc
    obtain ⟨-, -, -, hwf⟩ := hreg
    exact tagSeal_progress hwf hc hT hctr hw hmem hy
  · exact tagOpen_progress hacc hc hctr hw hmem hpast hy

theorem scrubStep_progress (hwf : Memory.wf s.mem) (herr : s.dp.pendErr ≠ .ok)
    (hpos : s.dp.scrubPos < s.dp.written) (hkeeps : MemKeeps s.mem m0 (outAddr s) s.dp.written)
    (hzero : MemZero s.mem (outAddr s) s.dp.scrubPos)
    (hauth : s.dp.pendErr = .authenticationFailed → openResult cfg m0 s = .error .authenticationFailed) :
    ProgressInv cfg m0 (scrubStep s) := by
  have hfit : s.dp.scrubPos + scrubCount s ≤ s.dp.written := by unfold scrubCount; omega
  have hkeeps' := memKeeps_storeBytes (bs := List.replicate (scrubCount s) 0) hkeeps le_rfl (by simpa using hfit)
  have hzero' := memZero_storeBytes hwf hzero (scrubCount s)
  unfold scrubStep
  rw [storeBytes_eq_update]
  by_cases hdone : s.dp.scrubPos + scrubCount s = s.dp.written
  · simp only [if_pos hdone]
    exact progressInv_finish_of_failure rfl herr hkeeps' (hdone ▸ hzero') hauth
  · simp only [if_neg hdone]
    exact ⟨hkeeps', hzero', hauth⟩

end

/-! ### The engine's step -/

theorem deliverOutcome_progress {cfg : Platform} {m0 : Memory} {s : State} :
    ProgressInv cfg m0 (deliverOutcome s) := trivial

/-- A micro-op before FINISH keeps the progress, phase by phase. -/
theorem exec_microOp_progress {m0 : Memory} {s t : State} {i : Instr} (hreg : RegisterInv s)
    (hflight : FlightInv Config.platform s) (hprog : ProgressInv Config.platform m0 s)
    (hi : microOp s.phase = some i) (hne : s.phase ≠ .finish) (h : exec i s = .next t) :
    ProgressInv Config.platform m0 t := by
  have ⟨_, _, _, hwf⟩ := hreg
  unfold FlightInv at hflight
  unfold ProgressInv at hprog
  cases hp : s.phase <;> simp only [hp, microOp, Option.some.injEq, reduceCtorEq] at hi hflight hprog <;> subst hi
  case check =>
    obtain ⟨hmem, hpast⟩ := hprog
    exact checkOn_progress (by rw [hflight]; rfl) hmem hpast h
  case tag =>
    obtain ⟨hacc, -, hctr, hw⟩ := hflight
    obtain ⟨hmem, hpast, hy⟩ := hprog
    exact tagOn_progress hreg hacc hctr hw hmem hpast hy h
  case finish => exact absurd hp hne
  all_goals cases h
  case macB0 =>
    obtain ⟨hmem, hpast⟩ := hprog
    exact macB0On_progress hmem hpast
  case macAd =>
    obtain ⟨-, hw, -, hnAD, hj⟩ := hflight
    obtain ⟨hmem, hpast, hy⟩ := hprog
    exact macAdOn_progress hw hnAD hj hmem hpast hy
  case ctrS0 =>
    obtain ⟨⟨-, -, -, hnTxt, -⟩, hw, -⟩ := hflight
    obtain ⟨hmem, hpast, hy⟩ := hprog
    exact ctrS0On_progress hw hnTxt hmem hpast hy
  case textCtr =>
    obtain ⟨hacc, -, hi1, hi, hctr, hw⟩ := hflight
    obtain ⟨hmem, hpast, hy⟩ := hprog
    exact textCtrOn_progress hwf hacc hi1 hi hctr hw hmem hpast hy
  case textMac =>
    obtain ⟨hacc, -, hi1, hi, -⟩ := hflight
    obtain ⟨hmem, hpast, hy, hplain⟩ := hprog
    exact textMacOn_progress hacc hi1 hi hmem hpast hy hplain
  case scrub =>
    obtain ⟨-, herr, hpos, -⟩ := hflight
    obtain ⟨hkeeps, hzero, hauth⟩ := hprog
    exact scrubStep_progress hwf (by obtain he | he := herr <;> simp [he]) hpos hkeeps hzero hauth

/-- Settles O48: the engine's step is a micro-op, FINISH, which leaves nothing to keep, or no step. -/
theorem engineStepKeepsProgress : Obligations.EngineStepKeepsProgress := by
  intro m0 s t hreg hflight hprog hnext h
  cases stepCase_of_step h with
  | microOp i _ busy isOp ne_finish run =>
    exact exec_microOp_progress (s := dropTurn s) hreg hflight hprog isOp ne_finish run
  | finish _ _ _ eq => exact eq ▸ deliverOutcome_progress
  | noStep _ _ eq => exact eq ▸ hprog
  | command w ts turns _ => exact absurd hnext (not_engineIsNext_of_host turns)
  | access a ts turns _ _ => exact absurd hnext (not_engineIsNext_of_host turns)
  | reset ts turns _ => exact absurd hnext (not_engineIsNext_of_reset turns)

end Sys2Proof.Machine

/-! The counter field of a block: `inc` as arithmetic, the counter blocks it goes through, and the CTR pass that
uses them (R91, R150, R151). -/

namespace Sys2Proof.Machine

open Sys2Proof.Config (Platform)

/-! ### A block as a number -/

theorem toNat_eq_bytesNat (x : Block) : x.toNat = bytesNat (blockBytes x) := by
  conv_lhs => rw [← blockOfBytes_blockBytes x, blockOfBytes_toNat, List.take_left' (blockBytes_length x)]

/-- The last `L` bytes of a block are its value modulo 2^(8L). -/
theorem bytesNat_drop_blockBytes (x : Block) {L : Nat} (h : L ≤ 16) :
    bytesNat ((blockBytes x).drop (16 - L)) = x.toNat % 2 ^ (8 * L) := by
  have hlen : ((blockBytes x).drop (16 - L)).length = L := by
    rw [List.length_drop, blockBytes_length]
    omega
  have hlt : bytesNat ((blockBytes x).drop (16 - L)) < 256 ^ L := (bytesNat_lt _).trans_eq (by rw [hlen])
  rw [toNat_eq_bytesNat, Nat.pow_mul]
  conv_rhs => rw [← List.take_append_drop (16 - L) (blockBytes x), bytesNat_append, hlen]
  rw [Nat.mul_add_mod_self_right, Nat.mod_eq_of_lt hlt]

/-- Blocks of one value above the last `L` bytes agree in the bytes before them. -/
theorem byteOf_eq_of_div_eq {x y : Block} {L k : Nat} (h : x.toNat / 2 ^ (8 * L) = y.toNat / 2 ^ (8 * L))
    (hk : k < 16 - L) : byteOf x k = byteOf y k := by
  have hpow : 256 ^ (15 - k) = 2 ^ (8 * L) * 256 ^ (15 - k - L) := by
    rw [Nat.pow_mul, ← Nat.pow_add, Nat.add_sub_cancel' (by omega)]
  rw [byteOf_eq, byteOf_eq, hpow, ← Nat.div_div_eq_div_mul, ← Nat.div_div_eq_div_mul, h]

/-! ### The increment -/

theorem toNat_inc {L : Nat} (h : L ≤ 15) (a : Block) :
    (inc L a).toNat = a.toNat / 2 ^ (8 * L) * 2 ^ (8 * L) + (a.toNat % 2 ^ (8 * L) + 1) % 2 ^ (8 * L) := by
  have hsplit : 2 ^ 128 = 2 ^ (128 - 8 * L) * 2 ^ (8 * L) := by
    rw [← Nat.pow_add, Nat.sub_add_cancel (by omega)]
  have hhigh : a.toNat / 2 ^ (8 * L) < 2 ^ (128 - 8 * L) :=
    Nat.div_lt_of_lt_mul (by rw [Nat.mul_comm, ← hsplit]; exact a.isLt)
  have hlow : (a.toNat % 2 ^ (8 * L) + 1) % 2 ^ (8 * L) < 2 ^ (8 * L) := Nat.mod_lt _ (by positivity)
  rw [inc, BitVec.toNat_ofNat, Nat.mod_eq_of_lt]
  calc _ < a.toNat / 2 ^ (8 * L) * 2 ^ (8 * L) + 2 ^ (8 * L) := Nat.add_lt_add_left hlow _
    _ = (a.toNat / 2 ^ (8 * L) + 1) * 2 ^ (8 * L) := (Nat.succ_mul ..).symm
    _ ≤ 2 ^ (128 - 8 * L) * 2 ^ (8 * L) := Nat.mul_le_mul_right _ hhigh
    _ = 2 ^ 128 := hsplit.symm

/-- The flag byte and the nonce stay. -/
theorem toNat_inc_div {L : Nat} (h : L ≤ 15) (a : Block) :
    (inc L a).toNat / 2 ^ (8 * L) = a.toNat / 2 ^ (8 * L) := by
  have hpos : 0 < 2 ^ (8 * L) := by positivity
  rw [toNat_inc h, Nat.add_comm, Nat.add_mul_div_right _ _ hpos, Nat.div_eq_of_lt (Nat.mod_lt _ hpos), Nat.zero_add]

theorem toNat_inc_mod {L : Nat} (h : L ≤ 15) (a : Block) :
    (inc L a).toNat % 2 ^ (8 * L) = (a.toNat % 2 ^ (8 * L) + 1) % 2 ^ (8 * L) := by
  rw [toNat_inc h, Nat.mul_add_mod_self_right, Nat.mod_mod]

/-- A counter block is its flag byte and nonce, followed by the counter (R91). -/
theorem toNat_ctrBlock {nonce : List Byte} {i : Nat} (hn : nonce.length ≤ 15)
    (hi : i < 2 ^ (8 * (15 - nonce.length))) :
    (ctrBlock nonce i).toNat
      = bytesNat (flagsA (15 - nonce.length) :: nonce) * 2 ^ (8 * (15 - nonce.length)) + i := by
  rw [toNat_eq_bytesNat, ctrBlock, blockBytes_format _ _ hn, bytesNat_append, bigEndian_length, Nat.pow_mul,
    bytesNat_bigEndian_of_lt (by rwa [Nat.pow_mul] at hi)]

/-- Below the last counter value `inc` takes `A_i` to `A_(i+1)` (R150). -/
theorem inc_ctrBlock {nonce : List Byte} {i : Nat} (hn : nonce.length ≤ 15)
    (hi : i + 1 < 2 ^ (8 * (15 - nonce.length))) :
    inc (15 - nonce.length) (ctrBlock nonce i) = ctrBlock nonce (i + 1) := by
  have hlt : i < 2 ^ (8 * (15 - nonce.length)) := Nat.lt_of_succ_lt hi
  apply BitVec.eq_of_toNat_eq
  rw [toNat_inc (Nat.sub_le ..), toNat_ctrBlock hn hi, toNat_ctrBlock hn hlt, Nat.mul_add_mod_self_right,
    Nat.mod_eq_of_lt hlt, Nat.mod_eq_of_lt hi, Nat.add_comm (_ * _) i,
    Nat.add_mul_div_right _ _ (by positivity), Nat.div_eq_of_lt hlt, Nat.zero_add]

/-- Settles O40: `inc` is arithmetic on the block's value, whose last `L` bytes are its value modulo 2^(8L). -/
theorem counterIncrement : Obligations.CounterIncrement := by
  refine ⟨fun L a hL => ⟨fun k => byteOf_eq_of_div_eq (toNat_inc_div hL a), ?_⟩, fun nonce i hn => ?_⟩
  · rw [bytesNat_drop_blockBytes _ (by omega), bytesNat_drop_blockBytes _ (by omega), toNat_inc_mod hL]
  · exact inc_ctrBlock (by omega)

/-! ### The CTR pass -/

/-- Both passes use the same keystream, byte by byte (R151). -/
theorem ctrXor_ctrXor (cfg : Platform) (nonce data : List Byte) :
    ctrXor cfg nonce (ctrXor cfg nonce data) = data := by
  have hlen : (ctrXor cfg nonce (ctrXor cfg nonce data)).length = data.length := by simp only [ctrXor_length]
  apply List.ext_getElem hlen
  intro k hk hkd
  have hm : k % 16 < 16 := Nat.mod_lt _ (by omega)
  have hkey := ctrXor_getD cfg nonce (ctrXor cfg nonce data) (k / 16) (k % 16) hm
    (by rwa [Nat.div_add_mod, ctrXor_length])
  rw [ctrXor_getD cfg nonce data (k / 16) (k % 16) hm (by rwa [Nat.div_add_mod]), BitVec.xor_assoc, BitVec.xor_self,
    BitVec.xor_zero, Nat.div_add_mod] at hkey
  rwa [List.getD_eq_getElem _ _ hk, List.getD_eq_getElem _ _ hkd] at hkey

/-- Settles O44: the keystream's bytes cancel. -/
theorem ctrPassIsSelfInverse : Obligations.CtrPassIsSelfInverse := fun cfg nonce data =>
  ⟨ctrXor_ctrXor cfg nonce data, ctrXor_length cfg nonce data, ctrXor_getD cfg nonce data⟩

end Sys2Proof.Machine

/-! The micro-ops of the CTR_mode_counter_manager: CTR_S0 and TEXT_CTR (R153, R154, R213; log 7, log 11). -/

namespace Sys2Proof.Machine

open Sys2Proof.Config (Platform)
open Sys2Proof.Safety

/-! ### CTR_S0 -/

theorem exec_ctrS0 (s : State) : exec .ctrS0 s = .next (ctrS0On Config.platform s) := rfl

theorem nonceLen_le (s : State) : nonceLen s ≤ 15 := Nat.le_of_lt_succ s.active.n.isLt

theorem nonceOf_length (s : State) : (nonceOf s).length = nonceLen s := by
  rw [nonceOf, List.length_take, blockBytes_length, Nat.min_eq_left ((nonceLen_le s).trans (by omega))]

/-- The counter manager's `inc` takes the command's `A_c` to `A_(c+1)` while the counter does not wrap (R150, R157). -/
theorem inc_ctrBlock_nonceOf {s : State} {c : Nat} (h : c + 1 < 2 ^ (8 * lenField s)) :
    inc (lenField s) (ctrBlock (nonceOf s) c) = ctrBlock (nonceOf s) (c + 1) := by
  have hlen : lenField s = 15 - (nonceOf s).length := by rw [nonceOf_length, lenField]
  have hn : (nonceOf s).length ≤ 15 := nonceOf_length s ▸ nonceLen_le s
  rw [hlen] at h ⊢
  exact inc_ctrBlock hn h

/-- With a length field of one byte or more the counter has room for more than one value. -/
theorem le_two_pow_lenField {s : State} (h : nonceLen s ≤ 14) : 256 ≤ 2 ^ (8 * lenField s) :=
  calc 256 = 2 ^ 8 := by norm_num
    _ ≤ 2 ^ (8 * lenField s) := Nat.pow_le_pow_right (by omega) (by unfold lenField; omega)

theorem ctrS0On_of_text (cfg : Platform) {s : State} (h : 0 < s.dp.nTxt) :
    ctrS0On cfg s =
      { s with
        dp :=
          { s.dp with
            s0 := enc cfg (ctrBlock (nonceOf s) 0), a := inc (lenField s) (ctrBlock (nonceOf s) 0), i := 1 }
        phase := .textCtr } := if_pos h

theorem ctrS0On_of_no_text (cfg : Platform) {s : State} (h : ¬0 < s.dp.nTxt) :
    ctrS0On cfg s =
      { s with
        dp :=
          { s.dp with s0 := enc cfg (ctrBlock (nonceOf s) 0), a := inc (lenField s) (ctrBlock (nonceOf s) 0) }
        phase := .tag } := if_neg h

/-- Settles O29, by whether there is text; a legal nonce leaves the counter room for `A_1`. -/
theorem ctrS0Step : Obligations.CtrS0Step := by
  refine fun s => ⟨?_, fun _ hn => ?_⟩
  · rw [exec_ctrS0]
    by_cases h : 0 < s.dp.nTxt
    · rw [ctrS0On_of_text _ h]
      simp only [if_pos h]
      rfl
    · rw [ctrS0On_of_no_text _ h]
      simp only [if_neg h]
      rfl
  · have hroom := le_two_pow_lenField (s := s) (hn.trans (by omega))
    exact inc_ctrBlock_nonceOf (s := s) (by omega)

/-! ### TEXT_CTR -/

section

variable {cfg : Platform} {s : State} {data : List Byte} {d k : Nat}

/-- TEXT_CTR where every read and every write happens (R154). -/
theorem textCtrOn_of_written (hread : memRead cfg s (inAddr s + textBase s) (textCount s) = some (data, d))
    (hk : admittedCount cfg .write (outAddr s + textBase s) (textCount s) = k) (hall : k = textCount s) :
    textCtrOn cfg s =
      { storeBytes s (outAddr s + textBase s) ((textOutput cfg s data).take k) with
        draws := d
        dp :=
          { s.dp with
            written := textBase s + textCount s, p := textPlain cfg s data, a := inc (lenField s) s.dp.a }
        phase := .textMac } := by
  simp only [textCtrOn, hread, hk, if_pos hall]

/-- TEXT_CTR where every read happens and the write of byte `k` is refused (R154, R213). -/
theorem textCtrOn_of_write_refused (hread : memRead cfg s (inAddr s + textBase s) (textCount s) = some (data, d))
    (hk : admittedCount cfg .write (outAddr s + textBase s) (textCount s) = k) (hlt : k < textCount s) :
    textCtrOn cfg s =
      raiseBusError
        { storeBytes s (outAddr s + textBase s) ((textOutput cfg s data).take k) with
          draws := d, dp := { s.dp with written := textBase s + k } } := by
  simp only [textCtrOn, hread, hk, if_neg hlt.ne]

/-- Whether or not a write is refused, the memory takes the first `k` output bytes. -/
theorem textCtrOn_mem (hread : memRead cfg s (inAddr s + textBase s) (textCount s) = some (data, d))
    (hk : admittedCount cfg .write (outAddr s + textBase s) (textCount s) = k) :
    (textCtrOn cfg s).mem = (storeBytes s (outAddr s + textBase s) ((textOutput cfg s data).take k)).mem := by
  obtain hall | hlt := (hk ▸ admittedCount_le ..).eq_or_lt
  · rw [textCtrOn_of_written hread hk hall]
  · rw [textCtrOn_of_write_refused hread hk hlt]
    rfl

theorem textPlain_of_seal {n : BitVec 4} (h : commandOf s = .seal n) : textPlain cfg s data = blockOfBytes data := by
  simp only [textPlain, h]

theorem textPlain_of_open {n : BitVec 4} (h : commandOf s = .openCmd n) :
    textPlain cfg s data = blockOfBytes (textOutput cfg s data) := by
  simp only [textPlain, h]

theorem textOutput_of_length_le (h : data.length ≤ textCount s) :
    textOutput cfg s data = xorBytes data (blockBytes (enc cfg s.dp.a)) := xorBytes_take_right h

theorem textCount_le (s : State) : textCount s ≤ 16 := Nat.min_le_left ..

theorem textOutput_length (h : data.length = textCount s) : (textOutput cfg s data).length = textCount s := by
  have := textCount_le s
  rw [textOutput_of_length_le h.le, xorBytes_length, blockBytes_length]
  omega

/-- What an address holds after a run of stores of the first `k` of some bytes. -/
theorem readByte_storeBytes_take (hwf : Memory.wf s.mem) (a : Nat) {bs : List Byte} (hk : k ≤ bs.length) (x : Nat) :
    readByte (storeBytes s a (bs.take k)).mem x
      = if a ≤ x ∧ x < a + k then bs.getD (x - a) 0 else readByte s.mem x := by
  rw [readByte_storeBytes hwf, List.length_take_of_le hk]
  refine if_ctx_congr Iff.rfl (fun hx => ?_) fun _ => rfl
  simp only [List.getD]
  rw [List.getElem?_take_of_lt (by omega)]

end

theorem memSources_getElem? (a : Nat) {n q : Nat} (h : q < n) : (memSources a n)[q]? = some (.mem (a + q)) := by
  simp [memSources, h]

theorem memRead_eq_none_iff (cfg : Platform) (s : State) (a n : Nat) :
    memRead cfg s a n = none ↔ ¬∀ q < n, admitted cfg (a + q) .read = true := by
  rw [memRead, readSources_eq_none_iff]
  simp [memSources, sourceAdmitted]

/-- What `MemRead` answers, raced or not: a byte of each address that R73 allows there, the memory's own and no draw
where nothing raced. -/
theorem memRead_answers {cfg : Platform} {s : State} {a n d : Nat} {bs : List Byte}
    (h : memRead cfg s a n = some (bs, d)) :
    bs.length = n ∧ s.draws ≤ d ∧ (∀ q < n, MayRead s (a + q) (bs.getD q 0))
      ∧ (Quiet s a n → d = s.draws ∧ bs = readRegion s.mem a n) := by
  obtain ⟨-, hr⟩ := (readSources_eq_some_iff ..).mp h
  obtain ⟨rfl, rfl⟩ := Prod.mk.inj hr
  refine ⟨memRead_length h, drawSources_le .., fun q hq => ?_, fun hquiet => ?_⟩
  · exact mayAnswer_getD (drawSources_mayAnswer ..) (memSources_getElem? a hq)
  · rw [memRead_quiet cfg s hquiet] at h
    split at h
    · obtain ⟨hbs, hd⟩ := Prod.mk.inj (Option.some.inj h)
      exact ⟨hd.symm, hbs.symm⟩
    · cases h

/-- Settles O30: the read is refused, or it answers and the writes are admitted up to the first refused one. -/
theorem textCtrStep : Obligations.TextCtrStep := by
  rintro s base n src dst - rfl - rfl rfl rfl hwf
  refine ⟨_, exec_textCtr s, ?_⟩
  split
  next hadmitted =>
    obtain ⟨⟨data, d⟩, hread⟩ : ∃ r, memRead Config.platform s (inAddr s + textBase s) (textCount s) = some r :=
      Option.ne_none_iff_exists'.mp fun hnone => (memRead_eq_none_iff ..).mp hnone hadmitted
    obtain ⟨hlen, hdraws, hmay, hquiet⟩ := memRead_answers hread
    obtain ⟨k, hk⟩ : ∃ k, admittedCount Config.platform .write (outAddr s + textBase s) (textCount s) = k := ⟨_, rfl⟩
    obtain ⟨hkn, hadmits, hstop⟩ := (admittedCount_eq_iff ..).mp hk
    have hout := textOutput_of_length_le (cfg := Config.platform) hlen.le
    refine ⟨data, textOutput Config.platform s data, d, k, hlen, hdraws, hmay, hquiet, hout, hkn, hadmits, hstop,
      fun x => ?_, fun hall => ?_, fun hlt => ?_⟩
    · rw [textCtrOn_mem hread hk]
      exact readByte_storeBytes_take hwf _ (hkn.trans (textOutput_length hlen).ge) x
    · rw [textCtrOn_of_written hread hk hall, storeBytes_eq_update]
      exact ⟨rfl, fun ⟨l, hc⟩ => textPlain_of_seal hc, fun ⟨l, hc⟩ => textPlain_of_open hc⟩
    · rw [textCtrOn_of_write_refused hread hk hlt, storeBytes_eq_update]
      rfl
  next hrefused =>
    rw [textCtrOn_of_refused ((memRead_eq_none_iff ..).mpr hrefused)]
    rfl

end Sys2Proof.Machine

/-! Every step keeps the command in flight where R177 puts it (R153 to R157, R174, R177 to R180). -/

namespace Sys2Proof.Machine

open Sys2Proof.Config (Platform)
open Sys2Proof.Safety

section

variable {cfg : Platform} {s : State}

/-! ### What an accepted text command has room for -/

/-- A configured nonce leaves a length field of two bytes or more (R8, R43). -/
theorem nonceLen_le_of_registerInv (hreg : RegisterInv s) (hacc : TextAccepted s) : nonceLen s ≤ 13 := by
  obtain ⟨-, hlegal, -⟩ := hreg
  obtain ⟨hvalid, -⟩ := hacc
  rw [ConfigIsLegal, if_pos hvalid] at hlegal
  obtain ⟨-, hn, -⟩ := hlegal
  exact hn

/-- The text blocks are as many as the payload fills, the last one perhaps in part (R174). -/
theorem nTxt_covers_payload (hacc : TextAccepted s) :
    payloadLen s ≤ 16 * s.dp.nTxt ∧ 16 * s.dp.nTxt < payloadLen s + 16 := by
  obtain ⟨-, -, -, hnTxt, -⟩ := hacc
  unfold ceil16 at hnTxt
  omega

/-- No counter value up to the one after the last text block wraps (R157, R174). -/
theorem counter_in_range (hn : nonceLen s ≤ 13) (hacc : TextAccepted s) {c : Nat} (hc : c ≤ s.dp.nTxt) :
    c + 1 < 2 ^ (8 * lenField s) := by
  have hblocks := nTxt_covers_payload hacc
  obtain ⟨-, -, hfits, -⟩ := hacc
  have hroom := le_two_pow_lenField (s := s) (by omega)
  omega

/-- `inc` makes the next counter value's block (R155). -/
theorem inc_counterAt (hn : nonceLen s ≤ 13) (hacc : TextAccepted s) {c : Nat} (hc : c ≤ s.dp.nTxt)
    (hctr : CounterAt cfg s c) : inc (lenField s) s.dp.a = ctrBlock (nonceOf s) (c + 1) := by
  obtain ⟨ha, -⟩ := hctr
  rw [ha]
  exact inc_ctrBlock_nonceOf (counter_in_range hn hacc hc)

/-! ### After a failure -/

/-- A command that failed goes to SCRUB over what it wrote, or to FINISH where it wrote nothing (R179, R213). -/
theorem flightInv_of_failure (hphase : s.phase = afterFailure s) (hscrub : s.dp.scrubPos = 0)
    (hacc : TextAccepted s) (herr : s.dp.pendErr = .authenticationFailed ∨ s.dp.pendErr = .busError)
    (hw : s.dp.written ≤ outSize s) : FlightInv cfg s := by
  have hne : s.dp.pendErr ≠ .ok := by obtain he | he := herr <;> simp [he]
  unfold afterFailure at hphase
  unfold FlightInv
  split at hphase <;> rw [hphase]
  next hpos => exact ⟨hacc, herr, hscrub ▸ hpos, hw⟩
  next hzero => exact ⟨fun _ => ⟨hacc, by omega, hw⟩, fun hok => absurd hok hne⟩

theorem raiseBusError_flight (hacc : TextAccepted s) (hw : s.dp.written ≤ outSize s) :
    FlightInv cfg (raiseBusError s) := flightInv_of_failure rfl rfl hacc (.inr rfl) hw

theorem raiseBusError_flight_of_payload (hacc : TextAccepted s) (hw : s.dp.written ≤ payloadLen s) :
    FlightInv cfg (raiseBusError s) := raiseBusError_flight hacc (hw.trans (payloadLen_le_outSize hacc))

/-- A text command whose whole output is written is complete (R178, R179). -/
theorem flightInv_finish_of_ok (hphase : s.phase = .finish) (herr : s.dp.pendErr = .ok) (hacc : TextAccepted s)
    (hw : s.dp.written = outSize s) : FlightInv cfg s := by
  unfold FlightInv
  rw [hphase]
  exact ⟨fun hfail => by simp [herr] at hfail, fun _ => .inr ⟨hacc, hw⟩⟩

/-! ### CHECK -/

/-- An outcome of a validation (R121, R174, R176): none of those that end a command with output. -/
def IsCheckOutcome (e : ErrCode) : Prop := e ≠ .authenticationFailed ∧ e ≠ .busError

theorem configOutcome_isCheckOutcome : IsCheckOutcome (configOutcome cfg s) := by
  refine ⟨configOutcome_ne_authenticationFailed, ?_⟩
  unfold configOutcome
  repeat' split
  all_goals simp

theorem isCheckOutcome_of_validateText_error {isOpen : Bool} {nlen : BitVec 4} {e : ErrCode}
    (h : validateText isOpen nlen s = .error e) : e ≠ .ok ∧ IsCheckOutcome e := by
  obtain ⟨hok, hauth⟩ := ne_of_validateText_error h
  refine ⟨hok, hauth, ?_⟩
  unfold validateText at h
  repeat' split at h
  all_goals cases h
  all_goals simp

theorem flightInv_finish_of_check (hphase : s.phase = .finish) (he : IsCheckOutcome s.dp.pendErr)
    (hok : s.dp.pendErr = .ok → commandOf s = .config) : FlightInv cfg s := by
  obtain ⟨hauth, hbus⟩ := he
  unfold FlightInv
  rw [hphase]
  exact ⟨fun hfail => absurd hfail (not_or.mpr ⟨hauth, hbus⟩), fun h => .inl (hok h)⟩

theorem failCheck_flight {e : ErrCode} (hok : e ≠ .ok) (he : IsCheckOutcome e) : FlightInv cfg (failCheck e s) :=
  flightInv_finish_of_check rfl he fun h => absurd h hok

/-- A validation that passes accepts the command, if its buffers are not refused (R69, R174). -/
theorem beginText_accepted {isOpen : Bool} {nlen : BitVec 4} {mc : Nat}
    (hc : commandOf s = if isOpen then .openCmd nlen else .seal nlen) (hok : validateText isOpen nlen s = .ok mc)
    (hno : overlapUndefined (beginText mc s) = false) : TextAccepted (beginText mc s) := by
  obtain ⟨hvalid, rfl, hshort, hmc, hfits⟩ := (validateText_eq_ok_iff ..).mp hok
  have hlen : payloadLen (beginText mc s) = mc := payloadLen_beginText (by split at hmc <;> omega)
  refine ⟨hvalid, ?_, hlen.trans_lt hfits, congrArg ceil16 hlen.symm, hno⟩
  rw [hlen]
  cases isOpen with
  | false => exact .inl ⟨hc, hmc⟩
  | true => exact .inr ⟨hc, hmc ▸ Nat.sub_add_cancel (hshort rfl)⟩

theorem checkText_flight {t : State} {isOpen : Bool} {nlen : BitVec 4} (hok : s.dp.pendErr = .ok)
    (hc : commandOf s = if isOpen then .openCmd nlen else .seal nlen) (h : checkText isOpen nlen s = .next t) :
    FlightInv cfg t := by
  unfold checkText at h
  split at h
  next e he =>
    cases h
    obtain ⟨hne, hcheck⟩ := isCheckOutcome_of_validateText_error he
    exact failCheck_flight hne hcheck
  next mc hmc =>
    split at h
    next => cases h
    next hno =>
      cases h
      exact ⟨beginText_accepted hc hmc (Bool.eq_false_iff.mpr hno), rfl, hok⟩

theorem checkOn_flight {t : State} (hok : s.dp.pendErr = .ok) (h : checkOn cfg s = .next t) : FlightInv cfg t := by
  unfold checkOn at h
  split at h
  next hc =>
    cases h
    exact flightInv_finish_of_check rfl configOutcome_isCheckOutcome fun _ => hc
  next nlen hc => exact checkText_flight (isOpen := false) hok hc h
  next nlen hc => exact checkText_flight (isOpen := true) hok hc h
  next =>
    cases h
    exact failCheck_flight (by simp) ⟨by simp, by simp⟩

/-! ### The MAC micro-ops -/

theorem adBlockCount_pos {a : Nat} (h : 0 < a) : 0 < adBlockCount a := by
  rw [adBlockCount_of_pos h, ceil16]
  omega

theorem macB0On_flight (hacc : TextAccepted s) (hw : s.dp.written = 0) (hok : s.dp.pendErr = .ok) :
    FlightInv cfg (macB0On cfg s) := by
  by_cases had : 0 < adLen s
  · rw [macB0On_of_ad cfg had]
    exact ⟨hacc, hw, hok, rfl, adBlockCount_pos had⟩
  · rw [macB0On_of_no_ad cfg had]
    exact ⟨hacc, hw, hok⟩

theorem macAdOn_flight (hacc : TextAccepted s) (hw : s.dp.written = 0) (hok : s.dp.pendErr = .ok)
    (hnAD : s.dp.nAD = adBlockCount (adLen s)) (hj : s.dp.j < s.dp.nAD) : FlightInv cfg (macAdOn cfg s) := by
  cases hread : readSources cfg s (adBlockSources s) with
  | none =>
    rw [macAdOn_of_refused hread]
    exact raiseBusError_flight hacc (hw ▸ Nat.zero_le _)
  | some r =>
    rw [macAdOn_of_read hread]
    by_cases hlast : s.dp.j + 1 = s.dp.nAD
    · simp only [if_pos hlast]
      exact ⟨hacc, hw, hok⟩
    · simp only [if_neg hlast]
      exact ⟨hacc, hw, hok, hnAD, Nat.lt_of_le_of_ne hj hlast⟩

theorem textMacOn_flight (hacc : TextAccepted s) (hok : s.dp.pendErr = .ok) (hi : s.dp.i ≤ s.dp.nTxt)
    (hctr : CounterAt cfg s (s.dp.i + 1)) (hw : s.dp.written = min (16 * s.dp.i) (payloadLen s)) :
    FlightInv cfg (textMacOn cfg s) := by
  have hblocks := nTxt_covers_payload hacc
  by_cases hlast : s.dp.i = s.dp.nTxt
  · have hall : s.dp.written = payloadLen s := by omega
    rw [textMacOn_of_last cfg hlast]
    exact ⟨hacc, hok, hlast ▸ hctr, hall⟩
  · have hfull : s.dp.written = 16 * (s.dp.i + 1 - 1) := by omega
    rw [textMacOn_of_more cfg hlast]
    exact ⟨hacc, hok, Nat.le_add_left .., Nat.lt_of_le_of_ne hi hlast, hctr, hfull⟩

/-! ### The CTR micro-ops -/

theorem ctrS0On_flight (hn : nonceLen s ≤ 13) (hacc : TextAccepted s) (hw : s.dp.written = 0)
    (hok : s.dp.pendErr = .ok) : FlightInv cfg (ctrS0On cfg s) := by
  have hfirst : inc (lenField s) (ctrBlock (nonceOf s) 0) = ctrBlock (nonceOf s) 1 :=
    inc_ctrBlock_nonceOf (counter_in_range hn hacc (Nat.zero_le _))
  by_cases htext : 0 < s.dp.nTxt
  · rw [ctrS0On_of_text cfg htext]
    exact ⟨hacc, hok, le_rfl, htext, ⟨hfirst, rfl⟩, hw⟩
  · have hblocks := nTxt_covers_payload hacc
    have hall : s.dp.written = payloadLen s := by omega
    have hnext : inc (lenField s) (ctrBlock (nonceOf s) 0) = ctrBlock (nonceOf s) (s.dp.nTxt + 1) := by
      rw [hfirst, Nat.eq_zero_of_not_pos htext]
    rw [ctrS0On_of_no_text cfg htext]
    exact ⟨hacc, hok, ⟨hnext, rfl⟩, hall⟩

theorem textCtrOn_flight (hn : nonceLen s ≤ 13) (hacc : TextAccepted s) (hok : s.dp.pendErr = .ok)
    (hi1 : 1 ≤ s.dp.i) (hi : s.dp.i ≤ s.dp.nTxt) (hctr : CounterAt cfg s s.dp.i)
    (hw : s.dp.written = 16 * (s.dp.i - 1)) : FlightInv cfg (textCtrOn cfg s) := by
  have hblocks := nTxt_covers_payload hacc
  have hend : textBase s + textCount s = min (16 * s.dp.i) (payloadLen s) := by
    unfold textCount textBase
    omega
  cases hread : memRead cfg s (inAddr s + textBase s) (textCount s) with
  | none =>
    rw [textCtrOn_of_refused hread]
    exact raiseBusError_flight_of_payload hacc (by unfold textBase at hend; omega)
  | some r =>
    obtain ⟨k, hk⟩ : ∃ k, admittedCount cfg .write (outAddr s + textBase s) (textCount s) = k := ⟨_, rfl⟩
    obtain hall | hlt := (hk ▸ admittedCount_le ..).eq_or_lt
    · rw [textCtrOn_of_written hread hk hall, storeBytes_eq_update]
      have hnext := inc_counterAt hn hacc hi hctr
      obtain ⟨-, hs0⟩ := hctr
      exact ⟨hacc, hok, hi1, hi, ⟨hnext, hs0⟩, hend⟩
    · rw [textCtrOn_of_write_refused hread hk hlt, storeBytes_eq_update]
      have hle : textBase s + k ≤ payloadLen s := by omega
      exact raiseBusError_flight_of_payload hacc hle

/-! ### TAG and SCRUB -/

theorem tagSeal_flight {l : BitVec 4} (hacc : TextAccepted s) (hc : commandOf s = .seal l) :
    FlightInv cfg (tagSeal cfg s) := by
  have hsize := outSize_of_seal hc
  have hle := admittedCount_le cfg .write (outAddr s + payloadLen s) (tagLen s)
  simp only [tagSeal]
  generalize admittedCount cfg .write (outAddr s + payloadLen s) (tagLen s) = k at hle ⊢
  rw [storeBytes_eq_update]
  split
  next => exact flightInv_finish_of_ok rfl rfl hacc hsize.symm
  next =>
    have hw : payloadLen s + k ≤ outSize s := by omega
    exact raiseBusError_flight hacc hw

theorem tagOpen_flight {l : BitVec 4} (hacc : TextAccepted s) (hc : commandOf s = .openCmd l)
    (hw : s.dp.written = payloadLen s) : FlightInv cfg (tagOpen cfg s) := by
  have hw' : s.dp.written = outSize s := hw.trans (outSize_of_open hc).symm
  cases hread : memRead cfg s (inAddr s + payloadLen s) (tagLen s) with
  | none =>
    rw [tagOpen_of_refused hread]
    exact raiseBusError_flight hacc hw'.le
  | some r =>
    simp only [tagOpen, hread]
    split
    next => exact flightInv_finish_of_ok rfl rfl hacc hw'
    next => exact flightInv_of_failure rfl rfl hacc (.inl rfl) hw'.le

theorem exec_tag_flight {t : State} (hacc : TextAccepted s) (hw : s.dp.written = payloadLen s)
    (h : exec .tag s = .next t) : FlightInv Config.platform t := by
  obtain hc | hc := commandOf_of_textAccepted hacc
  · cases (exec_tag_of_seal hc).symm.trans h
    exact tagSeal_flight hacc hc
  · cases (exec_tag_of_open hc).symm.trans h
    exact tagOpen_flight hacc hc hw

theorem scrubStep_flight (hacc : TextAccepted s)
    (herr : s.dp.pendErr = .authenticationFailed ∨ s.dp.pendErr = .busError)
    (hpos : s.dp.scrubPos < s.dp.written) (hw : s.dp.written ≤ outSize s) : FlightInv cfg (scrubStep s) := by
  have hle : s.dp.scrubPos + scrubCount s ≤ s.dp.written := by unfold scrubCount; omega
  have hne : s.dp.pendErr ≠ .ok := by obtain he | he := herr <;> simp [he]
  unfold scrubStep
  rw [storeBytes_eq_update]
  by_cases hdone : s.dp.scrubPos + scrubCount s = s.dp.written
  · simp only [if_pos hdone]
    exact ⟨fun _ => ⟨hacc, hdone, hw⟩, fun hok => absurd hok hne⟩
  · simp only [if_neg hdone]
    exact ⟨hacc, herr, Nat.lt_of_le_of_ne hle hdone, hw⟩

/-! ### The step -/

/-- A micro-op before FINISH leads to where R177 says, phase by phase. -/
theorem exec_microOp_flight {t : State} {i : Instr} (hreg : RegisterInv s) (hflight : FlightInv Config.platform s)
    (hi : microOp s.phase = some i) (hne : s.phase ≠ .finish) (h : exec i s = .next t) :
    FlightInv Config.platform t := by
  unfold FlightInv at hflight
  cases hp : s.phase <;> simp only [hp, microOp, Option.some.injEq, reduceCtorEq] at hi hflight <;> subst hi
  case check => exact checkOn_flight (by rw [hflight]; rfl) h
  case tag =>
    obtain ⟨hacc, -, -, hw⟩ := hflight
    exact exec_tag_flight hacc hw h
  case finish => exact absurd hp hne
  all_goals cases h
  case macB0 =>
    obtain ⟨hacc, hw, hok⟩ := hflight
    exact macB0On_flight hacc hw hok
  case macAd =>
    obtain ⟨hacc, hw, hok, hnAD, hj⟩ := hflight
    exact macAdOn_flight hacc hw hok hnAD hj
  case ctrS0 =>
    obtain ⟨hacc, hw, hok⟩ := hflight
    exact ctrS0On_flight (nonceLen_le_of_registerInv hreg hacc) hacc hw hok
  case textCtr =>
    obtain ⟨hacc, hok, hi1, hi, hctr, hw⟩ := hflight
    exact textCtrOn_flight (nonceLen_le_of_registerInv hreg hacc) hacc hok hi1 hi hctr hw
  case textMac =>
    obtain ⟨hacc, hok, -, hi, hctr, hw⟩ := hflight
    exact textMacOn_flight hacc hok hi hctr hw
  case scrub =>
    obtain ⟨hacc, herr, hpos, hw⟩ := hflight
    exact scrubStep_flight hacc herr hpos hw

/-- A command is accepted from the idle engine, whose datapath is clear, and starts at CHECK (R48, R173). -/
theorem acceptCommand_flight (w : Word) (hreg : RegisterInv s) (hflight : FlightInv cfg s) :
    FlightInv cfg (acceptCommand w s) := by
  cases hb : s.busy with
  | true =>
    rw [acceptCommand_busy w s hb]
    exact hflight
  | false =>
    obtain ⟨⟨hclean, -⟩, -⟩ := hreg
    obtain ⟨-, hdp, -⟩ := hclean hb
    rw [acceptCommand_idle w s hb]
    exact hdp

/-- A host access that is no command touches nothing of the command in flight (R42). -/
theorem hostTurn_flight {access : HostAccess} {t : State} (hflight : FlightInv cfg s)
    (h : hostTurn Config.platform access s = .settled t) : FlightInv cfg t := by
  obtain ⟨v, -, rfl⟩ | ⟨-, regs, mem, past, draws, resp, rfl, -⟩ := hostTurn_settled_cases h
  · exact hflight
  · exact hflight

end

/-- Settles O47: a micro-op moves the command on, FINISH and the reset leave none, a command starts at CHECK, and no
other turn touches it. -/
theorem stepKeepsFlightInvariant : Obligations.StepKeepsFlightInvariant := by
  intro s t hreg hflight h
  cases stepCase_of_step h with
  | microOp i _ _ isOp ne_finish run => exact exec_microOp_flight (s := dropTurn s) hreg hflight isOp ne_finish run
  | finish _ _ _ eq => exact eq ▸ trivial
  | noStep _ _ eq => exact eq ▸ hflight
  | command w ts _ eq =>
    exact eq ▸ acceptCommand_flight (s := { s with turns := ts, resp := .written }) _ hreg hflight
  | access a ts _ _ settled => exact hostTurn_flight (s := { s with turns := ts }) hflight settled
  | reset ts _ eq => exact eq ▸ trivial

end Sys2Proof.Machine

/-! Commands at the host's side and at CHECK: acceptance, the validation of SEAL and OPEN in its order, BAD words, and
FINISH (R173 to R176, R181, R214, R215). -/

namespace Sys2Proof.Machine

open Sys2Proof.Config (Platform)
open Sys2Proof.Safety

/-! ### Acceptance -/

/-- The meaning of an instruction whose code is a command word is the acceptance of that word (R173). -/
theorem exec_of_encode_cmd {i : Instr} {w : Word} (h : encode i = .cmd w) (s : State) :
    exec i s = .next (acceptCommand w s) := by
  cases i <;> cases h <;> rfl

/-- Settles O15: the meaning is `acceptCommand` of the word, which splits on BUSY. -/
theorem commandWriteIsAcceptedOrDropped : Obligations.CommandWriteIsAcceptedOrDropped := by
  intro i w s hcode
  rw [exec_of_encode_cmd hcode]
  rfl

/-- A command accepted by the idle engine has made progress over the memory it finds (R173). -/
theorem acceptCommand_progress {cfg : Platform} (w : Word) {s : State} (hreg : RegisterInv s) (hidle : s.busy = false) :
    ProgressInv cfg s.mem (acceptCommand w s) := by
  obtain ⟨⟨hclean, -⟩, -⟩ := hreg
  obtain ⟨-, -, -, hpast⟩ := hclean hidle
  rw [acceptCommand_idle w s hidle]
  exact ⟨memHolds_zero_iff.mpr fun _ => rfl, hpast⟩

theorem flightInv_of_idle {cfg : Platform} {s : State} (hreg : RegisterInv s) (hidle : s.busy = false) :
    FlightInv cfg s := by
  obtain ⟨⟨hclean, -⟩, -⟩ := hreg
  obtain ⟨hphase, -⟩ := hclean hidle
  unfold FlightInv
  rw [hphase]
  trivial

/-- Settles O49: the step is the acceptance of the word, which leaves the memory and enters CHECK. -/
theorem acceptanceStartsProgress : Obligations.AcceptanceStartsProgress := by
  rintro s t hreg hidle ⟨w, ts, hturns⟩ h
  rw [step_of_command hturns] at h
  cases h
  have hreg' : RegisterInv { s with turns := ts, resp := .written } := hreg
  refine ⟨acceptCommand_progress _ hreg' hidle, acceptCommand_flight _ hreg' (flightInv_of_idle hreg' hidle), ?_⟩
  rw [acceptCommand_idle _ { s with turns := ts, resp := .written } hidle]

/-! ### The validation of SEAL and OPEN -/

/-- The payload length that a text command asks for (R174). -/
def claimedLen (isOpen : Bool) (s : State) : Nat := if isOpen then inLen s - tagLen s else inLen s

section

variable {isOpen : Bool} {nlen : BitVec 4} {s : State}

theorem validateText_of_not_configured (h : s.active.valid = false) :
    validateText isOpen nlen s = .error .notConfigured := if_pos h

theorem validateText_of_nonce_mismatch (hvalid : s.active.valid = true) (h : nlen ≠ s.active.n) :
    validateText isOpen nlen s = .error .invalidNonceLength := by
  simp [validateText, hvalid, h]

theorem validateText_of_short (hvalid : s.active.valid = true) (hn : nlen = s.active.n)
    (h : inLen s < tagLen s) : validateText true nlen s = .error .ciphertextTooShort := by
  simp [validateText, hvalid, hn, h]

theorem validateText_of_long (hvalid : s.active.valid = true) (hn : nlen = s.active.n)
    (hfits : isOpen = true → tagLen s ≤ inLen s) (h : 2 ^ (8 * lenField s) ≤ claimedLen isOpen s) :
    validateText isOpen nlen s = .error .messageTooLong := by
  have hshort : ¬(isOpen = true ∧ inLen s < tagLen s) := fun ⟨ho, hlt⟩ => absurd (hfits ho) (Nat.not_le.mpr hlt)
  rw [validateText, if_neg (by simp [hvalid]), if_neg (not_not.mpr hn), if_neg hshort]
  exact if_pos h

theorem validateText_of_valid (hvalid : s.active.valid = true) (hn : nlen = s.active.n)
    (hfits : isOpen = true → tagLen s ≤ inLen s) (h : claimedLen isOpen s < 2 ^ (8 * lenField s)) :
    validateText isOpen nlen s = .ok (claimedLen isOpen s) :=
  (validateText_eq_ok_iff ..).mpr ⟨hvalid, hn, hfits, rfl, h⟩

theorem checkText_of_error {e : ErrCode} (h : validateText isOpen nlen s = .error e) :
    checkText isOpen nlen s = .next (failCheck e s) := by
  simp [checkText, h]

theorem checkText_of_ok {mc : Nat} (h : validateText isOpen nlen s = .ok mc)
    (hno : overlapUndefined (beginText mc s) = false) : checkText isOpen nlen s = .next (beginText mc s) := by
  simp [checkText, h, hno]

end

/-- The state CHECK leaves, by the word that holds the payload length (R174). -/
theorem beginText_eq {mc : Nat} {m : Dword} (s : State) (h : BitVec.ofNat 64 mc = m) :
    beginText mc s =
      { s with dp := { s.dp with m := m, nTxt := ceil16 mc, written := 0 }, phase := .macB0 } := by
  subst h
  rfl

/-- The overlaps depend on the state CHECK leaves through the payload length only. -/
theorem overlapUndefined_beginText {mc : Nat} {m : Dword} (s : State) (h : BitVec.ofNat 64 mc = m) :
    overlapUndefined (beginText mc s) = overlapUndefined { s with dp := { s.dp with m := m } } :=
  overlapUndefined_congr rfl rfl h

/-- CHECK of a text command whose validation passes and whose buffers are apart (R174). -/
theorem checkText_of_accepted {isOpen : Bool} {nlen : BitVec 4} {s : State} {m : Dword}
    (hvalid : s.active.valid = true) (hn : nlen = s.active.n) (hfits : isOpen = true → tagLen s ≤ inLen s)
    (hlen : claimedLen isOpen s < 2 ^ (8 * lenField s)) (hm : BitVec.ofNat 64 (claimedLen isOpen s) = m)
    (hno : overlapUndefined { s with dp := { s.dp with m := m } } = false) :
    checkText isOpen nlen s = .next
      { s with dp := { s.dp with m := m, nTxt := ceil16 (claimedLen isOpen s), written := 0 }, phase := .macB0 } := by
  rw [checkText_of_ok (validateText_of_valid hvalid hn hfits hlen) ((overlapUndefined_beginText s hm).trans hno),
    beginText_eq s hm]

theorem ofNat_inLen (s : State) : BitVec.ofNat 64 (inLen s) = s.latch.inLen := by simp [inLen]

/-- Settles O22, clause by clause of the validation. -/
theorem checkOfSeal : Obligations.CheckOfSeal := by
  intro s n hc
  rw [exec_check_of_seal hc]
  refine ⟨fun hinvalid => ?_, fun hvalid hn => ?_, fun hvalid hn hlong => ?_, fun hvalid hn hshort hno => ?_⟩
  · exact checkText_of_error (validateText_of_not_configured hinvalid)
  · exact checkText_of_error (validateText_of_nonce_mismatch hvalid hn)
  · subst hn
    exact checkText_of_error (validateText_of_long hvalid rfl (by simp) hlong)
  · subst hn
    exact checkText_of_accepted (isOpen := false) hvalid rfl (by simp) hshort (ofNat_inLen s) hno

/-- An OPEN's payload length as the register holds it (R171, R174). -/
theorem ofNat_sub_tagLen {s : State} (h : tagLen s ≤ inLen s) :
    BitVec.ofNat 64 (inLen s - tagLen s) = s.latch.inLen - s.active.t.setWidth 64 := by
  have ht := s.active.t.isLt
  have hin := s.latch.inLen.isLt
  unfold tagLen inLen at *
  apply BitVec.eq_of_toNat_eq
  rw [BitVec.toNat_ofNat, BitVec.toNat_sub, BitVec.toNat_setWidth]
  omega

/-- Settles O23, clause by clause of the validation. -/
theorem checkOfOpen : Obligations.CheckOfOpen := by
  intro s n hc
  rw [exec_check_of_open hc]
  refine ⟨fun hinvalid => ?_, fun hvalid hn => ?_, fun hvalid hn hshort => ?_, fun hvalid hn hfits hlong => ?_,
    fun hvalid hn hfits hlen hno => ?_⟩
  · exact checkText_of_error (validateText_of_not_configured hinvalid)
  · exact checkText_of_error (validateText_of_nonce_mismatch hvalid hn)
  · exact checkText_of_error (validateText_of_short hvalid hn hshort)
  · subst hn
    exact checkText_of_error (validateText_of_long hvalid rfl (fun _ => hfits) hlong)
  · subst hn
    exact checkText_of_accepted (isOpen := true) hvalid rfl (fun _ => hfits) hlen (ofNat_sub_tagLen hfits) hno

/-! ### BAD words and FINISH -/

theorem exec_check_of_bad {s : State} {w : Word} (h : commandOf s = .bad w) :
    exec .check s = .next (failCheck .badCommand s) := by
  simp [exec, execCheck, checkOn, h]

theorem exec_finish (s : State) : exec .finish s = .next (deliverOutcome s) := rfl

/-- Settles O24: CHECK fails the command, and FINISH delivers what is pending. -/
theorem checkOfBad : Obligations.CheckOfBad := by
  intro s hc
  exact ⟨exec_check_of_bad hc, _, exec_finish _, rfl, rfl, rfl, rfl⟩

/-- A SEAL's OUT_LEN as a sum of register words (R181). -/
theorem ofNat_payloadLen_add_tagLen (s : State) :
    BitVec.ofNat 64 (payloadLen s + tagLen s) = s.dp.m + s.active.t.setWidth 64 := by
  have ht := s.active.t.isLt
  apply BitVec.eq_of_toNat_eq
  rw [BitVec.toNat_ofNat, BitVec.toNat_add, BitVec.toNat_setWidth_of_le (by omega)]
  rfl

theorem outLenOf_eq (s : State) :
    outLenOf s = match decodeCommand s.latch.cmdWord with
      | .seal _ => s.dp.m + s.active.t.setWidth 64
      | .openCmd _ => s.dp.m
      | _ => 0 := by
  unfold outLenOf commandOf
  match decodeCommand s.latch.cmdWord with
  | .seal _ => exact ofNat_payloadLen_add_tagLen s
  | .openCmd _ | .config | .bad _ => rfl

/-- Settles O34: FINISH is the delivery, which leaves the engine idle. -/
theorem finishStep : Obligations.FinishStep := by
  refine fun s _ => ⟨fun t h hnext => ?_, ?_⟩
  · cases h
    exact step_of_idle hnext rfl
  · rw [exec_finish, deliverOutcome, outLenOf_eq]
    rfl

end Sys2Proof.Machine

/-! The comparison of tags, and the micro-ops TAG and SCRUB (R172, R178 to R180, R213; log 7, log 9, log 11). -/

namespace Sys2Proof.Machine

open Sys2Proof.Config (Platform)
open Sys2Proof.Safety

/-! ### The comparison of tags -/

theorem or_eq_zero_iff {w : Nat} {x y : BitVec w} : x ||| y = 0 ↔ x = 0 ∧ y = 0 := by
  simp only [← BitVec.toNat_inj, BitVec.toNat_or, BitVec.ofNat_eq_ofNat, BitVec.toNat_ofNat, Nat.zero_mod,
    Nat.or_eq_zero_iff]

/-- An accumulator of exclusive-ors is 0 when it starts so and no byte added differs from 0 (R172). -/
theorem foldl_or_eq_zero_iff (l : List Byte) (x : Byte) :
    l.foldl (· ||| ·) x = 0 ↔ x = 0 ∧ ∀ b ∈ l, b = 0 := by
  induction l generalizing x with
  | nil => simp
  | cons b l ih => rw [List.foldl_cons, ih, or_eq_zero_iff, List.forall_mem_cons, and_assoc]

/-- The accumulator is 0 exactly when no byte pair differs (R172, R179). -/
theorem tagDiff_eq_zero_iff {x y : List Byte} (h : x.length = y.length) : tagDiff x y = 0 ↔ x = y := by
  rw [tagDiff, foldl_or_eq_zero_iff, eq_self, true_and]
  induction x generalizing y with
  | nil => simp [xorBytes, List.length_eq_zero_iff.mp h.symm]
  | cons b x ih =>
    match y, h with
    | c :: y, h =>
      have htail := ih (Nat.succ.inj h)
      simp only [xorBytes] at htail
      simp only [xorBytes, List.zipWith_cons_cons, List.forall_mem_cons, htail, List.cons.injEq]
      exact and_congr_left fun _ => BitVec.xor_eq_zero_iff

theorem ctEq_iff {x y : List Byte} (h : x.length = y.length) : ctEq x y = true ↔ x = y := by
  rw [ctEq, beq_iff_eq, tagDiff_eq_zero_iff h]

/-- Settles O43: the accumulator of `ctEq` is 0 exactly when no byte pair differs. -/
theorem tagComparisonIsEquality : Obligations.TagComparisonIsEquality := fun _ _ => ctEq_iff

/-! ### The expected tag -/

section

variable {s : State} {k : Nat}

/-- The expected tag byte by byte (R138, R152). -/
theorem maskedTag_eq_map (hT : tagLen s ≤ 16) :
    maskedTag s = (List.range (tagLen s)).map fun k => byteOf s.dp.y k ^^^ byteOf s.dp.s0 k := by
  apply List.ext_getElem
  · simp [maskedTag_length hT]
  · intro k _ _
    simp [maskedTag, xorBytes, blockBytes_getElem]

theorem maskedTag_getD (hT : tagLen s ≤ 16) (hk : k < tagLen s) :
    (maskedTag s).getD k 0 = byteOf s.dp.y k ^^^ byteOf s.dp.s0 k := by
  simp [maskedTag_eq_map hT, hk]

/-- The comparison with a received tag, byte by byte in order (R179). -/
theorem tagDiff_maskedTag (hT : tagLen s ≤ 16) {D : List Byte} (hD : D.length = tagLen s) :
    tagDiff (maskedTag s) D = (List.range (tagLen s)).foldl
      (fun x k => x ||| (byteOf s.dp.y k ^^^ byteOf s.dp.s0 k ^^^ D.getD k 0)) 0 := by
  have hxor : xorBytes (maskedTag s) D
      = (List.range (tagLen s)).map fun k => byteOf s.dp.y k ^^^ byteOf s.dp.s0 k ^^^ D.getD k 0 := by
    apply List.ext_getElem
    · simp [maskedTag_length hT, hD]
    · intro k hk _
      simp only [xorBytes_length, maskedTag_length hT, hD, Nat.min_self] at hk
      simp [xorBytes, maskedTag_eq_map hT, hD, hk]
  rw [tagDiff, hxor, List.foldl_map]

/-- The comparison finds no difference exactly when every byte received is the expected one (R179). -/
theorem tagDiff_maskedTag_eq_zero_iff (hT : tagLen s ≤ 16) {D : List Byte} (hD : D.length = tagLen s) :
    tagDiff (maskedTag s) D = 0 ↔ ∀ k < tagLen s, D.getD k 0 = byteOf s.dp.y k ^^^ byteOf s.dp.s0 k := by
  rw [tagDiff_eq_zero_iff ((maskedTag_length hT).trans hD.symm)]
  constructor
  · rintro rfl k hk
    exact maskedTag_getD hT hk
  · intro hall
    apply List.ext_getElem ((maskedTag_length hT).trans hD.symm)
    intro k hk hkD
    rw [← List.getD_eq_getElem _ 0 hk, ← List.getD_eq_getElem _ 0 hkD, maskedTag_getD hT (hD ▸ hkD),
      hall k (hD ▸ hkD)]

end

/-! ### TAG of a SEAL -/

section

variable {cfg : Platform} {s : State} {k : Nat}

/-- TAG of a SEAL where every write happens (R178). -/
theorem tagSeal_of_written (hk : admittedCount cfg .write (outAddr s + payloadLen s) (tagLen s) = k)
    (hall : k = tagLen s) :
    tagSeal cfg s =
      { storeBytes s (outAddr s + payloadLen s) ((maskedTag s).take k) with
        dp := { s.dp with written := payloadLen s + tagLen s, pendErr := .ok }
        phase := .finish } := by
  simp only [tagSeal, hk, if_pos hall]

/-- TAG of a SEAL where the write of tag byte `k` is refused (R178, R213). -/
theorem tagSeal_of_write_refused (hk : admittedCount cfg .write (outAddr s + payloadLen s) (tagLen s) = k)
    (hlt : k < tagLen s) :
    tagSeal cfg s =
      raiseBusError
        { storeBytes s (outAddr s + payloadLen s) ((maskedTag s).take k) with
          dp := { s.dp with written := payloadLen s + k } } := by
  simp only [tagSeal, hk, if_neg hlt.ne]

/-- Whether or not a write is refused, the memory takes the first `k` tag bytes. -/
theorem tagSeal_mem (hk : admittedCount cfg .write (outAddr s + payloadLen s) (tagLen s) = k) :
    (tagSeal cfg s).mem = (storeBytes s (outAddr s + payloadLen s) ((maskedTag s).take k)).mem := by
  obtain hall | hlt := (hk ▸ admittedCount_le ..).eq_or_lt
  · rw [tagSeal_of_written hk hall]
  · rw [tagSeal_of_write_refused hk hlt]
    rfl

end

/-- Settles O31: the tag bytes are written up to the first refused one. -/
theorem tagOfSeal : Obligations.TagOfSeal := by
  rintro s l M T dst hc rfl rfl hT rfl hwf
  refine ⟨_, exec_tag_of_seal hc, ?_⟩
  obtain ⟨k, hk⟩ : ∃ k, admittedCount Config.platform .write (outAddr s + payloadLen s) (tagLen s) = k := ⟨_, rfl⟩
  obtain ⟨hkT, hadmits, hstop⟩ := (admittedCount_eq_iff ..).mp hk
  refine ⟨k, hkT, hadmits, hstop, fun x => ?_, ?_⟩
  · rw [tagSeal_mem hk, readByte_storeBytes_take hwf _ (hkT.trans (maskedTag_length hT).ge)]
    exact if_ctx_congr Iff.rfl (fun hx => maskedTag_getD hT (by omega)) fun _ => rfl
  · obtain hall | hlt := hkT.eq_or_lt
    · have hkT' : k = s.active.t.toNat := hall
      rw [tagSeal_of_written hk hall, storeBytes_eq_update, if_pos hkT', if_pos hkT']
      rfl
    · have hkT' : k ≠ s.active.t.toNat := hlt.ne
      rw [tagSeal_of_write_refused hk hlt, storeBytes_eq_update, if_neg hkT', if_neg hkT']
      rfl

/-! ### TAG of an OPEN -/

section

variable {cfg : Platform} {s : State} {received : List Byte} {d : Nat}

/-- TAG of an OPEN whose tag is the expected one (R179). -/
theorem tagOpen_of_match (hread : memRead cfg s (inAddr s + payloadLen s) (tagLen s) = some (received, d))
    (h : tagDiff (maskedTag s) received = 0) :
    tagOpen cfg s =
      { s with dp := { s.dp with diff := 0, pendErr := .ok }, phase := .finish, draws := d } := by
  simp only [tagOpen, hread, h, if_true]

/-- TAG of an OPEN whose tag is another one (R179). -/
theorem tagOpen_of_mismatch (hread : memRead cfg s (inAddr s + payloadLen s) (tagLen s) = some (received, d))
    (h : tagDiff (maskedTag s) received ≠ 0) :
    tagOpen cfg s =
      { s with
        dp :=
          { s.dp with
            diff := tagDiff (maskedTag s) received, pendErr := .authenticationFailed, scrubPos := 0 }
        phase := afterFailure s
        draws := d } := by
  simp only [tagOpen, hread, if_neg h]

end

/-- Settles O32: the read is refused, or it answers and the tag compared is the expected one or another. -/
theorem tagOfOpen : Obligations.TagOfOpen := by
  rintro s l M T src hc rfl rfl hT rfl
  refine ⟨_, exec_tag_of_open hc, ?_⟩
  split
  next hadmitted =>
    obtain ⟨⟨D, d⟩, hread⟩ : ∃ r, memRead Config.platform s (inAddr s + payloadLen s) (tagLen s) = some r :=
      Option.ne_none_iff_exists'.mp fun hnone => (memRead_eq_none_iff ..).mp hnone hadmitted
    obtain ⟨hlen, hdraws, hmay, hquiet⟩ := memRead_answers hread
    refine ⟨D, d, tagDiff (maskedTag s) D, hlen, hdraws, hmay, hquiet, tagDiff_maskedTag hT hlen,
      tagDiff_maskedTag_eq_zero_iff hT hlen, ?_⟩
    by_cases hmatch : tagDiff (maskedTag s) D = 0
    · rw [tagOpen_of_match hread hmatch, if_pos hmatch, if_neg fun h => h.2 hmatch]
    · have hphase : afterFailure s = if 0 < s.dp.written ∧ tagDiff (maskedTag s) D ≠ 0 then .scrub else .finish :=
        if_congr (and_iff_left hmatch).symm rfl rfl
      rw [tagOpen_of_mismatch hread hmatch, if_neg hmatch, hphase]
  next hrefused =>
    rw [tagOpen_of_refused ((memRead_eq_none_iff ..).mpr hrefused)]
    rfl

/-! ### SCRUB -/

theorem exec_scrub (s : State) : exec .scrub s = .next (scrubStep s) := rfl

/-- SCRUB changes the memory, the older bytes, its own count and the phase (R180). -/
theorem scrubStep_eq_update (s : State) :
    scrubStep s =
      { s with
        mem := (scrubStep s).mem
        past := (scrubStep s).past
        dp := { s.dp with scrubPos := s.dp.scrubPos + scrubCount s }
        phase := if s.dp.scrubPos + scrubCount s = s.dp.written then .finish else .scrub } := by
  unfold scrubStep
  rw [storeBytes_eq_update]

/-- What SCRUB leaves at every address: zero in the next bytes due, all else as it was (R180). -/
theorem readByte_scrubStep {s : State} (hwf : Memory.wf s.mem) (x : Nat) :
    readByte (scrubStep s).mem x
      = if outAddr s + s.dp.scrubPos ≤ x ∧ x < outAddr s + s.dp.scrubPos + scrubCount s then 0
        else readByte s.mem x := by
  have hmem : (scrubStep s).mem
      = (storeBytes s (outAddr s + s.dp.scrubPos) (List.replicate (scrubCount s) 0)).mem := rfl
  have hzero : ∀ k, (List.replicate (scrubCount s) (0 : Byte)).getD k 0 = 0 := fun k => by
    rw [List.getD_eq_getElem?_getD, List.getElem?_getD_replicate_default_eq]
  rw [hmem, readByte_storeBytes hwf, List.length_replicate, hzero]

/-- Settles O33: SCRUB is a run of stores of zeros. In a namespace of its own, for the micro-op has the name. -/
theorem Scrub.scrubStep : Obligations.ScrubStep := by
  rintro s n dst rfl rfl hwf
  exact ⟨_, exec_scrub s, readByte_scrubStep hwf, scrubStep_eq_update s⟩

end Sys2Proof.Machine

/-! What the functional rules promise: OPEN inverts SEAL, and a tag or a message that was altered is refused (R171,
R184, R186). -/

namespace Sys2Proof.Machine

open Sys2Proof.Config (Platform)

/-! ### OPEN inverts SEAL -/

theorem messageTag_length (cfg : Platform) {t : Nat} (nonce ad plain : List Byte) (h : t ≤ 16) :
    (messageTag cfg t nonce ad plain).length = t := by
  simp [messageTag, macU, h]

/-- OPEN releases the plaintext exactly when the tag received is the message's (R171). -/
theorem openOutput_eq {cfg : Platform} {t : Nat} {nonce ad ct received : List Byte} (ht : t ≤ 16)
    (hlen : received.length = t) :
    openOutput cfg t nonce ad ct received =
      if messageTag cfg t nonce ad (ctrXor cfg nonce ct) = received then .ok (ctrXor cfg nonce ct)
      else .error .authenticationFailed :=
  if_congr (ctEq_iff ((messageTag_length cfg nonce ad _ ht).trans hlen.symm)) rfl rfl

theorem tag_of_openOutput_ok {cfg : Platform} {t : Nat} {nonce ad ct received plain : List Byte} (ht : t ≤ 16)
    (hlen : received.length = t) (h : openOutput cfg t nonce ad ct received = .ok plain) :
    messageTag cfg t nonce ad (ctrXor cfg nonce ct) = received := by
  by_contra hne
  rw [openOutput_eq ht hlen, if_neg hne] at h
  cases h

/-- Settles O56: the CTR pass is its own inverse, so both sides compute the tag of one plaintext. -/
theorem openInvertsSeal : Obligations.OpenInvertsSeal := by
  rintro cfg t nonce ad plain _ ht rfl
  have hct := ctrXor_length cfg nonce plain
  have htag := messageTag_length cfg nonce ad plain ht
  have htake : (sealOutput cfg t nonce ad plain).take plain.length = ctrXor cfg nonce plain := List.take_left' hct
  have hdrop : (sealOutput cfg t nonce ad plain).drop plain.length = messageTag cfg t nonce ad plain :=
    List.drop_left' hct
  refine ⟨by rw [sealOutput, List.length_append, hct, htag], ?_⟩
  rw [htake, hdrop, openOutput_eq ht htag, ctrXor_ctrXor, if_pos rfl]

/-! ### Messages that differ in one block -/

/-- Two sequences that agree everywhere but at place `b`, where they differ. -/
def DifferAt {α : Type} (b : Nat) (xs ys : List α) : Prop :=
  xs ≠ ys ∧ xs.length = ys.length ∧ ∀ k, k ≠ b → xs[k]? = ys[k]?

/-- The cipher maps no two blocks to one (R186). -/
def CipherInjective (cfg : Platform) : Prop := ∀ x y, cfg.cipher.encrypt x = cfg.cipher.encrypt y → x = y

section

variable {cfg : Platform} (hinj : CipherInjective cfg)

include hinj

/-- Chain values that differ stay so over the same blocks. -/
theorem eq_of_macChain_eq {y z : Block} {xs : List Block} (h : macChain cfg y xs = macChain cfg z xs) : y = z := by
  induction xs generalizing y z with
  | nil => exact h
  | cons x xs ih => exact (BitVec.xor_left_inj x).mp (hinj _ _ (ih h))

/-- A change in one block changes the chain value (R130, R186). -/
theorem macChain_ne_of_differAt {b : Nat} {y : Block} {xs ys : List Block} (h : DifferAt b xs ys) :
    macChain cfg y xs ≠ macChain cfg y ys := by
  obtain ⟨hne, hlen, hagree⟩ := h
  induction xs generalizing b y ys with
  | nil => exact absurd (List.length_eq_zero_iff.mp hlen.symm).symm hne
  | cons x xs ih =>
    match ys, hlen with
    | z :: zs, hlen =>
      cases b with
      | zero =>
        have htail : xs = zs := List.ext_getElem? fun k => hagree (k + 1) (Nat.succ_ne_zero k)
        subst htail
        intro hchain
        have hhead := hinj _ _ (eq_of_macChain_eq hinj hchain)
        exact hne (by rw [(BitVec.xor_right_inj y).mp hhead])
      | succ b =>
        have hhead : x = z := by simpa using hagree 0 (Nat.succ_ne_zero b).symm
        subst hhead
        exact ih (fun he => hne (he ▸ rfl)) (Nat.succ.inj hlen) fun k (hk : k ≠ b) => hagree (k + 1) (by omega)

end

/-- A change of one sequence between two that stay, place by place. -/
theorem differAt_append {α : Type} {b : Nat} {xs ys : List α} (h : DifferAt b xs ys) (pre post : List α) :
    DifferAt (pre.length + b) (pre ++ xs ++ post) (pre ++ ys ++ post) := by
  obtain ⟨hne, hlen, hagree⟩ := h
  refine ⟨fun he => hne ?_, by simp [hlen], fun k hk => ?_⟩
  · exact List.append_cancel_left (List.append_cancel_right he)
  · simp only [List.append_assoc]
    rcases Nat.lt_or_ge k pre.length with hpre | hpre
    · rw [List.getElem?_append_left hpre, List.getElem?_append_left hpre]
    · rw [List.getElem?_append_right hpre, List.getElem?_append_right hpre]
      rcases Nat.lt_or_ge (k - pre.length) xs.length with hxs | hxs
      · rw [List.getElem?_append_left hxs, List.getElem?_append_left (hlen ▸ hxs)]
        exact hagree _ (by omega)
      · rw [List.getElem?_append_right hxs, List.getElem?_append_right (hlen ▸ hxs), hlen]

/-- Sequences of bytes that differ in one block of 16 have block lists that differ there alone. -/
theorem differAt_blocksOf {b : Nat} {l m : List Byte} (hne : l ≠ m) (hlen : l.length = m.length)
    (hagree : ∀ k, k / 16 ≠ b → l.getD k 0 = m.getD k 0) : DifferAt b (blocksOf l) (blocksOf m) := by
  have hcount : (blocksOf l).length = (blocksOf m).length := by simp [hlen]
  refine ⟨fun he => hne ?_, hcount, fun k hk => ?_⟩
  · apply List.ext_getElem hlen
    intro k hl hm
    have hkl : k / 16 < (blocksOf l).length := by
      have := ceil16_mul_ge l.length
      rw [blocksOf_length]
      omega
    have hbyte := byteOf_blocksOf l (k / 16) hkl (Nat.mod_lt k (by omega))
    simp only [he] at hbyte
    rw [byteOf_blocksOf m (k / 16) (hcount ▸ hkl) (Nat.mod_lt k (by omega)), Nat.div_add_mod] at hbyte
    rw [← List.getD_eq_getElem _ 0 hl, ← List.getD_eq_getElem _ 0 hm, hbyte]
  · rcases Nat.lt_or_ge k (blocksOf l).length with hkl | hkl
    · rw [List.getElem?_eq_getElem hkl, List.getElem?_eq_getElem (hcount ▸ hkl), Option.some.injEq]
      apply block_ext
      intro i hi
      rw [byteOf_blocksOf l k hkl hi, byteOf_blocksOf m k (hcount ▸ hkl) hi]
      exact hagree _ (by omega)
    · rw [List.getElem?_eq_none hkl, List.getElem?_eq_none (hcount ▸ hkl)]

/-- With all 16 bytes of it, a tag tells the chain value (R152). -/
theorem macY_eq_of_messageTag_eq {cfg : Platform} {nonce ad ad' plain plain' : List Byte}
    (h : messageTag cfg 16 nonce ad plain = messageTag cfg 16 nonce ad' plain') :
    macY cfg 16 nonce ad plain = macY cfg 16 nonce ad' plain' := by
  have hbytes : ∀ x : Block, (blockBytes x).take 16 = blockBytes x := fun x => List.take_of_length_le (by simp)
  simp only [messageTag, macU, hbytes] at h
  have hmask := congrArg (xorBytes · (blockBytes (tagMask cfg nonce))) h
  simp only [xorBytes_self_inverse _ _ (show (blockBytes _).length ≤ (blockBytes _).length by simp)] at hmask
  rw [← blockOfBytes_blockBytes (macY cfg 16 nonce ad plain), hmask, blockOfBytes_blockBytes]

/-- The blocks of a message that the MAC runs over after B0 (R130). -/
def macBlocks (ad plain : List Byte) : List Block := adStreamBlocks ad ++ blocksOf plain

/-- Under an injective cipher, a change in one block of a message of the same lengths changes its tag (R186 (b)). -/
theorem messageTag_ne_of_differAt {cfg : Platform} (hinj : CipherInjective cfg) {nonce ad ad' plain plain' : List Byte}
    {b : Nat} (had : ad'.length = ad.length) (hplain : plain'.length = plain.length)
    (h : DifferAt b (macBlocks ad' plain') (macBlocks ad plain)) :
    messageTag cfg 16 nonce ad' plain' ≠ messageTag cfg 16 nonce ad plain := by
  intro htag
  have hY := macY_eq_of_messageTag_eq htag
  simp only [macY, macStart, had, hplain] at hY
  exact macChain_ne_of_differAt hinj h hY

/-! ### Altered ciphertext and altered associated data -/

/-- A change in one block of the ciphertext is one in that block of the plaintext (R151). -/
theorem differAt_of_ciphertext (cfg : Platform) (nonce ad : List Byte) {ct ct' : List Byte} {b : Nat} (hne : ct' ≠ ct)
    (hlen : ct'.length = ct.length) (hagree : ∀ k, k / 16 ≠ b → ct'.getD k 0 = ct.getD k 0) :
    DifferAt ((adStreamBlocks ad).length + b) (macBlocks ad (ctrXor cfg nonce ct'))
      (macBlocks ad (ctrXor cfg nonce ct)) := by
  have hplain : ctrXor cfg nonce ct' ≠ ctrXor cfg nonce ct := fun he => hne <| by
    rw [← ctrXor_ctrXor cfg nonce ct', he, ctrXor_ctrXor]
  have hbytes : ∀ k, k / 16 ≠ b → (ctrXor cfg nonce ct').getD k 0 = (ctrXor cfg nonce ct).getD k 0 := by
    intro k hk
    rcases Nat.lt_or_ge k ct.length with hlt | hge
    · have hm : k % 16 < 16 := Nat.mod_lt k (by omega)
      have hkey := ctrXor_getD cfg nonce ct (k / 16) (k % 16) hm (by omega)
      have hkey' := ctrXor_getD cfg nonce ct' (k / 16) (k % 16) hm (by omega)
      rw [Nat.div_add_mod] at hkey hkey'
      rw [hkey, hkey', hagree k hk]
    · rw [List.getD_eq_default _ _ (by rw [ctrXor_length]; omega),
        List.getD_eq_default _ _ (by rw [ctrXor_length]; omega)]
  have hblocks := differAt_blocksOf hplain (by simp only [ctrXor_length, hlen]) hbytes
  simpa [macBlocks] using differAt_append hblocks (adStreamBlocks ad) []

/-- A change in the associated data's bytes of one block is one in that block of the stream (R92, R93). -/
theorem differAt_of_ad {ad ad' : List Byte} (plain : List Byte) {b : Nat} (hne : ad' ≠ ad)
    (hlen : ad'.length = ad.length)
    (hagree : ∀ k, (k + (adPrefix ad.length).length) / 16 ≠ b → ad'.getD k 0 = ad.getD k 0) :
    DifferAt b (macBlocks ad' plain) (macBlocks ad plain) := by
  have hpos : ad.length ≠ 0 := fun h0 => hne <| by
    rw [List.length_eq_zero_iff.mp h0, List.length_eq_zero_iff.mp (hlen.trans h0)]
  have hstream' : adStreamBlocks ad' = blocksOf (adPrefix ad.length ++ ad') := by
    rw [adStreamBlocks, hlen, if_neg hpos]
  have hstream : adStreamBlocks ad = blocksOf (adPrefix ad.length ++ ad) := if_neg hpos
  have hbytes : ∀ k, k / 16 ≠ b →
      (adPrefix ad.length ++ ad').getD k 0 = (adPrefix ad.length ++ ad).getD k 0 := by
    intro k hk
    rcases Nat.lt_or_ge k (adPrefix ad.length).length with hlt | hge
    · rw [List.getD_append _ _ _ _ hlt, List.getD_append _ _ _ _ hlt]
    · rw [List.getD_append_right _ _ _ _ hge, List.getD_append_right _ _ _ _ hge]
      exact hagree _ (by rwa [Nat.sub_add_cancel hge])
  have hblocks := differAt_blocksOf (fun he => hne (List.append_cancel_left he)) (by simp [hlen]) hbytes
  rw [macBlocks, macBlocks, hstream, hstream']
  simpa using differAt_append hblocks [] (blocksOf plain)

/-- Settles O57: another tag is no message's own, and a change in one block changes the message's tag. -/
theorem tamperingIsDetected : Obligations.TamperingIsDetected := by
  refine ⟨fun cfg t nonce ad ct tag tag' plain ht hlen hlen' hok hne => ?_,
    fun cfg nonce ad ad' ct ct' tag plain b hinj hlen hok halter => ?_⟩
  · have htag := tag_of_openOutput_ok ht hlen hok
    rw [openOutput_eq ht hlen', if_neg fun he => hne (he.symm.trans htag)]
  · have htag := tag_of_openOutput_ok le_rfl hlen hok
    rw [openOutput_eq le_rfl hlen, ← htag]
    refine if_neg ?_
    obtain ⟨rfl, hne, hlen', hagree⟩ | ⟨rfl, hne, hlen', hagree⟩ := halter
    · exact messageTag_ne_of_differAt hinj rfl (by simp only [ctrXor_length, hlen'])
        (differAt_of_ciphertext cfg nonce _ hne hlen' hagree)
    · exact messageTag_ne_of_differAt hinj hlen' rfl (differAt_of_ad _ hne hlen' hagree)

end Sys2Proof.Machine

/-! Where an engine step takes a command in flight: the phases of R177, and a number that every step lowers (R177,
R180, R187). -/

namespace Sys2Proof.Machine

open Sys2Proof.Config (Platform)
open Sys2Proof.Safety

/-! ### What a micro-op between CHECK and FINISH does to the phase and the datapath -/

/-- ADMIT lets every access to the regions of the command in flight happen (R10, R62). -/
structure BuffersAdmitted (cfg : Platform) (s : State) : Prop where
  ad : RegionAdmitted cfg .read (adAddr s) (adLen s)
  input : RegionAdmitted cfg .read (inAddr s) (inLen s)
  output : RegionAdmitted cfg .write (outAddr s) (outSize s)

/-- The phase and the datapath that a micro-op between CHECK and FINISH leads to (R177). -/
inductive Advance (cfg : Platform) (s : State) : Phase → Datapath → Prop where
  | startAd (y : Block) (phase : s.phase = .macB0) (ad : 0 < adLen s) :
      Advance cfg s .macAd { s.dp with y := y, nAD := adBlockCount (adLen s), j := 0 }
  | skipAd (y : Block) (phase : s.phase = .macB0) (ad : ¬0 < adLen s) :
      Advance cfg s .ctrS0 { s.dp with y := y, nAD := 0 }
  | nextAd (y : Block) (phase : s.phase = .macAd) (more : s.dp.j + 1 ≠ s.dp.nAD) :
      Advance cfg s .macAd { s.dp with y := y, j := s.dp.j + 1 }
  | lastAd (y : Block) (phase : s.phase = .macAd) (last : s.dp.j + 1 = s.dp.nAD) :
      Advance cfg s .ctrS0 { s.dp with y := y, j := s.dp.j + 1 }
  | startText (a s0 : Block) (phase : s.phase = .ctrS0) (text : 0 < s.dp.nTxt) :
      Advance cfg s .textCtr { s.dp with s0 := s0, a := a, i := 1 }
  | skipText (a s0 : Block) (phase : s.phase = .ctrS0) (text : ¬0 < s.dp.nTxt) :
      Advance cfg s .tag { s.dp with s0 := s0, a := a }
  | textBlock (p a : Block) (phase : s.phase = .textCtr) :
      Advance cfg s .textMac { s.dp with written := textBase s + textCount s, p := p, a := a }
  | nextText (y : Block) (phase : s.phase = .textMac) (more : s.dp.i ≠ s.dp.nTxt) :
      Advance cfg s .textCtr { s.dp with y := y, p := 0, i := s.dp.i + 1 }
  | lastText (y : Block) (phase : s.phase = .textMac) (last : s.dp.i = s.dp.nTxt) :
      Advance cfg s .tag { s.dp with y := y, p := 0 }
  | sealed (phase : s.phase = .tag) :
      Advance cfg s .finish { s.dp with written := payloadLen s + tagLen s, pendErr := .ok }
  | opened (phase : s.phase = .tag) : Advance cfg s .finish { s.dp with diff := 0, pendErr := .ok }
  | mismatch (diff : Byte) (phase : s.phase = .tag) (isOpen : commandOf s = .openCmd s.active.n) :
      Advance cfg s (afterFailure s)
        { s.dp with diff := diff, pendErr := .authenticationFailed, scrubPos := 0 }
  | busError (w : Nat) (phase : s.phase ∈ [Phase.macAd, .textCtr, .tag])
      (unwritten : s.phase = .macAd → w = s.dp.written) (refused : ¬BuffersAdmitted cfg s) :
      Advance cfg s (if 0 < w then .scrub else .finish)
        { s.dp with written := w, pendErr := .busError, scrubPos := 0 }
  | scrubMore (phase : s.phase = .scrub) (more : s.dp.scrubPos + scrubCount s ≠ s.dp.written) :
      Advance cfg s .scrub { s.dp with scrubPos := s.dp.scrubPos + scrubCount s }
  | scrubLast (phase : s.phase = .scrub) (last : s.dp.scrubPos + scrubCount s = s.dp.written) :
      Advance cfg s .finish { s.dp with scrubPos := s.dp.scrubPos + scrubCount s }

section

variable {cfg : Platform} {s : State}

/-! ### Where each micro-op leads -/

theorem macB0On_advance (hp : s.phase = .macB0) : Advance cfg s (macB0On cfg s).phase (macB0On cfg s).dp := by
  by_cases had : 0 < adLen s
  · rw [macB0On_of_ad cfg had]
    exact .startAd _ hp had
  · rw [macB0On_of_no_ad cfg had]
    exact .skipAd _ hp had

/-- A refused read of associated data is one that ADMIT does not let happen (R213). -/
theorem not_buffersAdmitted_of_ad_refused (h : readSources cfg s (adBlockSources s) = none) :
    ¬BuffersAdmitted cfg s := by
  intro hadm
  obtain ⟨x, hx, hrefused⟩ := (readSources_eq_none_iff ..).mp h
  have hall : ∀ x ∈ adBlockSources s, sourceAdmitted cfg x = true := by
    refine forall_mem_adBlockSources.mpr fun m hm => (sourceAdmitted_adSource_iff ..).mpr ?_
    by_cases hdata : (adPrefix (adLen s)).length ≤ 16 * s.dp.j + m
        ∧ 16 * s.dp.j + m < (adPrefix (adLen s)).length + adLen s
    · exact .inr (.inr (hadm.ad _ (by omega)))
    · omega
  simp [hall x hx] at hrefused

theorem macAdOn_advance (hp : s.phase = .macAd) : Advance cfg s (macAdOn cfg s).phase (macAdOn cfg s).dp := by
  cases hread : readSources cfg s (adBlockSources s) with
  | none =>
    rw [macAdOn_of_refused hread]
    exact .busError s.dp.written (by simp [hp]) (fun _ => rfl) (not_buffersAdmitted_of_ad_refused hread)
  | some r =>
    rw [macAdOn_of_read hread]
    by_cases hlast : s.dp.j + 1 = s.dp.nAD
    · simp only [if_pos hlast]
      exact .lastAd _ hp hlast
    · simp only [if_neg hlast]
      exact .nextAd _ hp hlast

theorem ctrS0On_advance (hp : s.phase = .ctrS0) : Advance cfg s (ctrS0On cfg s).phase (ctrS0On cfg s).dp := by
  by_cases htext : 0 < s.dp.nTxt
  · rw [ctrS0On_of_text cfg htext]
    exact .startText _ _ hp htext
  · rw [ctrS0On_of_no_text cfg htext]
    exact .skipText _ _ hp htext

theorem textMacOn_advance (hp : s.phase = .textMac) :
    Advance cfg s (textMacOn cfg s).phase (textMacOn cfg s).dp := by
  by_cases hlast : s.dp.i = s.dp.nTxt
  · rw [textMacOn_of_last cfg hlast]
    exact .lastText _ hp hlast
  · rw [textMacOn_of_more cfg hlast]
    exact .nextText _ hp hlast

/-- The text-in region of an accepted command holds its payload, and an OPEN's tag after it (R62, R174). -/
theorem payloadLen_add_tagInSize (hacc : TextAccepted s) : payloadLen s + tagInSize s = inLen s := by
  obtain ⟨-, ⟨hc, hlen⟩ | ⟨hc, hlen⟩, -⟩ := hacc
  · rw [tagInSize_of_seal hc, hlen, Nat.add_zero]
  · rw [tagInSize_of_open hc, hlen]

/-- A refused read of part of the text-in region is one that ADMIT does not let happen (R213). -/
theorem not_buffersAdmitted_of_input_refused {p n : Nat} (hfit : n = 0 ∨ p + n ≤ inLen s)
    (h : memRead cfg s (inAddr s + p) n = none) : ¬BuffersAdmitted cfg s := by
  refine fun hadm => (memRead_eq_none_iff ..).mp h fun q hq => ?_
  rw [Nat.add_assoc]
  exact hadm.input (p + q) (by omega)

/-- The same for a write to the output region, byte `k` of it being refused first. -/
theorem not_buffersAdmitted_of_output_refused {p n : Nat} (hfit : n = 0 ∨ p + n ≤ outSize s)
    (h : admittedCount cfg .write (outAddr s + p) n < n) : ¬BuffersAdmitted cfg s := by
  intro hadm
  have hrefused := not_admitted_admittedCount cfg .write h
  rw [Nat.add_assoc, hadm.output _ (by omega)] at hrefused
  cases hrefused

theorem textCtrOn_advance (hacc : TextAccepted s) (hp : s.phase = .textCtr) :
    Advance cfg s (textCtrOn cfg s).phase (textCtrOn cfg s).dp := by
  have hin := payloadLen_add_tagInSize hacc
  have hout := payloadLen_le_outSize hacc
  have hfit := textCount_fits s
  cases hread : memRead cfg s (inAddr s + textBase s) (textCount s) with
  | none =>
    rw [textCtrOn_of_refused hread]
    exact .busError s.dp.written (by simp [hp]) (fun _ => rfl)
      (not_buffersAdmitted_of_input_refused (by omega) hread)
  | some r =>
    obtain hall | hlt := (admittedCount_le cfg .write (outAddr s + textBase s) (textCount s)).eq_or_lt
    · rw [textCtrOn_of_written hread rfl hall]
      exact .textBlock _ _ hp
    · rw [textCtrOn_of_write_refused hread rfl hlt]
      exact .busError _ (by simp [hp]) (by simp [hp]) (not_buffersAdmitted_of_output_refused (by omega) hlt)

theorem tagSeal_advance {l : BitVec 4} (hc : commandOf s = .seal l) (hp : s.phase = .tag) :
    Advance cfg s (tagSeal cfg s).phase (tagSeal cfg s).dp := by
  obtain hall | hlt := (admittedCount_le cfg .write (outAddr s + payloadLen s) (tagLen s)).eq_or_lt
  · rw [tagSeal_of_written rfl hall]
    exact .sealed hp
  · rw [tagSeal_of_write_refused rfl hlt]
    exact .busError _ (by simp [hp]) (by simp [hp])
      (not_buffersAdmitted_of_output_refused (.inr (outSize_of_seal hc).ge) hlt)

theorem tagOpen_advance (hacc : TextAccepted s) (hc : commandOf s = .openCmd s.active.n) (hp : s.phase = .tag) :
    Advance cfg s (tagOpen cfg s).phase (tagOpen cfg s).dp := by
  have hin := payloadLen_add_tagInSize hacc
  rw [tagInSize_of_open hc] at hin
  cases hread : memRead cfg s (inAddr s + payloadLen s) (tagLen s) with
  | none =>
    rw [tagOpen_of_refused hread]
    exact .busError s.dp.written (by simp [hp]) (fun _ => rfl)
      (not_buffersAdmitted_of_input_refused (.inr hin.le) hread)
  | some r =>
    by_cases hmatch : tagDiff (maskedTag s) r.1 = 0
    · rw [tagOpen_of_match hread hmatch]
      exact .opened hp
    · rw [tagOpen_of_mismatch hread hmatch]
      exact .mismatch _ hp hc

theorem exec_tag_advance {t : State} (hacc : TextAccepted s) (hp : s.phase = .tag) (h : exec .tag s = .next t) :
    Advance Config.platform s t.phase t.dp := by
  obtain hc | hc := commandOf_of_textAccepted hacc
  · cases (exec_tag_of_seal hc).symm.trans h
    exact tagSeal_advance hc hp
  · cases (exec_tag_of_open hc).symm.trans h
    exact tagOpen_advance hacc hc hp

theorem scrubStep_advance (hp : s.phase = .scrub) : Advance cfg s (scrubStep s).phase (scrubStep s).dp := by
  rw [scrubStep_eq_update]
  by_cases hlast : s.dp.scrubPos + scrubCount s = s.dp.written
  · simp only [if_pos hlast]
    exact .scrubLast hp hlast
  · simp only [if_neg hlast]
    exact .scrubMore hp hlast

/-- A command between CHECK and FINISH is an accepted SEAL or OPEN (R177). -/
theorem textAccepted_of_flightInv (hflight : FlightInv cfg s) (hidle : s.phase ≠ .idle) (hcheck : s.phase ≠ .check)
    (hfinish : s.phase ≠ .finish) : TextAccepted s := by
  unfold FlightInv at hflight
  cases hp : s.phase <;> simp only [hp] at hflight
  case idle => exact absurd hp hidle
  case check => exact absurd hp hcheck
  case finish => exact absurd hp hfinish
  all_goals exact hflight.1

/-- A micro-op between CHECK and FINISH leads where `Advance` says. -/
theorem exec_microOp_advance {t : State} {i : Instr} (hflight : FlightInv Config.platform s)
    (hi : microOp s.phase = some i) (hcheck : s.phase ≠ .check) (hfinish : s.phase ≠ .finish)
    (h : exec i s = .next t) : Advance Config.platform s t.phase t.dp := by
  have hacc := textAccepted_of_flightInv hflight (fun hp => by simp [hp, microOp] at hi) hcheck hfinish
  cases hp : s.phase <;> simp only [hp, microOp, Option.some.injEq, reduceCtorEq] at hi <;> subst hi
  case check => exact absurd hp hcheck
  case finish => exact absurd hp hfinish
  case tag => exact exec_tag_advance hacc hp h
  all_goals cases h
  case macB0 => exact macB0On_advance hp
  case macAd => exact macAdOn_advance hp
  case ctrS0 => exact ctrS0On_advance hp
  case textCtr => exact textCtrOn_advance hacc hp
  case textMac => exact textMacOn_advance hp
  case scrub => exact scrubStep_advance hp

end

/-! ### The engine's step of a command in flight -/

/-- A state with another phase and another datapath, and with what the engine's accesses leave: the memory, the older
bytes and the draws. -/
def advanceTo (s : State) (p : Phase) (dp : Datapath) (mem : Memory) (past : List Host.Cell) (draws : Nat) : State :=
  { s with phase := p, dp := dp, mem := mem, past := past, draws := draws }

/-- A micro-op that keeps the frame and the configuration changes nothing else. -/
theorem eq_advanceTo_of_frame {s t : State} (hf : MicroOpFrame s t) (hactive : t.active = s.active) :
    t = advanceTo s t.phase t.dp t.mem t.past t.draws := by
  obtain ⟨hregs, hbusy, hdone, hovr, herr, hlen, hlatch, hturns, hresp, -, -⟩ := hf
  cases t
  simp_all [advanceTo]

/-- Everything the engine's step from `s` to `t` can be while a command is in flight. -/
inductive EngineStep (s t : State) : Prop where
  | check (phase : s.phase = .check) (run : exec .check s = .next t)
  | advance {p : Phase} {dp : Datapath} (mem : Memory) (past : List Host.Cell) (draws : Nat) (check : s.phase ≠ .check)
      (finish : s.phase ≠ .finish) (leads : Advance Config.platform s p dp)
      (eq : t = advanceTo s p dp mem past draws)
  | finish (phase : s.phase = .finish) (eq : t = deliverOutcome s)

theorem engineStep_of_step {s t : State} (hreg : RegisterInv s) (hflight : FlightInv Config.platform s)
    (hb : s.busy = true) (hnext : EngineIsNext s) (h : step s = .next t) : EngineStep (dropTurn s) t := by
  cases stepCase_of_step h with
  | microOp i _ _ isOp ne_finish run =>
    by_cases hcheck : s.phase = .check
    · rw [hcheck] at isOp
      cases isOp
      exact .check hcheck run
    · have hi : i ≠ .check := by
        rintro rfl
        cases hp : s.phase <;> simp [hp, microOp] at isOp hcheck
      obtain ⟨hf, hactive⟩ := exec_microOp_frame (s := dropTurn s) isOp ne_finish run
      exact .advance _ _ _ hcheck ne_finish (exec_microOp_advance (s := dropTurn s) hflight isOp hcheck ne_finish run)
        (eq_advanceTo_of_frame hf (hactive hi))
  | finish _ _ phase eq => exact .finish phase eq
  | noStep _ idle _ =>
    obtain ⟨⟨-, hne⟩, -⟩ := hreg
    exact absurd (idle hb) (hne hb)
  | command w ts turns _ => exact absurd hnext (not_engineIsNext_of_host turns)
  | access a ts turns _ _ => exact absurd hnext (not_engineIsNext_of_host turns)
  | reset ts turns _ => exact absurd hnext (not_engineIsNext_of_reset turns)

/-! ### The sequence of phases -/

/-- The pairs of a phase and the next one that R177 allows. -/
def phasePairs : List (Phase × Phase) :=
  [(Phase.check, Phase.macB0), (.check, .finish), (.macB0, .macAd), (.macB0, .ctrS0), (.macAd, .macAd),
    (.macAd, .ctrS0), (.macAd, .finish), (.ctrS0, .textCtr), (.ctrS0, .tag), (.textCtr, .textMac),
    (.textCtr, .scrub), (.textCtr, .finish), (.textMac, .textCtr), (.textMac, .tag), (.tag, .scrub),
    (.tag, .finish), (.scrub, .scrub), (.scrub, .finish), (.finish, .idle)]

/-- Nothing is written before the text phases (R177). -/
theorem written_of_macAd {cfg : Platform} {s : State} (hflight : FlightInv cfg s) (hp : s.phase = .macAd) :
    s.dp.written = 0 := by
  unfold FlightInv at hflight
  rw [hp] at hflight
  obtain ⟨-, hw, -⟩ := hflight
  exact hw

theorem advance_phasePairs {cfg : Platform} {s : State} {p : Phase} {dp : Datapath} (hflight : FlightInv cfg s)
    (h : Advance cfg s p dp) : (s.phase, p) ∈ phasePairs := by
  cases h
  case mismatch hphase _ =>
    rw [hphase, afterFailure]
    split <;> decide
  case busError w hphase hunwritten _ =>
    simp only [List.mem_cons, List.not_mem_nil, or_false] at hphase
    obtain hp | hp | hp := hphase
    · rw [hunwritten hp, written_of_macAd hflight hp, hp]
      decide
    · rw [hp]
      split <;> decide
    · rw [hp]
      split <;> decide
  all_goals
    rename s.phase = _ => hphase
    rw [hphase]
    decide

theorem engineStep_phasePairs {s t : State} (hflight : FlightInv Config.platform s) (h : EngineStep s t) :
    (s.phase, t.phase) ∈ phasePairs := by
  cases h with
  | check phase run =>
    rw [phase]
    obtain ⟨-, rfl⟩ | ⟨-, ⟨e, rfl⟩ | ⟨mc, rfl⟩⟩ := exec_check_cases run
    · exact (by decide : (Phase.check, Phase.finish) ∈ phasePairs)
    · exact (by decide : (Phase.check, Phase.finish) ∈ phasePairs)
    · exact (by decide : (Phase.check, Phase.macB0) ∈ phasePairs)
  | advance mem past draws _ _ leads eq =>
    subst eq
    exact advance_phasePairs hflight leads
  | finish phase eq =>
    rw [phase, eq]
    exact (by decide : (Phase.finish, Phase.idle) ∈ phasePairs)

/-- A command scrubs only after a failure (R180). -/
theorem pendErr_of_scrub {cfg : Platform} {s : State} (hflight : FlightInv cfg s) (hp : s.phase = .scrub) :
    s.dp.pendErr = .authenticationFailed ∨ s.dp.pendErr = .busError := by
  unfold FlightInv at hflight
  rw [hp] at hflight
  obtain ⟨-, herr, -⟩ := hflight
  exact herr

/-- Settles O50: the pairs by the cases of the engine's step, and SCRUB's reason from the invariant after it. -/
theorem phaseSequence : Obligations.PhaseSequence := by
  intro s t hreg hflight hb hnext h
  exact ⟨engineStep_phasePairs (s := dropTurn s) hflight (engineStep_of_step hreg hflight hb hnext h),
    pendErr_of_scrub (stepKeepsFlightInvariant s t hreg hflight h)⟩

end Sys2Proof.Machine

/-! Commands left to the engine: every step lowers `stepsLeft`, so each of them comes to FINISH (R187, R246; log 8). -/

namespace Sys2Proof.Machine

open Sys2Proof.Config (Platform)
open Sys2Proof.Safety

/-! ### What an advance keeps -/

section

variable {cfg : Platform} {s : State} {p : Phase} {dp : Datapath}

/-- The payload length and the number of text blocks stay as CHECK set them (R174). -/
theorem advance_keeps_lengths (h : Advance cfg s p dp) : dp.m = s.dp.m ∧ dp.nTxt = s.dp.nTxt := by
  cases h <;> exact ⟨rfl, rfl⟩

theorem outSize_advanceTo (h : Advance cfg s p dp) (mem : Memory) (past : List Host.Cell) (draws : Nat) :
    outSize (advanceTo s p dp mem past draws) = outSize s := outSize_congr rfl rfl (advance_keeps_lengths h).1

/-! ### The measure -/

/-- A tag is no longer than a block, so the output has at most one block more than the text. -/
theorem ceil16_outSize_le (hreg : RegisterInv s) (hacc : TextAccepted s) : ceil16 (outSize s) ≤ s.dp.nTxt + 1 := by
  have hT := tagLen_le_of_registerInv hreg hacc
  have hblocks := nTxt_covers_payload hacc
  rw [ceil16_le_iff]
  obtain hc | hc := commandOf_of_textAccepted hacc
  · rw [outSize_of_seal hc]
    omega
  · rw [outSize_of_open hc]
    omega

theorem ceil16_pos {n : Nat} (h : 0 < n) : 0 < ceil16 n := by
  unfold ceil16
  omega

/-- Scrubbing the next bytes due leaves a block less to scrub (R180). -/
theorem ceil16_sub_scrubCount (hpos : s.dp.scrubPos < s.dp.written) :
    ceil16 (s.dp.written - (s.dp.scrubPos + scrubCount s)) + 1 = ceil16 (s.dp.written - s.dp.scrubPos) := by
  unfold scrubCount
  unfold ceil16
  omega

/-- Once a command has failed or its tag is done, only the scrubbing of its output is left (R180). -/
theorem stepsLeft_le_of_ended (hflight : FlightInv cfg s) (hp : s.phase = .scrub ∨ s.phase = .finish) :
    stepsLeft s ≤ 1 + ceil16 (outSize s) := by
  obtain hp | hp := hp
  · unfold FlightInv at hflight
    rw [hp] at hflight
    obtain ⟨-, -, -, hw⟩ := hflight
    have hrest := ceil16_mono ((Nat.sub_le s.dp.written s.dp.scrubPos).trans hw)
    simp only [stepsLeft, hp]
    omega
  · simp only [stepsLeft, hp]
    omega

/-- Every phase that can fail has room for the scrubbing (R187). -/
theorem le_stepsLeft_of_phase (hreg : RegisterInv s) (hacc : TextAccepted s)
    (hp : s.phase ∈ [Phase.macAd, .textCtr, .tag]) : 2 + ceil16 (outSize s) ≤ stepsLeft s := by
  have htail := ceil16_outSize_le hreg hacc
  simp only [List.mem_cons, List.not_mem_nil, or_false] at hp
  obtain hp | hp | hp := hp <;> simp only [stepsLeft, hp] <;> omega

/-- A step that ends a command, by a failure or with its tag, lowers the measure. -/
theorem stepsLeft_lt_of_ended {mem : Memory} {past : List Host.Cell} {draws : Nat} (hreg : RegisterInv s)
    (hacc : TextAccepted s) (hflight' : FlightInv cfg (advanceTo s p dp mem past draws)) (h : Advance cfg s p dp)
    (hp : s.phase ∈ [Phase.macAd, .textCtr, .tag]) (hended : p = .scrub ∨ p = .finish) :
    stepsLeft (advanceTo s p dp mem past draws) < stepsLeft s := by
  have hafter := stepsLeft_le_of_ended hflight' hended
  have hbefore := le_stepsLeft_of_phase hreg hacc hp
  rw [outSize_advanceTo h] at hafter
  omega

theorem afterFailure_ended (s : State) : afterFailure s = .scrub ∨ afterFailure s = .finish := by
  unfold afterFailure
  split <;> simp

/-- Every advance lowers the measure, phase by phase (R187). -/
theorem stepsLeft_advanceTo_lt {mem : Memory} {past : List Host.Cell} {draws : Nat} (hreg : RegisterInv s)
    (hflight : FlightInv cfg s) (hflight' : FlightInv cfg (advanceTo s p dp mem past draws)) (hacc : TextAccepted s)
    (h : Advance cfg s p dp) : stepsLeft (advanceTo s p dp mem past draws) < stepsLeft s := by
  have hsize := outSize_advanceTo h mem past draws
  have htail := ceil16_outSize_le hreg hacc
  have hadv := h
  unfold FlightInv at hflight
  cases h
  case sealed hp | opened hp => exact stepsLeft_lt_of_ended hreg hacc hflight' hadv (by simp [hp]) (.inr rfl)
  case mismatch hp _ =>
    exact stepsLeft_lt_of_ended hreg hacc hflight' hadv (by simp [hp]) (afterFailure_ended s)
  case busError w hp _ _ =>
    exact stepsLeft_lt_of_ended hreg hacc hflight' hadv hp (by split <;> simp)
  case scrubMore hp _ =>
    rw [hp] at hflight
    obtain ⟨-, -, hpos, -⟩ := hflight
    have hrest := ceil16_sub_scrubCount hpos
    simp only [stepsLeft, advanceTo, hp]
    omega
  case scrubLast hp _ =>
    rw [hp] at hflight
    obtain ⟨-, -, hpos, -⟩ := hflight
    have hrest := ceil16_pos (Nat.sub_pos_of_lt hpos)
    simp only [stepsLeft, advanceTo, hp]
    omega
  case nextAd hp _ | lastAd hp _ =>
    rw [hp] at hflight
    obtain ⟨-, -, -, -, hj⟩ := hflight
    simp only [stepsLeft, advanceTo, hp]
    omega
  case nextText hp _ | lastText hp _ =>
    rw [hp] at hflight
    obtain ⟨-, -, -, hi, -⟩ := hflight
    unfold advanceTo at hsize
    simp only [stepsLeft, advanceTo, hp, hsize]
    omega
  case startAd hp _ | skipAd hp _ | startText hp _ | skipText hp _ | textBlock hp =>
    unfold advanceTo at hsize
    simp only [stepsLeft, advanceTo, hp, hsize]
    omega

end

/-- The text blocks of an accepted command are no more than its text-in region has (R174). -/
theorem nTxt_le_of_textAccepted {s : State} (hacc : TextAccepted s) : s.dp.nTxt ≤ ceil16 (inLen s) := by
  have hin := payloadLen_add_tagInSize hacc
  obtain ⟨-, -, -, hnTxt, -⟩ := hacc
  rw [hnTxt]
  exact ceil16_mono (by omega)

theorem stepsLeft_check_lt {s t : State} (hp : s.phase = .check) (hflight' : FlightInv Config.platform t)
    (h : exec .check s = .next t) : stepsLeft t < stepsLeft s := by
  have hbefore : stepsLeft s = 6 + adBlockCount (adLen s) + 3 * (ceil16 (inLen s) + 2) := by simp only [stepsLeft, hp]
  have hfinish {u : State} (hu : u.phase = .finish) : stepsLeft u < stepsLeft s := by
    rw [hbefore]
    simp only [stepsLeft, hu]
    omega
  obtain ⟨-, rfl⟩ | ⟨-, ⟨e, rfl⟩ | ⟨mc, rfl⟩⟩ := exec_check_cases h
  · exact hfinish rfl
  · exact hfinish rfl
  · obtain ⟨hacc, -⟩ := hflight'
    have hblocks : (beginText mc s).dp.nTxt ≤ ceil16 (inLen s) := nTxt_le_of_textAccepted hacc
    have hafter : stepsLeft (beginText mc s)
        = 5 + adBlockCount (adLen s) + 3 * ((beginText mc s).dp.nTxt + 1) := rfl
    omega

theorem engineStep_lowers {s t : State} (hreg : RegisterInv s) (hb : s.busy = true)
    (hflight : FlightInv Config.platform s) (hflight' : FlightInv Config.platform t) (h : EngineStep s t) :
    stepsLeft t < stepsLeft s := by
  cases h with
  | check phase run => exact stepsLeft_check_lt phase hflight' run
  | advance mem past draws check finish leads eq =>
    have ⟨⟨_, hidle⟩, _⟩ := hreg
    subst eq
    exact stepsLeft_advanceTo_lt hreg hflight hflight' (textAccepted_of_flightInv hflight (hidle hb) check finish) leads
  | finish phase eq =>
    subst eq
    simp [stepsLeft, phase]

/-- Settles O51: CHECK and FINISH lower the measure, and so does every advance between them. -/
theorem engineStepLowersTheMeasure : Obligations.EngineStepLowersTheMeasure := by
  intro s t hreg hflight hb hnext h
  exact engineStep_lowers (s := dropTurn s) hreg hb hflight (stepKeepsFlightInvariant s t hreg hflight h)
    (engineStep_of_step hreg hflight hb hnext h)

/-! ### A command left to the engine -/

/-- A command that has passed CHECK is in flight and left to the engine. -/
structure Running (s : State) : Prop where
  registerInv : RegisterInv s
  flightInv : FlightInv Config.platform s
  busy : s.busy = true
  turns : s.turns = []
  checked : s.phase ≠ .check

theorem dropTurn_of_no_turns {s : State} (h : s.turns = []) : dropTurn s = s := by
  rw [dropTurn, h, List.tail_nil, ← h]

theorem checkText_answers (isOpen : Bool) (nlen : BitVec 4) (s : State) :
    (∃ t, checkText isOpen nlen s = .next t) ∨ checkText isOpen nlen s = .refused .overlappingBuffers := by
  unfold checkText
  split
  · exact .inl ⟨_, rfl⟩
  · split
    · exact .inr rfl
    · exact .inl ⟨_, rfl⟩

/-- CHECK answers a next state or refuses the buffers (R69, log 8). -/
theorem exec_check_answers (s : State) :
    (∃ t, exec .check s = .next t) ∨ exec .check s = .refused .overlappingBuffers := by
  match hc : commandOf s with
  | .config => exact .inl ⟨_, exec_check_of_config hc⟩
  | .seal n =>
    rw [exec_check_of_seal hc]
    exact checkText_answers false n s
  | .openCmd n =>
    rw [exec_check_of_open hc]
    exact checkText_answers true n s
  | .bad w => exact .inl ⟨_, exec_check_of_bad hc⟩

/-- Every micro-op after CHECK answers a next state: TAG's command is a SEAL or an OPEN (R177). -/
theorem exec_microOp_answers {s : State} {i : Instr} (hflight : FlightInv Config.platform s)
    (hi : microOp s.phase = some i) (hcheck : s.phase ≠ .check) : ∃ t, exec i s = .next t := by
  cases hp : s.phase <;> simp only [hp, microOp, Option.some.injEq, reduceCtorEq] at hi <;> subst hi
  case check => exact absurd hp hcheck
  case tag =>
    have hacc := textAccepted_of_flightInv hflight (by simp [hp]) (by simp [hp]) (by simp [hp])
    obtain hc | hc := commandOf_of_textAccepted hacc
    · exact ⟨_, exec_tag_of_seal hc⟩
    · exact ⟨_, exec_tag_of_open hc⟩
  all_goals exact ⟨_, rfl⟩

theorem exists_microOp {s : State} (hreg : RegisterInv s) (hb : s.busy = true) : ∃ i, microOp s.phase = some i := by
  obtain ⟨⟨-, hne⟩, -⟩ := hreg
  cases hp : s.phase
  case idle => exact absurd hp (hne hb)
  all_goals exact ⟨_, rfl⟩

theorem not_check_of_phasePairs {p q : Phase} (h : (p, q) ∈ phasePairs) : q ≠ .check := by
  rintro rfl
  simp [phasePairs] at h

theorem step_keeps_no_turns {s t : State} (hs : s.turns = []) (h : EngineStep s t) : t.turns = [] := by
  cases h with
  | check _ run => exact (exec_check_frame run).turns.trans hs
  | advance _ _ _ _ _ _ eq => exact eq ▸ hs
  | finish _ eq => exact eq ▸ hs

/-- Where a command left to the engine is after a step before FINISH: still running. -/
theorem running_of_step {s t : State} (hreg : RegisterInv s) (hflight : FlightInv Config.platform s)
    (hb : s.busy = true) (hturns : s.turns = []) (hfinish : s.phase ≠ .finish) (h : step s = .next t) :
    Running t := by
  have hstep := engineStep_of_step hreg hflight hb (.inl hturns) h
  have hbusy : t.busy = true :=
    (step_busy_iff h).mpr (.inr ⟨hb, fun hf => hfinish hf.2, not_resetIsNext_of_engine (.inl hturns)⟩)
  rw [dropTurn_of_no_turns hturns] at hstep
  exact ⟨stepKeepsRegisterInvariant s t hreg h, stepKeepsFlightInvariant s t hreg hflight h, hbusy,
    step_keeps_no_turns hturns hstep, not_check_of_phasePairs (engineStep_phasePairs hflight hstep)⟩

theorem Running.step_of_finish {s : State} (hs : Running s) (hp : s.phase = .finish) :
    step s = .next (deliverOutcome s) := by
  have h := Machine.step_of_finish (.inl hs.turns) hs.busy hp
  rwa [dropTurn_of_no_turns hs.turns] at h

theorem Running.exists_step {s : State} (hs : Running s) : ∃ t, step s = .next t := by
  obtain ⟨i, hi⟩ := exists_microOp hs.registerInv hs.busy
  rw [step_of_microOp (.inl hs.turns) hs.busy hi, dropTurn_of_no_turns hs.turns]
  exact exec_microOp_answers hs.flightInv hi hs.checked

theorem run_zero (s : State) : Host.Core.run Sys2Proof.core 0 s = .next s := rfl

theorem run_succ {s t : State} (h : step s = .next t) (k : Nat) :
    Host.Core.run Sys2Proof.core (k + 1) s = Host.Core.run Sys2Proof.core k t := by
  have hcore : Sys2Proof.core.step s = .next t := h
  simp only [Host.Core.run, hcore]

/-- The engine is busy after every number of steps below `k`, from `s` on. -/
def BusyBelow (k : Nat) (s : State) : Prop :=
  ∀ j < k, ∃ r : State, Host.Core.run Sys2Proof.core j s = .next r ∧ r.busy = true

theorem busyBelow_succ {s t : State} {k : Nat} (hb : s.busy = true) (h : step s = .next t) (ht : BusyBelow k t) :
    BusyBelow (k + 1) s := by
  intro j hj
  cases j with
  | zero => exact ⟨s, run_zero s, hb⟩
  | succ j =>
    rw [run_succ h]
    exact ht j (Nat.lt_of_succ_lt_succ hj)

/-- A command left to the engine comes to FINISH, and whatever holds of it now and is kept by every step holds of the
state that FINISH delivers; `P` may count the steps (R187). -/
theorem Running.run_to_finish {P : Nat → State → Prop}
    (hP : ∀ j s t, Running s → s.phase ≠ .finish → step s = .next t → P j s → P (j + 1) t) :
    ∀ {s : State} {j : Nat}, Running s → P j s →
      ∃ k f, BusyBelow (k + 1) s ∧ Host.Core.run Sys2Proof.core (k + 1) s = .next (deliverOutcome f)
        ∧ Running f ∧ f.phase = .finish ∧ P (j + k) f := by
  intro s
  induction hn : stepsLeft s using Nat.strong_induction_on generalizing s with
  | _ n ih =>
    intro j hs hj
    by_cases hp : s.phase = .finish
    · refine ⟨0, s, ?_, (run_succ (hs.step_of_finish hp) 0).trans (run_zero _), hs, hp, hj⟩
      exact busyBelow_succ hs.busy (hs.step_of_finish hp) fun j hj => absurd hj (Nat.not_lt_zero j)
    · obtain ⟨t, h⟩ := hs.exists_step
      have ht := running_of_step hs.registerInv hs.flightInv hs.busy hs.turns hp h
      have hlt := engineStepLowersTheMeasure s t hs.registerInv hs.flightInv hs.busy (.inl hs.turns) h
      obtain ⟨k, f, hbusy, hrun, hf, hfp, hPf⟩ := ih _ (hn ▸ hlt) rfl ht (hP j s t hs hp h hj)
      refine ⟨k + 1, f, busyBelow_succ hs.busy h hbusy, (run_succ h _).trans hrun, hf, hfp, ?_⟩
      rwa [Nat.add_right_comm, Nat.add_assoc] at hPf

/-- A running command is done within `stepsLeft` steps (R187). -/
theorem Running.terminates {s : State} (hs : Running s) :
    ∃ k ≤ stepsLeft s, ∃ t : State, Host.Core.run Sys2Proof.core k s = .next t ∧ t.busy = false := by
  obtain ⟨k, f, -, hrun, -, hp, hk⟩ := hs.run_to_finish (P := fun j u => j + stepsLeft u ≤ stepsLeft s)
    (fun j u t hu _ h hj => by
      have hlt := engineStepLowersTheMeasure u t hu.registerInv hu.flightInv hu.busy (.inl hu.turns) h
      omega)
    (Nat.zero_add _).le
  have hlast : stepsLeft f = 1 := by simp only [stepsLeft, hp]
  exact ⟨k + 1, by omega, _, hrun, rfl⟩

/-- Settles O52: CHECK refuses the buffers or takes the first step, and a command past CHECK runs to FINISH. -/
theorem commandsTerminate : Obligations.CommandsTerminate := by
  intro s hreg hflight hturns
  cases hb : s.busy with
  | false => exact .inl ⟨0, Nat.zero_le _, s, run_zero s, hb⟩
  | true =>
    by_cases hcheck : s.phase = .check
    · have hstep : step s = exec .check s := by
        rw [step_of_microOp (i := .check) (.inl hturns) hb (by rw [hcheck]; rfl), dropTurn_of_no_turns hturns]
      obtain ⟨t, h⟩ | hrefused := exec_check_answers s
      · rw [← hstep] at h
        have ht := running_of_step hreg hflight hb hturns (by simp [hcheck]) h
        have hlt := engineStepLowersTheMeasure s t hreg hflight hb (.inl hturns) h
        obtain ⟨k, hk, u, hrun, hidle⟩ := ht.terminates
        exact .inl ⟨k + 1, by omega, u, (run_succ h k).trans hrun, hidle⟩
      · exact .inr ⟨hcheck, hstep.trans hrefused⟩
    · exact .inl (Running.terminates ⟨hreg, hflight, hb, hturns, hcheck⟩)

end Sys2Proof.Machine

/-! Whole runs of SEAL and OPEN: what a command left to the engine leaves in memory, its outcome, and the number of
engine steps it takes (R95, R96, R170, R171, R177, R182, R247). -/

namespace Sys2Proof.Machine

open Sys2Proof.Config (Platform)
open Sys2Proof.Safety

/-! ### Counting the steps -/

/-- The engine steps that a text command past CHECK still takes when no access is refused and its tag is not yet found
to differ (R177, R247). -/
def stepsToEnd (s : State) : Nat :=
  match s.phase with
  | .idle | .check => 0
  | .macB0 => 4 + adBlockCount (adLen s) + 2 * s.dp.nTxt
  | .macAd => 3 + (s.dp.nAD - s.dp.j) + 2 * s.dp.nTxt
  | .ctrS0 => 3 + 2 * s.dp.nTxt
  | .textCtr => 2 + 2 * (s.dp.nTxt + 1 - s.dp.i)
  | .textMac => 1 + 2 * (s.dp.nTxt + 1 - s.dp.i)
  | .tag => 2
  | .scrub => 1 + ceil16 (s.dp.written - s.dp.scrubPos)
  | .finish => 1

/-- The engine steps of a whole text command that ends with OK (R247). -/
def wholeSteps (s : State) : Nat := 5 + adBlockCount (adLen s) + 2 * s.dp.nTxt

/-- How a text command past CHECK stands after `j` engine steps: on its way to OK; failed at its tag, with its output
to be scrubbed; or ended by a refused access (R177, R179, R213, R247). -/
inductive Clock (j : Nat) (s : State) : Prop where
  | onTime (err : s.dp.pendErr = .ok) (count : j + stepsToEnd s = wholeSteps s)
  | mismatch (err : s.dp.pendErr = .authenticationFailed) (isOpen : commandOf s = .openCmd s.active.n)
      (written : s.dp.written = payloadLen s) (count : j + stepsToEnd s = wholeSteps s + s.dp.nTxt)
  | busError (err : s.dp.pendErr = .busError)

section

variable {cfg : Platform} {s : State} {p : Phase} {dp : Datapath} {mem : Memory} {past : List Host.Cell} {draws j : Nat}

theorem Clock.onTime_of_ok (h : Clock j s) (hok : s.dp.pendErr = .ok) : j + stepsToEnd s = wholeSteps s := by
  cases h with
  | onTime _ count => exact count
  | mismatch err => simp [hok] at err
  | busError err => simp [hok] at err

/-- Nothing has failed before SCRUB and FINISH (R177). -/
theorem pendErr_ok_of_flightInv (hflight : FlightInv cfg s)
    (hp : s.phase ∈ [Phase.macB0, .macAd, .ctrS0, .textCtr, .textMac, .tag]) : s.dp.pendErr = .ok := by
  unfold FlightInv at hflight
  simp only [List.mem_cons, List.not_mem_nil, or_false] at hp
  obtain hp | hp | hp | hp | hp | hp := hp <;> rw [hp] at hflight
  case inl | inr.inr.inl =>
    obtain ⟨-, -, hok⟩ := hflight
    exact hok
  case inr.inl =>
    obtain ⟨-, -, hok, -⟩ := hflight
    exact hok
  all_goals
    obtain ⟨-, hok, -⟩ := hflight
    exact hok

/-- An engine step before SCRUB takes its part of the steps counted (R177). -/
theorem stepsToEnd_advanceTo (hflight : FlightInv cfg s) (h : Advance cfg s p dp)
    (hok : dp.pendErr = .ok) : stepsToEnd (advanceTo s p dp mem past draws) + 1 = stepsToEnd s := by
  unfold FlightInv at hflight
  cases h
  case mismatch | busError => cases hok
  case scrubMore hp _ | scrubLast hp _ =>
    rw [hp] at hflight
    obtain ⟨-, herr, -⟩ := hflight
    simp [show s.dp.pendErr = .ok from hok] at herr
  case skipAd hp had =>
    have hcount : adBlockCount (adLen s) = 0 := if_pos (Nat.eq_zero_of_not_pos had)
    simp only [stepsToEnd, advanceTo, hp]
    omega
  case nextAd hp _ | lastAd hp _ =>
    rw [hp] at hflight
    obtain ⟨-, -, -, -, hj⟩ := hflight
    simp only [stepsToEnd, advanceTo, hp]
    omega
  case nextText hp _ | lastText hp _ =>
    rw [hp] at hflight
    obtain ⟨-, -, -, hi, -⟩ := hflight
    simp only [stepsToEnd, advanceTo, hp]
    omega
  case sealed hp | opened hp => simp only [stepsToEnd, advanceTo, hp]
  case startAd hp _ | startText hp _ | skipText hp _ | textBlock hp =>
    simp only [stepsToEnd, advanceTo, hp]
    omega

theorem wholeSteps_advanceTo (h : Advance cfg s p dp) :
    wholeSteps (advanceTo s p dp mem past draws) = wholeSteps s := by
  have hnTxt : (advanceTo s p dp mem past draws).dp.nTxt = s.dp.nTxt := (advance_keeps_lengths h).2
  rw [wholeSteps, hnTxt]
  rfl

/-- A failed command has its blocks to scrub left, and FINISH (R180). -/
theorem stepsToEnd_of_failure (hphase : s.phase = afterFailure s) (hscrub : s.dp.scrubPos = 0) :
    stepsToEnd s = 1 + ceil16 s.dp.written := by
  unfold afterFailure at hphase
  split at hphase
  next => simp only [stepsToEnd, hphase, hscrub, Nat.sub_zero]
  next hw =>
    have hempty : ceil16 s.dp.written = 0 := by
      unfold ceil16
      omega
    simp only [stepsToEnd, hphase, hempty]

/-- A step of SCRUB scrubs a block (R180). -/
theorem stepsToEnd_of_scrub (hflight : FlightInv cfg s) (hp : s.phase = .scrub) (h : Advance cfg s p dp) :
    stepsToEnd (advanceTo s p dp mem past draws) + 1 = stepsToEnd s := by
  unfold FlightInv at hflight
  rw [hp] at hflight
  obtain ⟨-, -, hpos, -⟩ := hflight
  have hrest := ceil16_sub_scrubCount hpos
  cases h
  case scrubMore =>
    simp only [stepsToEnd, advanceTo, hp]
    omega
  case scrubLast _ hlast =>
    have hempty : ceil16 0 = 0 := rfl
    rw [hlast, Nat.sub_self, hempty] at hrest
    simp only [stepsToEnd, advanceTo, hp]
    omega
  -- every other advance starts in another phase
  all_goals simp_all

theorem clock_advanceTo_of_ok (hflight : FlightInv cfg s) (h : Advance cfg s p dp) (hclock : Clock j s)
    (hbefore : s.dp.pendErr = .ok) (hafter : dp.pendErr = .ok) :
    Clock (j + 1) (advanceTo s p dp mem past draws) := by
  have hcount := hclock.onTime_of_ok hbefore
  have hstep := stepsToEnd_advanceTo (mem := mem) (past := past) (draws := draws) hflight h hafter
  refine .onTime hafter ?_
  rw [wholeSteps_advanceTo h]
  omega

/-- The tag is compared when the whole text is written; what is left then is to scrub it (R179, R180). -/
theorem clock_advanceTo_of_mismatch (hflight : FlightInv cfg s) (hclock : Clock j s) (hp : s.phase = .tag)
    (hopen : commandOf s = .openCmd s.active.n) (diff : Byte) :
    Clock (j + 1) (advanceTo s (afterFailure s)
      { s.dp with diff := diff, pendErr := .authenticationFailed, scrubPos := 0 } mem past draws) := by
  have hcount := hclock.onTime_of_ok (pendErr_ok_of_flightInv hflight (by simp [hp]))
  have htag : stepsToEnd s = 2 := by simp only [stepsToEnd, hp]
  unfold FlightInv at hflight
  rw [hp] at hflight
  obtain ⟨⟨-, -, -, hnTxt, -⟩, -, -, hw⟩ := hflight
  refine .mismatch rfl hopen hw ?_
  rw [stepsToEnd_of_failure rfl rfl]
  show j + 1 + (1 + ceil16 s.dp.written) = wholeSteps s + s.dp.nTxt
  rw [hw, ← hnTxt]
  omega

theorem clock_advanceTo_of_scrub (hflight : FlightInv cfg s) (h : Advance cfg s p dp) (hclock : Clock j s)
    (hp : s.phase = .scrub) (herr : dp.pendErr = s.dp.pendErr) (hw : dp.written = s.dp.written) :
    Clock (j + 1) (advanceTo s p dp mem past draws) := by
  have hstep := stepsToEnd_of_scrub (mem := mem) (past := past) (draws := draws) hflight hp h
  have hfailed := pendErr_of_scrub hflight hp
  obtain ⟨hm, hnTxt⟩ := advance_keeps_lengths h
  cases hclock with
  | onTime err _ => simp [err] at hfailed
  | mismatch err isOpen written count =>
    have hlen : payloadLen (advanceTo s p dp mem past draws) = payloadLen s := payloadLen_congr hm
    refine .mismatch (herr.trans err) isOpen (hw.trans (written.trans hlen.symm)) ?_
    rw [wholeSteps_advanceTo h]
    show j + 1 + stepsToEnd (advanceTo s p dp mem past draws) = wholeSteps s + dp.nTxt
    omega
  | busError err => exact .busError (herr.trans err)

/-- The count goes on with every engine step between CHECK and FINISH. -/
theorem clock_advanceTo (hflight : FlightInv cfg s) (h : Advance cfg s p dp) (hclock : Clock j s) :
    Clock (j + 1) (advanceTo s p dp mem past draws) := by
  have hadv := h
  cases h
  case busError => exact .busError rfl
  case mismatch diff hp hopen => exact clock_advanceTo_of_mismatch hflight hclock hp hopen diff
  case scrubMore hp _ | scrubLast hp _ => exact clock_advanceTo_of_scrub hflight hadv hclock hp rfl rfl
  case sealed hp | opened hp =>
    exact clock_advanceTo_of_ok hflight hadv hclock (pendErr_ok_of_flightInv hflight (by simp [hp])) rfl
  case startAd hp _ | skipAd hp _ | nextAd hp _ | lastAd hp _ | startText hp _ | skipText hp _ | textBlock hp
    | nextText hp _ | lastText hp _ =>
    have hok := pendErr_ok_of_flightInv hflight (by simp [hp])
    exact clock_advanceTo_of_ok hflight hadv hclock hok hok

/-! ### A refused access is the only BusError -/

theorem buffersAdmitted_of_advanceTo (h : Advance cfg s p dp)
    (hadm : BuffersAdmitted cfg (advanceTo s p dp mem past draws)) : BuffersAdmitted cfg s := by
  obtain ⟨had, hin, hout⟩ := hadm
  rw [outSize_advanceTo h] at hout
  exact ⟨had, hin, hout⟩

theorem advance_busError (h : Advance cfg s p dp) (hadm : BuffersAdmitted cfg s)
    (hbefore : s.dp.pendErr ≠ .busError) : dp.pendErr ≠ .busError := by
  cases h
  case busError hrefused => exact absurd hadm hrefused
  case sealed | opened | mismatch => simp
  all_goals exact hbefore

theorem textAccepted_advanceTo (h : Advance cfg s p dp) (hacc : TextAccepted s) :
    TextAccepted (advanceTo s p dp mem past draws) := by
  cases h <;> exact hacc

end

/-! ### A text command from its acceptance on -/

/-- The parameters that the acceptance of word `w` latches (R42, R173). -/
def acceptedLatches (w : Word) (r : HostRegs) : Latches :=
  { cmdWord := w, cfg := cfgWord r, nonce := nonceBlock r, adAddr := r.adAddr, adLen := r.adLen, inAddr := r.inAddr,
    inLen := r.inLen, outAddr := r.outAddr }

/-- How the SEAL or OPEN of word `w`, accepted in the state `s` and past CHECK with payload length `mc`, stands after
`j` engine steps, when no host access raced it. -/
structure TextRun (s : State) (w : Word) (mc j : Nat) (f : State) : Prop where
  accepted : TextAccepted f
  regs : f.regs = s.regs
  active : f.active = s.active
  latch : f.latch = acceptedLatches w s.regs
  payload : payloadLen f = mc
  progress : ProgressInv Config.platform s.mem f
  admitted : BuffersAdmitted Config.platform f → f.dp.pendErr ≠ .busError
  clock : Clock j f

/-- An engine step before FINISH carries the run on. -/
theorem TextRun.step {s f t : State} {w : Word} {mc j : Nat} (hf : Running f) (hfinish : f.phase ≠ .finish)
    (h : step f = .next t) (hrun : TextRun s w mc j f) : TextRun s w mc (j + 1) t := by
  have hstep := engineStep_of_step hf.registerInv hf.flightInv hf.busy (.inl hf.turns) h
  have hprogress := engineStepKeepsProgress s.mem f t hf.registerInv hf.flightInv hrun.progress (.inl hf.turns) h
  rw [dropTurn_of_no_turns hf.turns] at hstep
  cases hstep with
  | check phase _ => exact absurd phase hf.checked
  | finish phase _ => exact absurd phase hfinish
  | @advance p dp mem past draws _ _ leads eq =>
    subst eq
    have hlen := payloadLen_congr (t := advanceTo f p dp mem past draws) (advance_keeps_lengths leads).1
    exact
      { accepted := textAccepted_advanceTo leads hrun.accepted
        regs := hrun.regs
        active := hrun.active
        latch := hrun.latch
        payload := hlen.trans hrun.payload
        progress := hprogress
        admitted := fun hadm =>
          have hadm := buffersAdmitted_of_advanceTo leads hadm
          advance_busError leads hadm (hrun.admitted hadm)
        clock := clock_advanceTo hf.flightInv leads hrun.clock }

/-! ### The operands of the run, from the host's registers at acceptance -/

section

variable {s f : State} {w : Word} {mc k : Nat} (h : TextRun s w mc k f)

include h

theorem TextRun.commandOf_eq : commandOf f = decodeCommand w := by rw [commandOf, h.latch]; rfl

theorem TextRun.tagLen_eq : tagLen f = s.active.t.toNat := tagLen_congr h.active

theorem TextRun.adLen_eq : adLen f = s.regs.adLen.toNat := by rw [adLen, h.latch]; rfl

theorem TextRun.adAddr_eq : adAddr f = s.regs.adAddr.toNat := by rw [adAddr, h.latch]; rfl

theorem TextRun.inLen_eq : inLen f = s.regs.inLen.toNat := by rw [inLen, h.latch]; rfl

theorem TextRun.inAddr_eq : inAddr f = s.regs.inAddr.toNat := by rw [inAddr, h.latch]; rfl

theorem TextRun.outAddr_eq : outAddr f = s.regs.outAddr.toNat := by rw [outAddr, h.latch]; rfl

theorem TextRun.nonceOf_eq : nonceOf f = (blockBytes (nonceBlock s.regs)).take s.active.n.toNat := by
  rw [nonceOf, h.latch, nonceLen, h.active]
  rfl

theorem TextRun.wholeSteps_eq : wholeSteps f = 5 + adBlockCount s.regs.adLen.toNat + 2 * ceil16 mc := by
  obtain ⟨-, -, -, hnTxt, -⟩ := h.accepted
  rw [wholeSteps, hnTxt, h.payload, h.adLen_eq]

/-- What OPEN answers for the command, in the host's terms (R171). -/
theorem TextRun.openResult_eq :
    openResult Config.platform s.mem f =
      openOutput Config.platform s.active.t.toNat ((blockBytes (nonceBlock s.regs)).take s.active.n.toNat)
        (readRegion s.mem s.regs.adAddr.toNat s.regs.adLen.toNat) (readRegion s.mem s.regs.inAddr.toNat mc)
        (readRegion s.mem (s.regs.inAddr.toNat + mc) s.active.t.toNat) := by
  rw [openResult, adOf, textIn, tagIn, h.tagLen_eq, h.nonceOf_eq, h.adAddr_eq, h.adLen_eq, h.inAddr_eq, h.payload]

/-- What SEAL writes for the command, in the host's terms (R170). -/
theorem TextRun.sealOutput_eq :
    sealOutput Config.platform (tagLen f) (nonceOf f) (adOf s.mem f) (textIn s.mem f) =
      sealOutput Config.platform s.active.t.toNat ((blockBytes (nonceBlock s.regs)).take s.active.n.toNat)
        (readRegion s.mem s.regs.adAddr.toNat s.regs.adLen.toNat) (readRegion s.mem s.regs.inAddr.toNat mc) := by
  rw [adOf, textIn, h.tagLen_eq, h.nonceOf_eq, h.adAddr_eq, h.adLen_eq, h.inAddr_eq, h.payload]

/-! ### The end of the run -/

/-- A run that ends with OK has written its whole output (R170, R171). -/
theorem TextRun.finish_of_ok (hf : Running f) (hp : f.phase = .finish) (hok : f.dp.pendErr = .ok) :
    MemHolds f.mem s.mem s.regs.outAddr.toNat (outSize f) (wholeOutput Config.platform s.mem f)
      ∧ ∀ n, commandOf f = .openCmd n → openResult Config.platform s.mem f = .ok (textOut Config.platform s.mem f) := by
  have hprogress := h.progress
  have hflight := hf.flightInv
  unfold ProgressInv at hprogress
  unfold FlightInv at hflight
  rw [hp] at hprogress hflight
  obtain ⟨-, hdone⟩ := hflight
  obtain ⟨-, hwhole⟩ := hprogress
  obtain ⟨hmem, hopen⟩ := hwhole hok
  have hw : f.dp.written = outSize f := by
    obtain hconfig | ⟨-, hw⟩ := hdone hok
    · obtain hc | hc := commandOf_of_textAccepted h.accepted <;> cases hc.symm.trans hconfig
    · exact hw
  rw [hw, h.outAddr_eq] at hmem
  exact ⟨hmem, hopen⟩

/-- A run that fails leaves zeros where it wrote, and all else as it was (R180, R182). -/
theorem TextRun.finish_of_failure (hf : Running f) (hp : f.phase = .finish)
    (herr : f.dp.pendErr = .authenticationFailed ∨ f.dp.pendErr = .busError) :
    f.dp.written ≤ outSize f ∧ MemKeeps f.mem s.mem s.regs.outAddr.toNat f.dp.written
      ∧ MemZero f.mem s.regs.outAddr.toNat f.dp.written
      ∧ (f.dp.pendErr = .authenticationFailed →
          openResult Config.platform s.mem f = .error .authenticationFailed) := by
  have hprogress := h.progress
  have hflight := hf.flightInv
  unfold ProgressInv at hprogress
  unfold FlightInv at hflight
  rw [hp] at hprogress hflight
  obtain ⟨hfailed, -⟩ := hflight
  obtain ⟨hscrubbed, -⟩ := hprogress
  obtain ⟨-, -, hw⟩ := hfailed herr
  have hresult := hscrubbed (by obtain he | he := herr <;> simp [he])
  rw [h.outAddr_eq] at hresult
  exact ⟨hw, hresult⟩

/-- The count at FINISH of a run that nothing failed. -/
theorem TextRun.steps_of_ok (hp : f.phase = .finish) (hok : f.dp.pendErr = .ok) :
    k + 1 = 5 + adBlockCount s.regs.adLen.toNat + 2 * ceil16 mc := by
  have hcount := h.clock.onTime_of_ok hok
  have hlast : stepsToEnd f = 1 := by simp only [stepsToEnd, hp]
  rw [hlast, h.wholeSteps_eq] at hcount
  exact hcount

/-- The count at FINISH of a run whose tag differs (R247). -/
theorem TextRun.steps_of_mismatch (hp : f.phase = .finish) (herr : f.dp.pendErr = .authenticationFailed) :
    k + 1 = 5 + adBlockCount s.regs.adLen.toNat + 3 * ceil16 mc := by
  have hlast : stepsToEnd f = 1 := by simp only [stepsToEnd, hp]
  have hwhole := h.wholeSteps_eq
  obtain ⟨-, -, -, hnTxt, -⟩ := h.accepted
  rw [h.payload] at hnTxt
  cases h.clock with
  | onTime err => simp [herr] at err
  | mismatch _ _ _ count => omega
  | busError err => simp [herr] at err

theorem TextRun.buffersAdmitted (had : RegionAdmitted Config.platform .read s.regs.adAddr.toNat s.regs.adLen.toNat)
    (hin : RegionAdmitted Config.platform .read s.regs.inAddr.toNat s.regs.inLen.toNat)
    (hout : RegionAdmitted Config.platform .write s.regs.outAddr.toNat (outSize f)) :
    BuffersAdmitted Config.platform f := by
  constructor
  · rwa [h.adAddr_eq, h.adLen_eq]
  · rwa [h.inAddr_eq, h.inLen_eq]
  · rwa [h.outAddr_eq]

end

/-- A command that the idle engine accepts and that passes CHECK runs to FINISH (R173, R174, R177). -/
theorem exists_textRun {s u : State} {w : Word} {isOpen : Bool} {nlen : BitVec 4} {mc : Nat} (hreg : RegisterInv s)
    (hidle : s.busy = false) (hturns : s.turns = []) (hu : u = acceptCommand w s)
    (hc : decodeCommand w = if isOpen then .openCmd nlen else .seal nlen) (hok : validateText isOpen nlen u = .ok mc)
    (hno : overlapUndefined (beginText mc u) = false) :
    ∃ k f, BusyBelow (k + 1) u ∧ Host.Core.run Sys2Proof.core (k + 1) u = .next (deliverOutcome f)
      ∧ Running f ∧ f.phase = .finish ∧ TextRun s w mc k f := by
  have hregu : RegisterInv u := hu ▸ acceptCommand_registerInv w hreg
  have hflightu : FlightInv Config.platform u := hu ▸ acceptCommand_flight w hreg (flightInv_of_idle hreg hidle)
  have hprogu : ProgressInv Config.platform s.mem u := hu ▸ acceptCommand_progress w hreg hidle
  have ⟨⟨hclean, _⟩, _⟩ := hreg
  obtain ⟨-, hdp, -, -⟩ := hclean hidle
  rw [acceptCommand_idle w s hidle] at hu
  have hb : u.busy = true := by rw [hu]
  have hp : u.phase = .check := by rw [hu]
  have hturnsu : u.turns = [] := by rw [hu]; exact hturns
  have hcu : commandOf u = if isOpen then .openCmd nlen else .seal nlen := by rw [hu]; exact hc
  have hcheck : exec .check u = checkText isOpen nlen u := by
    cases isOpen with
    | false => exact exec_check_of_seal hcu
    | true => exact exec_check_of_open hcu
  have hstep : step u = .next (beginText mc u) := by
    rw [step_of_microOp (i := .check) (.inl hturnsu) hb (by rw [hp]; rfl), dropTurn_of_no_turns hturnsu, hcheck,
      checkText_of_ok hok hno]
  have hrunning := running_of_step hregu hflightu hb hturnsu (by simp [hp]) hstep
  have haccepted := beginText_accepted hcu hok hno
  have hmc : mc ≤ inLen u := by
    obtain ⟨-, -, -, hmc, -⟩ := (validateText_eq_ok_iff ..).mp hok
    split at hmc <;> omega
  have hstart : TextRun s w mc 1 (beginText mc u) :=
    { accepted := haccepted
      regs := by rw [hu]; rfl
      active := by rw [hu]; rfl
      latch := by rw [hu]; rfl
      payload := payloadLen_beginText hmc
      progress := engineStepKeepsProgress s.mem u _ hregu hflightu hprogu (.inl hturnsu) hstep
      admitted := fun _ => by rw [hu]; simp [hdp, zeroDatapath]
      clock := .onTime (by rw [hu]; simp [hdp, zeroDatapath])
        (show 1 + (4 + adBlockCount (adLen u) + 2 * ceil16 mc) = 5 + adBlockCount (adLen u) + 2 * ceil16 mc by omega) }
  obtain ⟨k, f, hbusy, hrun, hf, hfp, hend⟩ :=
    hrunning.run_to_finish (P := TextRun s w mc) (fun _ _ _ hf hne h hrun => hrun.step hf hne h) hstart
  refine ⟨1 + k, f, ?_, ?_, hf, hfp, hend⟩
  · rw [Nat.add_comm 1]
    exact busyBelow_succ hb hstep hbusy
  · rw [Nat.add_comm 1, run_succ hstep, hrun]

/-! ### SEAL -/

/-- CHECK of a command just accepted: the operands are the host's registers (R173, R174). -/
theorem validateText_acceptCommand {s : State} {isOpen : Bool} {w : Word} {mc : Nat} (hidle : s.busy = false)
    (hvalid : s.active.valid = true)
    (hlen : s.regs.inLen.toNat = mc + if isOpen then s.active.t.toNat else 0)
    (hfits : mc < 2 ^ (8 * (15 - s.active.n.toNat))) :
    validateText isOpen s.active.n (acceptCommand w s) = .ok mc := by
  have hin : inLen (acceptCommand w s) = s.regs.inLen.toNat := by rw [acceptCommand_idle w s hidle]; rfl
  have hT : tagLen (acceptCommand w s) = s.active.t.toNat := tagLen_congr (acceptCommand_active w s)
  have hL : lenField (acceptCommand w s) = 15 - s.active.n.toNat := lenField_congr (acceptCommand_active w s)
  rw [validateText_eq_ok_iff, acceptCommand_active, hin, hT, hL]
  cases isOpen with
  | false => exact ⟨hvalid, rfl, by simp, by simpa using hlen.symm, hfits⟩
  | true =>
    simp only [if_true] at hlen ⊢
    exact ⟨hvalid, trivial, fun _ => by omega, by omega, hfits⟩

theorem TextRun.outSize_of_seal {s f : State} {w : Word} {mc k : Nat} (h : TextRun s w mc k f) {n : BitVec 4}
    (hc : commandOf f = .seal n) : outSize f = mc + s.active.t.toNat := by
  rw [Machine.outSize_of_seal hc, h.payload, h.tagLen_eq]

theorem TextRun.outSize_of_open {s f : State} {w : Word} {mc k : Nat} (h : TextRun s w mc k f) {n : BitVec 4}
    (hc : commandOf f = .openCmd n) : outSize f = mc := by
  rw [Machine.outSize_of_open hc, h.payload]

theorem outLenOf_of_seal {s : State} {n : BitVec 4} (h : commandOf s = .seal n) :
    outLenOf s = s.dp.m + s.active.t.setWidth 64 := by
  rw [← ofNat_payloadLen_add_tagLen]
  simp [outLenOf, h]

/-- Settles O54: the run goes to FINISH, on time with OK or after a refused access. -/
theorem sealRun : Obligations.SealRun := by
  rintro s u n hreg hidle hturns hvalid rfl hfits hexec hno
  have hu : u = acceptCommand (textWord 2 s.active.n) s := by
    cases (exec_of_encode_cmd rfl s).symm.trans hexec
    rfl
  have hm : BitVec.ofNat 64 s.regs.inLen.toNat = s.regs.inLen := by simp
  obtain ⟨k, f, hbusy, hrun, hf, hp, h⟩ := exists_textRun (isOpen := false) hreg hidle hturns hu (decodeCommand_seal _)
    (hu ▸ validateText_acceptCommand (isOpen := false) hidle hvalid rfl hfits)
    ((overlapUndefined_beginText u hm).trans hno)
  have hc : commandOf f = .seal s.active.n := h.commandOf_eq.trans (decodeCommand_seal _)
  have hsize := h.outSize_of_seal hc
  refine ⟨k + 1, deliverOutcome f, hbusy, hrun, rfl, rfl, rfl, rfl, h.active, h.regs, fun had hin hout => ?_, ?_⟩
  · have hadm := h.admitted (h.buffersAdmitted had hin (hsize ▸ hout))
    cases h.clock with
    | onTime err _ => exact err
    | mismatch _ isOpen _ _ => cases hc.symm.trans isOpen
    | busError err => exact absurd err hadm
  · cases h.clock with
    | onTime err _ =>
      obtain ⟨hmem, -⟩ := h.finish_of_ok hf hp err
      have hwhole : wholeOutput Config.platform s.mem f
          = sealOutput Config.platform (tagLen f) (nonceOf f) (adOf s.mem f) (textIn s.mem f) := by
        simp only [wholeOutput, hc]
      have hlen : outLenOf f = s.regs.inLen + s.active.t.setWidth 64 := by
        have hM : f.dp.m = s.regs.inLen := BitVec.eq_of_toNat_eq h.payload
        rw [outLenOf_of_seal hc, hM, h.active]
      rw [hwhole, h.sealOutput_eq, hsize] at hmem
      exact .inl ⟨err, h.steps_of_ok hp err, (deliverOutcome_outLen_of_ok err).trans hlen, hmem⟩
    | mismatch _ isOpen _ _ => cases hc.symm.trans isOpen
    | busError err =>
      obtain ⟨hw, hkeeps, hzero, -⟩ := h.finish_of_failure hf hp (.inr err)
      exact .inr ⟨err, deliverOutcome_outLen_of_failure (by simp [err]), _, hsize ▸ hw, hkeeps, hzero⟩

/-! ### OPEN -/

/-- The three ways in which an OPEN of `M` ciphertext bytes, accepted in `s`, can stand in `t` after `k` engine steps,
where `result` is what R171 answers (R96, R182, R247). -/
inductive OpenEnd (s : State) (M : Nat) (result : Except ErrCode (List Byte)) (k : Nat) (t : State) : Prop where
  | released (pt : List Byte) (err : t.err = .ok)
      (steps : k = 5 + adBlockCount s.regs.adLen.toNat + 2 * ceil16 M) (outLen : t.outLen = BitVec.ofNat 64 M)
      (answer : result = .ok pt) (holds : MemHolds t.mem s.mem s.regs.outAddr.toNat M pt)
  | refused (err : t.err = .authenticationFailed) (steps : k = 5 + adBlockCount s.regs.adLen.toNat + 3 * ceil16 M)
      (outLen : t.outLen = 0) (answer : result = .error .authenticationFailed)
      (keeps : MemKeeps t.mem s.mem s.regs.outAddr.toNat M) (zero : MemZero t.mem s.regs.outAddr.toNat M)
  | busError (w : Nat) (err : t.err = .busError) (outLen : t.outLen = 0) (le : w ≤ M)
      (keeps : MemKeeps t.mem s.mem s.regs.outAddr.toNat w) (zero : MemZero t.mem s.regs.outAddr.toNat w)

theorem TextRun.openEnd {s f : State} {w : Word} {M k : Nat} (h : TextRun s w M k f) (hf : Running f)
    (hp : f.phase = .finish) {n : BitVec 4} (hc : commandOf f = .openCmd n) :
    OpenEnd s M (openResult Config.platform s.mem f) (k + 1) (deliverOutcome f) := by
  have hsize := h.outSize_of_open hc
  cases h.clock with
  | onTime err _ =>
    obtain ⟨hmem, hresult⟩ := h.finish_of_ok hf hp err
    have hwhole : wholeOutput Config.platform s.mem f = textOut Config.platform s.mem f := by
      simp only [wholeOutput, hc]
    have hM : outLenOf f = BitVec.ofNat 64 M := by
      rw [outLenOf_open hc, ← h.payload]
      simp [payloadLen]
    rw [hwhole, hsize] at hmem
    exact .released _ err (h.steps_of_ok hp err) ((deliverOutcome_outLen_of_ok err).trans hM) (hresult _ hc) hmem
  | mismatch err _ written _ =>
    obtain ⟨-, hkeeps, hzero, hresult⟩ := h.finish_of_failure hf hp (.inl err)
    rw [written, h.payload] at hkeeps hzero
    exact .refused err (h.steps_of_mismatch hp err) (deliverOutcome_outLen_of_failure (by simp [err])) (hresult err)
      hkeeps hzero
  | busError err =>
    obtain ⟨hw, hkeeps, hzero, -⟩ := h.finish_of_failure hf hp (.inr err)
    exact .busError _ err (deliverOutcome_outLen_of_failure (by simp [err])) (hsize ▸ hw) hkeeps hzero

/-- A whole OPEN left to the engine: the claim that O55 is after, with its three outcomes apart. O55 as it is written
puts the last two under the `∃ pt` of the first one, and so under `t.err = .ok`: see `not_openRun`. -/
theorem open_run_ends {s u : State} {M T : Nat} {result : Except ErrCode (List Byte)} (hreg : RegisterInv s)
    (hidle : s.busy = false) (hturns : s.turns = []) (hvalid : s.active.valid = true) (hT : T = s.active.t.toNat)
    (hlen : M + T = s.regs.inLen.toNat) (hfits : M < 2 ^ (8 * (15 - s.active.n.toNat)))
    (hexec : exec (.openCmd s.active.n) s = .next u)
    (hno : overlapUndefined { u with dp := { u.dp with m := BitVec.ofNat 64 M } } = false)
    (hresult : result = openOutput Config.platform T ((blockBytes (nonceBlock s.regs)).take s.active.n.toNat)
      (readRegion s.mem s.regs.adAddr.toNat s.regs.adLen.toNat)
      (readRegion s.mem s.regs.inAddr.toNat M) (readRegion s.mem (s.regs.inAddr.toNat + M) T)) :
    ∃ k t, BusyBelow k u ∧ Host.Core.run Sys2Proof.core k u = .next t ∧ t.busy = false ∧ t.done = true
      ∧ t.dp = zeroDatapath ∧ t.latch = zeroLatches ∧ t.active = s.active ∧ t.regs = s.regs
      ∧ (RegionAdmitted Config.platform .read s.regs.adAddr.toNat s.regs.adLen.toNat →
          RegionAdmitted Config.platform .read s.regs.inAddr.toNat (M + T) →
          RegionAdmitted Config.platform .write s.regs.outAddr.toNat M → t.err ≠ .busError)
      ∧ OpenEnd s M result k t := by
  subst hT hresult
  have hu : u = acceptCommand (textWord 3 s.active.n) s := by
    cases (exec_of_encode_cmd rfl s).symm.trans hexec
    rfl
  obtain ⟨k, f, hbusy, hrun, hf, hp, h⟩ := exists_textRun (isOpen := true) hreg hidle hturns hu (decodeCommand_open _)
    (hu ▸ validateText_acceptCommand (isOpen := true) hidle hvalid hlen.symm hfits)
    ((overlapUndefined_beginText u rfl).trans hno)
  have hc : commandOf f = .openCmd s.active.n := h.commandOf_eq.trans (decodeCommand_open _)
  refine ⟨k + 1, deliverOutcome f, hbusy, hrun, rfl, rfl, rfl, rfl, h.active, h.regs, fun had hin hout => ?_, ?_⟩
  · exact h.admitted (h.buffersAdmitted had (hlen ▸ hin) ((h.outSize_of_open hc).symm ▸ hout))
  · rw [← h.openResult_eq]
    exact h.openEnd hf hp hc

/-- An idle host about to OPEN an empty ciphertext with no associated data, at address 0, whose received tag is the
byte `b` and three zero bytes; configured for nonces of 7 and tags of 4 bytes. -/
def openAttempt (b : Byte) : State :=
  { State.reset with
    regs := { zeroRegs with inLen := 4 }
    active := { valid := true, n := 7, t := 4 }
    mem := [(0, b)] }

theorem openAttempt_registerInv {b : Byte} (hb : b ≠ 0) : RegisterInv (openAttempt b) := by
  have hidle : (openAttempt b).busy = false := rfl
  refine ⟨⟨fun _ => ⟨rfl, rfl, rfl, rfl⟩, by simp [hidle]⟩, ?_, by simp [DoneIsIdle, hidle], ?_⟩
  · show ConfigIsLegal { valid := true, n := 7, t := 4 }
    unfold ConfigIsLegal
    decide
  · exact ⟨List.pairwise_singleton _ _, fun c hc => by rwa [List.mem_singleton.mp hc]⟩

/-- What R171 answers to the attempt. -/
def attemptAnswer (b : Byte) : Except ErrCode (List Byte) :=
  openOutput Config.platform 4 ((blockBytes (nonceBlock zeroRegs)).take 7) [] [] [b, 0, 0, 0]

theorem eq_of_openOutput_error {cfg : Platform} {t : Nat} {nonce ad ct received : List Byte} {e : ErrCode}
    (h : openOutput cfg t nonce ad ct received = .error e) : e = .authenticationFailed := by
  unfold openOutput at h
  split at h <;> cases h
  rfl

/-- One of two tags that differ is refused, whatever the platform's cipher computes. -/
theorem exists_attempt_refused : ∃ b : Byte, b ≠ 0 ∧ attemptAnswer b = .error .authenticationFailed := by
  obtain ⟨hother, -⟩ := tamperingIsDetected
  cases h : attemptAnswer 1 with
  | ok plain => exact ⟨2, by decide, hother _ 4 _ _ _ [1, 0, 0, 0] [2, 0, 0, 0] plain (by omega) rfl rfl h (by decide)⟩
  | error e => exact ⟨1, by decide, eq_of_openOutput_error h ▸ h⟩

/-- An empty output overlaps nothing (R69). -/
theorem overlapUndefined_of_outSize_zero {s : State} (h : outSize s = 0) : overlapUndefined s = false := by
  rw [← Bool.not_eq_true, overlapUndefined_iff, h]
  rintro ⟨x, hlo, hhi, -⟩
  omega

/-- Refutes O55: its outcomes after `∃ pt` all stand under `t.err = .ok`, whose answer is then the plaintext; an OPEN
whose tag differs has no such end. `open_run_ends` is the claim with the outcomes apart. -/
theorem not_openRun : ¬ Obligations.OpenRun := by
  intro h
  obtain ⟨b, hb, hrefused⟩ := exists_attempt_refused
  have hanswer : attemptAnswer b = openOutput Config.platform 4 ((blockBytes (nonceBlock zeroRegs)).take 7)
      (readRegion [(0, b)] 0 0) (readRegion [(0, b)] 0 0) (readRegion [(0, b)] (0 + 0) 4) := rfl
  have hno : overlapUndefined { acceptCommand (textWord 3 7) (openAttempt b) with
      dp := { (acceptCommand (textWord 3 7) (openAttempt b)).dp with m := BitVec.ofNat 64 0 } } = false :=
    overlapUndefined_of_outSize_zero (outSize_of_open (decodeCommand_open 7))
  obtain ⟨k, t, -, -, -, -, -, -, -, -, -, hok, -, -, pt, hend⟩ :=
    h (openAttempt b) _ 7 0 4 (attemptAnswer b) (openAttempt_registerInv hb) rfl rfl rfl rfl rfl rfl (by decide)
      (exec_of_encode_cmd rfl (openAttempt b)) hno hanswer
  rw [hrefused] at hend
  simp [hok] at hend

end Sys2Proof.Machine

/-! The platform's reset, after which SEAL and OPEN find no configuration (R174, R240, R241). -/

namespace Sys2Proof.Machine

/-- The word an idle engine accepts is the command in flight (R84, R173). -/
theorem commandOf_acceptCommand {s : State} (w : Word) (hidle : s.busy = false) :
    commandOf (acceptCommand w s) = decodeCommand w := by
  rw [acceptCommand_idle w s hidle]
  rfl

/-- A SEAL or OPEN of an engine without a configuration is accepted, and its CHECK fails it (R173, R174). -/
theorem exec_text_of_not_configured {s : State} (hidle : s.busy = false) (hinvalid : s.active.valid = false)
    {i : Instr} {n : BitVec 4} (hi : i = .seal n ∨ i = .openCmd n) :
    ∃ t, exec i s = .next t ∧ exec .check t = .next (failCheck .notConfigured t) := by
  have hvalid (w : Word) : (acceptCommand w s).active.valid = false := by rw [acceptCommand_active, hinvalid]
  obtain rfl | rfl := hi
  · refine ⟨_, exec_of_encode_cmd rfl s, ?_⟩
    rw [exec_check_of_seal ((commandOf_acceptCommand _ hidle).trans (decodeCommand_seal n))]
    exact checkText_of_error (validateText_of_not_configured (hvalid _))
  · refine ⟨_, exec_of_encode_cmd rfl s, ?_⟩
    rw [exec_check_of_open ((commandOf_acceptCommand _ hidle).trans (decodeCommand_open n))]
    exact checkText_of_error (validateText_of_not_configured (hvalid _))

/-- Settles O14: the turn is `platformReset`, which leaves the engine idle and without a configuration. -/
theorem platformResetClearsTheEngine : Obligations.PlatformResetClearsTheEngine := by
  intro s ts hturns
  refine ⟨step_of_reset hturns, fun i n hi => ?_⟩
  obtain ⟨t, hrun, hcheck⟩ := exec_text_of_not_configured
    (s := { State.reset with mem := s.mem, turns := ts, draws := s.draws, resp := s.resp }) rfl rfl hi
  exact ⟨t, _, hrun, hcheck, rfl, rfl⟩

end Sys2Proof.Machine

/-! What steers the engine: the shape of a state without its data bytes, through which every micro-op but the tag
comparison acts (R179, R248). -/

namespace Sys2Proof.Machine

open Sys2Proof.Config (Platform)
open Sys2Proof.Safety

/-! ### The shape of a state -/

/-- The state with every data byte, and everything of the host's side, as after reset: what is left are the phase, the
configuration, the counts and the latched lengths and addresses. -/
def shapeOf (s : State) : State :=
  { State.reset with
    phase := s.phase
    busy := s.busy
    active := s.active
    latch := { s.latch with nonce := 0 }
    dp := { s.dp with y := 0, a := 0, s0 := 0, p := 0, diff := 0 } }

theorem sameShape_iff (s t : State) : SameShape s t ↔ shapeOf s = shapeOf t := by
  simp only [SameShape, shapeOf, State.mk.injEq, Latches.mk.injEq, Datapath.mk.injEq]
  tauto

theorem engineIsNext_shapeOf (s : State) : EngineIsNext (shapeOf s) := .inl rfl

theorem commandOf_shapeOf (s : State) : commandOf (shapeOf s) = commandOf s := rfl

/-- Whether a read is refused depends on its addresses alone (R10, R213). -/
theorem readSources_refused_alike (cfg : Platform) (s t : State) (xs : List ByteSource) :
    (readSources cfg s xs = none ∧ readSources cfg t xs = none)
      ∨ ∃ r r', readSources cfg s xs = some r ∧ readSources cfg t xs = some r' := by
  unfold readSources
  split
  · exact .inr ⟨_, _, rfl, rfl⟩
  · exact .inl ⟨rfl, rfl⟩

/-! ### The micro-ops act through the shape -/

section

variable (cfg : Platform) (s : State)

theorem checkText_shapeOf (isOpen : Bool) (nlen : BitVec 4) :
    mapNext shapeOf (checkText isOpen nlen s) = mapNext shapeOf (checkText isOpen nlen (shapeOf s)) := by
  have hvalidate : validateText isOpen nlen (shapeOf s) = validateText isOpen nlen s := rfl
  unfold checkText
  rw [hvalidate]
  cases validateText isOpen nlen s with
  | error e => rfl
  | ok mc =>
    have hoverlap : overlapUndefined (beginText mc (shapeOf s)) = overlapUndefined (beginText mc s) := rfl
    dsimp only
    rw [hoverlap]
    split <;> rfl

theorem checkOn_shapeOf : mapNext shapeOf (checkOn cfg s) = mapNext shapeOf (checkOn cfg (shapeOf s)) := by
  simp only [checkOn, commandOf_shapeOf]
  generalize commandOf s = command
  match command with
  | .config => rfl
  | .seal nlen => exact checkText_shapeOf s false nlen
  | .openCmd nlen => exact checkText_shapeOf s true nlen
  | .bad _ => rfl

theorem macB0On_shapeOf : shapeOf (macB0On cfg s) = shapeOf (macB0On cfg (shapeOf s)) := by
  by_cases had : 0 < adLen s
  · rw [macB0On_of_ad cfg had, macB0On_of_ad cfg (s := shapeOf s) had]
    rfl
  · rw [macB0On_of_no_ad cfg had, macB0On_of_no_ad cfg (s := shapeOf s) had]
    rfl

theorem macAdOn_shapeOf : shapeOf (macAdOn cfg s) = shapeOf (macAdOn cfg (shapeOf s)) := by
  obtain ⟨h, h'⟩ | ⟨_, _, h, h'⟩ := readSources_refused_alike cfg s (shapeOf s) (adBlockSources s)
  · rw [macAdOn_of_refused h, macAdOn_of_refused (s := shapeOf s) h']
    rfl
  · rw [macAdOn_of_read h, macAdOn_of_read (s := shapeOf s) h']
    rfl

theorem ctrS0On_shapeOf : shapeOf (ctrS0On cfg s) = shapeOf (ctrS0On cfg (shapeOf s)) := by
  by_cases htext : 0 < s.dp.nTxt
  · rw [ctrS0On_of_text cfg htext, ctrS0On_of_text cfg (s := shapeOf s) htext]
    rfl
  · rw [ctrS0On_of_no_text cfg htext, ctrS0On_of_no_text cfg (s := shapeOf s) htext]
    rfl

/-- The bytes TEXT_CTR writes are data; how many of them the platform admits is not (R10, R154). -/
theorem textCtrOn_shapeOf : shapeOf (textCtrOn cfg s) = shapeOf (textCtrOn cfg (shapeOf s)) := by
  obtain ⟨h, h'⟩ | ⟨_, _, h, h'⟩ :=
    readSources_refused_alike cfg s (shapeOf s) (memSources (inAddr s + textBase s) (textCount s))
  · rw [textCtrOn_of_refused h, textCtrOn_of_refused (s := shapeOf s) h']
    rfl
  · obtain hall | hlt := (admittedCount_le cfg .write (outAddr s + textBase s) (textCount s)).eq_or_lt
    · rw [textCtrOn_of_written h rfl hall, textCtrOn_of_written (s := shapeOf s) h' rfl hall,
        storeBytes_eq_update s, storeBytes_eq_update (shapeOf s)]
      rfl
    · rw [textCtrOn_of_write_refused h rfl hlt, textCtrOn_of_write_refused (s := shapeOf s) h' rfl hlt,
        storeBytes_eq_update s, storeBytes_eq_update (shapeOf s)]
      rfl

theorem textMacOn_shapeOf : shapeOf (textMacOn cfg s) = shapeOf (textMacOn cfg (shapeOf s)) := by
  by_cases hlast : s.dp.i = s.dp.nTxt
  · rw [textMacOn_of_last cfg hlast, textMacOn_of_last cfg (s := shapeOf s) hlast]
    rfl
  · rw [textMacOn_of_more cfg hlast, textMacOn_of_more cfg (s := shapeOf s) hlast]
    rfl

theorem tagSeal_shapeOf : shapeOf (tagSeal cfg s) = shapeOf (tagSeal cfg (shapeOf s)) := by
  obtain hall | hlt := (admittedCount_le cfg .write (outAddr s + payloadLen s) (tagLen s)).eq_or_lt
  · rw [tagSeal_of_written rfl hall, tagSeal_of_written (s := shapeOf s) rfl hall,
      storeBytes_eq_update s, storeBytes_eq_update (shapeOf s)]
    rfl
  · rw [tagSeal_of_write_refused rfl hlt, tagSeal_of_write_refused (s := shapeOf s) rfl hlt,
      storeBytes_eq_update s, storeBytes_eq_update (shapeOf s)]
    rfl

theorem scrubStep_shapeOf : shapeOf (scrubStep s) = shapeOf (scrubStep (shapeOf s)) := by
  rw [scrubStep_eq_update s, scrubStep_eq_update (shapeOf s)]
  rfl

theorem deliverOutcome_shapeOf : shapeOf (deliverOutcome s) = shapeOf (deliverOutcome (shapeOf s)) := rfl

/-- Every micro-op but TAG answers the same shape, fault or refusal from the shape of its state alone. -/
theorem exec_shapeOf {p : Phase} {i : Instr} (hi : microOp p = some i) (htag : p ≠ .tag) :
    mapNext shapeOf (exec i s) = mapNext shapeOf (exec i (shapeOf s)) := by
  cases p <;> simp only [microOp, Option.some.injEq, reduceCtorEq] at hi <;> subst hi
  case check => exact checkOn_shapeOf _ s
  case macB0 => exact congrArg Host.Outcome.next (macB0On_shapeOf _ s)
  case macAd => exact congrArg Host.Outcome.next (macAdOn_shapeOf _ s)
  case ctrS0 => exact congrArg Host.Outcome.next (ctrS0On_shapeOf _ s)
  case textCtr => exact congrArg Host.Outcome.next (textCtrOn_shapeOf _ s)
  case textMac => exact congrArg Host.Outcome.next (textMacOn_shapeOf _ s)
  case tag => exact absurd rfl htag
  case scrub => exact congrArg Host.Outcome.next (scrubStep_shapeOf s)
  case finish => exact congrArg Host.Outcome.next (deliverOutcome_shapeOf s)

/-! ### The comparison of tags -/

/-- Where an OPEN goes from TAG with outcome `e`, whatever the bytes compared (R179, R213). -/
def afterComparison (e : ErrCode) (s : State) : State :=
  if e = .ok then { s with dp := { s.dp with pendErr := e }, phase := .finish }
  else { s with dp := { s.dp with pendErr := e, scrubPos := 0 }, phase := afterFailure s }

/-- The shape after TAG of an OPEN is decided by its outcome and the shape before. -/
theorem tagOpen_shapeOf : shapeOf (tagOpen cfg s) = afterComparison (tagOpen cfg s).dp.pendErr (shapeOf s) := by
  cases hread : memRead cfg s (inAddr s + payloadLen s) (tagLen s) with
  | none =>
    rw [tagOpen_of_refused hread]
    rfl
  | some r =>
    by_cases hmatch : tagDiff (maskedTag s) r.1 = 0
    · rw [tagOpen_of_match hread hmatch]
      rfl
    · rw [tagOpen_of_mismatch hread hmatch]
      rfl

end

/-- Two TAGs from one shape that report the same outcome lead to one shape (R178, R179). -/
theorem exec_tag_shapeOf {s1 s2 t1 t2 : State} (hshape : shapeOf s1 = shapeOf s2) (h1 : exec .tag s1 = .next t1)
    (h2 : exec .tag s2 = .next t2) (herr : t1.dp.pendErr = t2.dp.pendErr) : shapeOf t1 = shapeOf t2 := by
  have hc : commandOf s1 = commandOf s2 := by
    rw [← commandOf_shapeOf s1, hshape, commandOf_shapeOf]
  match hc2 : commandOf s2 with
  | .seal n =>
    cases (exec_tag_of_seal (hc.trans hc2)).symm.trans h1
    cases (exec_tag_of_seal hc2).symm.trans h2
    rw [tagSeal_shapeOf, hshape, ← tagSeal_shapeOf]
  | .openCmd n =>
    cases (exec_tag_of_open (hc.trans hc2)).symm.trans h1
    cases (exec_tag_of_open hc2).symm.trans h2
    rw [tagOpen_shapeOf, tagOpen_shapeOf, hshape, herr]
  | .config | .bad w => simp [exec, execTag, tagOn, hc2] at h2

/-! ### The engine's turn -/

/-- The engine's turn changes nothing in IDLE, whether or not BUSY is 1 (log 11). -/
theorem step_of_idle_phase {s : State} (hnext : EngineIsNext s) (hp : s.phase = .idle) :
    step s = .next (dropTurn s) := by
  have hturn : engineTurn (dropTurn s) = .settled (dropTurn s) := by simp [engineTurn, dropTurn, hp, microOp]
  exact step_of_fetch_settled ((fetch_of_engineIsNext hnext).trans hturn)

/-- The engine's turn, but for a TAG, answers the same shape from the shape of the state alone. -/
theorem step_shapeOf {s : State} (hnext : EngineIsNext s) (htag : s.busy = true → s.phase ≠ .tag) :
    mapNext shapeOf (step s) = mapNext shapeOf (step (shapeOf s)) := by
  obtain ⟨hb, i, hi, -⟩ | ⟨-, hp, -⟩ | ⟨hb, -⟩ := engineTurn_cases (dropTurn s)
  · rw [step_of_microOp hnext hb hi, step_of_microOp (s := shapeOf s) (engineIsNext_shapeOf s) hb hi]
    exact exec_shapeOf (dropTurn s) hi (htag hb)
  · rw [step_of_idle_phase hnext hp, step_of_idle_phase (engineIsNext_shapeOf s) hp]
    rfl
  · rw [step_of_idle hnext hb, step_of_idle (engineIsNext_shapeOf s) hb]
    rfl

/-- Settles O58: but for a TAG both runs step as their one shape does, and a TAG's outcome decides the rest. -/
theorem dataDoesNotSteerTheEngine : Obligations.DataDoesNotSteerTheEngine := by
  intro s1 s2 t1 t2 hsame hnext1 hnext2 h1 h2
  rw [sameShape_iff] at hsame ⊢
  have hbusy : s1.busy = s2.busy := congrArg (·.busy) hsame
  have hphase : s1.phase = s2.phase := congrArg (·.phase) hsame
  by_cases htag : s1.busy = true ∧ s1.phase = .tag
  · obtain ⟨hb, hp⟩ := htag
    rw [step_of_microOp (i := .tag) hnext1 hb (by rw [hp]; rfl)] at h1
    rw [step_of_microOp (i := .tag) hnext2 (hbusy ▸ hb) (by rw [← hphase, hp]; rfl)] at h2
    exact ⟨fun hne => absurd hp hne, exec_tag_shapeOf (s1 := dropTurn s1) (s2 := dropTurn s2) hsame h1 h2⟩
  · have htag1 : s1.busy = true → s1.phase ≠ .tag := fun hb hp => htag ⟨hb, hp⟩
    have hstep : mapNext shapeOf (step s1) = mapNext shapeOf (step s2) := by
      rw [step_shapeOf hnext1 htag1, hsame, ← step_shapeOf hnext2 (hbusy ▸ hphase ▸ htag1)]
    rw [h1, h2] at hstep
    have hshape : shapeOf t1 = shapeOf t2 := Host.Outcome.next.inj hstep
    exact ⟨fun _ => congrArg (·.dp.pendErr) hshape, fun _ => hshape⟩

end Sys2Proof.Machine
